-- ==== Sys2Proof/Word.lean ====
section
/-!
DEFINITION. The word types of the block and their plainest arithmetic
(00_scope.md R12, R15, R16).
-/

namespace Sys2Proof

/-- A CSR word, a command word, an IMEM address: 32 bits (00_scope.md R12). -/
abbrev Word := BitVec 32

/-- A byte of IMEM, of the sink stream or of an internal RAM. -/
abbrev Byte := BitVec 8

/-- An LZW code, 12 bits (00_scope.md R11, 10_state.md R46). -/
abbrev Code := BitVec 12

end Sys2Proof
end

