-- ==== Sys2Proof/Syntax.lean ====
section
/-!
DEFINITION. The host commands, one constructor per row of spec/opcode_table.json
(30_encoding.md R121). A command word has no operand field (R120): the operands are the
CSRs ARG0 and ARG1, so no constructor has an argument.
-/

namespace Sys2Proof

/-- The nine commands of 30_encoding.md R121. -/
inductive Instr where
  /-- BITWIDTH, OPC 0x01 (40_helpers.md R182). -/
  | bitwidth
  /-- PAL_ENCODE, OPC 0x02 (40_helpers.md R187). -/
  | palEncode
  /-- SBW_OPEN, OPC 0x03 (41_subblock_writer.md R203). -/
  | sbwOpen
  /-- SBW_APPEND, OPC 0x04 (41_subblock_writer.md R205). -/
  | sbwAppend
  /-- SBW_CLOSE, OPC 0x05 (41_subblock_writer.md R208). -/
  | sbwClose
  /-- LZW_OPEN, OPC 0x06 (42_lzw.md R240). -/
  | lzwOpen
  /-- LZW_WRITE, OPC 0x07 (42_lzw.md R242). -/
  | lzwWrite
  /-- LZW_CLOSE, OPC 0x08 (42_lzw.md R245). -/
  | lzwClose
  /-- ENC_ANIM, OPC 0x09 (43_frame_animation.md R280). -/
  | encAnim
deriving DecidableEq, Repr

end Sys2Proof
end

