-- ==== Sys2Proof/WellFormed.lean ====
section
/-!
DEFINITION. Well-formedness of commands and of command words (30_encoding.md R120, R121, R123).
-/

namespace Sys2Proof

/-- A command has no operand field (30_encoding.md R120), so every command is well formed. -/
def Instr.wellFormed : Instr → Bool
  | .bitwidth => true
  | .palEncode => true
  | .sbwOpen => true
  | .sbwAppend => true
  | .sbwClose => true
  | .lzwOpen => true
  | .lzwWrite => true
  | .lzwClose => true
  | .encAnim => true

/-- The check on CMD[31:8]: reserved, must be 0 (30_encoding.md R120). -/
def reservedClear (w : Word) : Bool := w.toNat / 256 == 0

/-- The check on CMD[7:0]: an assigned opcode, 0x01 to 0x09 (30_encoding.md R121, R123). -/
def opcodeAssigned (w : Word) : Bool := 1 ≤ w.toNat % 256 && w.toNat % 256 ≤ 9

/-- A command word that selects a command (30_encoding.md R121). -/
def wordWellFormed (w : Word) : Bool := reservedClear w && opcodeAssigned w

end Sys2Proof
end

