-- ==== Sys2Proof/Decode.lean ====
section
/-!
DEFINITION. The decoder and the encoder of the command word CMD32
(30_encoding.md R120, R121, R123, R124).
-/

namespace Sys2Proof

/-- Why a command word selects no command (30_encoding.md R123). Both are E_BAD_COMMAND. -/
inductive BadWord where
  /-- CMD[31:8] is not zero. -/
  | reservedBits (rsvd : BitVec 24)
  /-- CMD[7:0] is 0x00 or 0x0A..0xFF. -/
  | unassignedOpcode (opc : Byte)
deriving DecidableEq, Repr

/-- What the decoder reads from a command word. -/
inductive Decoded where
  | command (i : Instr)
  | illegal (why : BadWord)
deriving DecidableEq, Repr

/-- CMD.OPC, bits 7:0 (30_encoding.md R120). -/
def opcField (w : Word) : Byte := w.extractLsb' 0 8

/-- CMD[31:8], reserved (30_encoding.md R120). -/
def rsvdField (w : Word) : BitVec 24 := w.extractLsb' 8 24

/-- The opcode map of 30_encoding.md R121. -/
def commandOfOpc (opc : Byte) : Option Instr :=
  match opc.toNat with
  | 0x01 => some .bitwidth
  | 0x02 => some .palEncode
  | 0x03 => some .sbwOpen
  | 0x04 => some .sbwAppend
  | 0x05 => some .sbwClose
  | 0x06 => some .lzwOpen
  | 0x07 => some .lzwWrite
  | 0x08 => some .lzwClose
  | 0x09 => some .encAnim
  | _ => none

/-- Decoding a command word: total, and an illegal word is rejected by name
(30_encoding.md R121, R123). -/
def decode (w : Word) : Decoded :=
  if rsvdField w = 0 then
    match commandOfOpc (opcField w) with
    | some i => .command i
    | none => .illegal (.unassignedOpcode (opcField w))
  else .illegal (.reservedBits (rsvdField w))

/-- The opcode of a command (30_encoding.md R121). -/
def opcOf : Instr → Byte
  | .bitwidth => 0x01
  | .palEncode => 0x02
  | .sbwOpen => 0x03
  | .sbwAppend => 0x04
  | .sbwClose => 0x05
  | .lzwOpen => 0x06
  | .lzwWrite => 0x07
  | .lzwClose => 0x08
  | .encAnim => 0x09

/-- The command word of a command: `zext_32(OPC)` (30_encoding.md R127). -/
def encode (i : Instr) : Word := (0 : BitVec 24) ++ opcOf i

/-- The command the decoder reads from a table row's word `w` of `nbits` bits, the bits above
`nbits` being 0. A command is one 32-bit word written whole to CMD (30_encoding.md R124), so
no byte order enters; a row of more than 32 bits is no command. -/
def decodeTableWord (nbits w : Nat) : Option Instr :=
  if nbits ≤ 32 then
    match decode (BitVec.ofNat 32 (w % 2 ^ nbits)) with
    | .command i => some i
    | .illegal _ => none
  else none

end Sys2Proof
end

