-- ==== Sys2Proof/Config.lean ====
section
/-!
DEFINITION. What the spec leaves open: the free values (opaque, so that no proof can
see them), and what IMEM reads as where nothing has been written.
IMEM_SIZE, the other open parameter (00_scope.md R13), is a field of State, so that every
statement about all states holds for every IMEM_SIZE.
-/

namespace Sys2Proof

/-- One answer of the sink to a write transaction (00_scope.md R14): how many bytes it takes
and its error code, if any. `taken` is read as at most the bytes offered. -/
structure SinkAnswer where
  taken : Nat
  err   : Option Byte
deriving DecidableEq, Repr, Inhabited

/-- Where a reset falls inside a running command (70_reset_and_hazards.md R341): how many of
its transactions were complete, and, where one was in flight, how many of its bytes the sink
holds (read modulo their number plus one). -/
structure AbandonPoint where
  completed : Nat
  inFlight  : Option Nat
deriving DecidableEq, Repr, Inhabited

/-- FREE VALUE (log entry 3). The sink's answer to the n-th transaction since State.reset,
once State gives none (00_scope.md R14, U2). -/
opaque Config.sinkAnswer : Nat → SinkAnswer

/-- FREE VALUE (log entry 4). The draw SBW_FAIL_COUNT of 41_subblock_writer.md R209 (U3), read
modulo the number of values the rule allows. -/
opaque Config.sbwFailCount : Nat → Nat

/-- FREE VALUE (log entry 5). What a CSR read returns while BUSY = 1 (10_state.md R52, U5). -/
opaque Config.busyRead : Nat → Word

/-- FREE VALUE (log entry 6). Where a reset falls in the running command
(70_reset_and_hazards.md R341, U7). -/
opaque Config.abandonPoint : Nat → AbandonPoint

/-- FREE VALUE (log entry 11). What a 32-bit result register holds for a count that does not
fit it; the spec states no result there. -/
opaque Config.wideCount : Nat → Word

/-- What an IMEM byte reads as where nothing has been written. DESIGN CHOICE (log entry 2). -/
def Config.imemUnlisted : Byte := 0

end Sys2Proof
end

