-- ==== Sys2Proof/Machine/State.lean ====
section
/-!
DEFINITION. The state of the block and of the two agents beside it (the host and the sink),
as plain data, and the state after reset (10_state.md R30–R53, 20_memory.md R80–R90).
-/

namespace Sys2Proof.Machine

/-- The failure kinds, 0x01 to 0x0D of 30_encoding.md R126. -/
inductive FailKind where
  | zeroImages | logicalSize | paletteTooLarge | differentPalettes | paletteEmpty
  | sink | shortWrite | alreadyClosed | lzwLiteral | lzwClosed | imemRange
  | badCommand | badArg
deriving DecidableEq, Repr

/-- A failure value `(kind, code)` (00_scope.md R18). -/
structure Failure where
  kind : FailKind
  code : Byte
deriving DecidableEq, Repr

/-- What STATUS.RESULT shows (30_encoding.md R126): OK, a failure kind, or NONE, which only
reset leaves. -/
inductive Result where
  | ok
  | failed (kind : FailKind)
  | noneYet
deriving DecidableEq, Repr

/-- The registers that have a home of their own: operands, results, and the RESULT and
SINK_CODE fields of STATUS (10_state.md R35–R37). -/
structure Csr where
  arg0     : Word
  arg1     : Word
  res0     : Word
  res1     : Word
  result   : Result
  sinkCode : Byte
deriving DecidableEq, Repr

/-- The tri-state of the sub-block writer (10_state.md R44). -/
inductive SbwSt where
  | writable
  | failed (f : Failure)
  | closed
deriving DecidableEq, Repr

/-- The sub-block writer (10_state.md R44). `data` is bytes 1..fill of the 256-byte working
area; byte 0, the fill count, is its length. The bytes above fill are not held: they are
never observable (R51, U4; log entry 12). -/
structure Sbw where
  st   : SbwSt
  data : List Byte
deriving DecidableEq, Repr

/-- The tri-state of the LZW unit (10_state.md R46). -/
inductive LzwSt where
  | opened
  | failed (f : Failure)
  | closed
deriving DecidableEq, Repr

/-- One entry of the dictionary: the key `(stem, byte)` and its code (10_state.md R47). -/
structure DictEntry where
  stem : Code
  byte : Byte
  code : Code
deriving DecidableEq, Repr

/-- The LZW unit (10_state.md R46, R47). `saved = none` is the rule's NONE. The dictionary is
listed newest entry first (U17: only the map matters; log entry 13). -/
structure Lzw where
  st     : LzwSt
  lit    : Nat
  width  : Nat
  hi     : Code
  saved  : Option Code
  bitbuf : BitVec 32
  nbits  : Nat
  dict   : List DictEntry
deriving DecidableEq, Repr

/-- The global colour table (10_state.md R45). -/
structure Gct where
  ram   : List Byte
  bits  : Nat
  valid : Bool
deriving DecidableEq, Repr

/-- What the sequencer holds (10_state.md R48): the command accepted and not yet completed
(BUSY = 1 exactly while there is one), and the hidden counts of 20_memory.md R90
(cmd_accepted), 42_lzw.md R232 (lzw_delivered) and 43_frame_animation.md R280 (frames_done).
The position inside a command is not held: a command is one transition (R48, R52). -/
structure Sequencer where
  cmd        : Option Word
  accepted   : Nat
  delivered  : Nat
  framesDone : Nat
deriving DecidableEq, Repr

/-- One sink write transaction: the bytes offered, how many the sink took, and its error code
(20_memory.md R90, R91). -/
structure Tx where
  offered : List Byte
  taken   : Nat
  err     : Option Byte
deriving DecidableEq, Repr

/-- What the sink does when its script is used up: answer by the free value
`Config.sinkAnswer`, or take everything with no error (the accept-all sink of
95_test_vectors.md §0). -/
inductive SinkMode where
  | free
  | acceptAll
deriving DecidableEq, Repr

/-- The sink: every transaction so far, oldest first; its coming answers; and what it does
after those (00_scope.md R14, 10_state.md R49, 20_memory.md R89; log entry 3). -/
structure Sink where
  txs    : List Tx
  script : List SinkAnswer
  onward : SinkMode
deriving DecidableEq, Repr

/-- The width of a host access to the CSR window (20_memory.md R86). -/
inductive AccessWidth where
  | w8 | w16 | w32
deriving DecidableEq, Repr

/-- One move of the host (10_state.md R30, 30_encoding.md R127, 70_reset_and_hazards.md R358).
The CSR window is 0x800 bytes (10_state.md R33), so an offset has 11 bits. -/
inductive HostMove where
  /-- Read the CSR at a byte offset. -/
  | csrRead (width : AccessWidth) (off : BitVec 11)
  /-- Write the CSR at a byte offset; a write of CMD issues a command. -/
  | csrWrite (width : AccessWidth) (off : BitVec 11) (val : Word)
  /-- Place a byte in IMEM. -/
  | imemWrite (addr : Word) (val : Byte)
  /-- Read STATUS until BUSY = 0. -/
  | wait
  /-- Assert the reset input. -/
  | resetAssert
  /-- Release the reset input. -/
  | resetRelease
deriving DecidableEq, Repr

/-- The host's side: its remaining moves, and the value its last CSR read returned
(log entries 8 and 17). -/
structure HostSide where
  agenda : List HostMove
  rdata  : Word
deriving DecidableEq, Repr

/-- IMEM as a list of (address, byte) pairs, addresses strictly rising, no entry equal to what
an unlisted address reads as (20_memory.md R81). -/
abbrev Memory := List Host.Cell

/-- The whole state: the block (10_state.md R53), its input memory (20_memory.md R81), the sink
and the host. `draws` counts the free draws taken; it is the model's own. -/
structure State where
  csr      : Csr
  sbw      : Sbw
  lzw      : Lzw
  gct      : Gct
  seq      : Sequencer
  imem     : Memory
  imemSize : Nat
  sink     : Sink
  host     : HostSide
  inReset  : Bool
  draws    : Nat
deriving DecidableEq, Repr

/-- Why the machine stops with a fault. No command raises one. -/
inductive Fault where
  /-- A host write to an IMEM address at or above IMEM_SIZE, which does not exist
  (20_memory.md R81). Raised by the host's imemWrite move; safe (log entry 10). -/
  | noSuchImemAddress (addr : Word)
deriving DecidableEq, Repr

/-- Why a move has no meaning. No command is refused. -/
inductive Refusal where
  /-- A command without a meaning in this model, by its mnemonic. Raised by no arm now; safe. -/
  | notModelled (mnemonic : String)
  /-- An 8- or 16-bit host access to the CSR window: "a model refuses them" (20_memory.md R86,
  U9). Raised by csrRead and csrWrite; safe (log entry 9). -/
  | narrowCsrAccess
  /-- A host access while reset is asserted: the host "must not access it"
  (70_reset_and_hazards.md R340, R358). Raised by csrRead, csrWrite, imemWrite and wait; safe
  (log entry 9). -/
  | accessInReset
  /-- A host write to IMEM while BUSY = 1, for which the spec gives the host no move
  (70_reset_and_hazards.md R350, R358, U8). Raised by imemWrite; safe (log entry 9). -/
  | imemWriteWhileBusy
deriving DecidableEq, Repr

/-- The sequencer with no command (10_state.md R53). -/
def Sequencer.idle : Sequencer :=
  { cmd := none, accepted := 0, delivered := 0, framesDone := 0 }

/-- The registers after reset (10_state.md R53). -/
def Csr.afterReset : Csr :=
  { arg0 := 0, arg1 := 0, res0 := 0, res1 := 0, result := .noneYet, sinkCode := 0 }

/-- The sub-block writer after reset: CLOSED, fill 0 (10_state.md R53). -/
def Sbw.afterReset : Sbw := { st := .closed, data := [] }

/-- The LZW unit after reset (10_state.md R53). -/
def Lzw.afterReset : Lzw :=
  { st := .closed, lit := 0, width := 0, hi := 0, saved := none, bitbuf := 0, nbits := 0,
    dict := [] }

/-- The number of bytes of the GCT RAM (10_state.md R45). -/
def gctRamBytes : Nat := 768

/-- The GCT when invalid: 768 zero bytes, bits 0 (10_state.md R45, R53). -/
def Gct.cleared : Gct :=
  { ram := List.replicate gctRamBytes 0, bits := 0, valid := false }

/-- The machine right after reset (10_state.md R53): units CLOSED, GCT zero, RESULT 0xFF, idle.
The block resets neither IMEM nor the sink: nothing is listed in IMEM, the sink has taken
nothing and its answers are free. IMEM_SIZE is a parameter; here it is the largest value
00_scope.md R13 allows, DESIGN CHOICE (log entry 1). -/
def State.reset : State :=
  { csr := .afterReset, sbw := .afterReset, lzw := .afterReset, gct := .cleared,
    seq := .idle, imem := [], imemSize := 2 ^ 32,
    sink := { txs := [], script := [], onward := .free },
    host := { agenda := [], rdata := 0 }, inReset := false, draws := 0 }

end Sys2Proof.Machine
end

