-- ==== Sys2Proof/Machine/Ops.lean ====
section
/-!
DEFINITION. The named operations over memory, the sink and the registers: IMEM reads and
writes, the sink transaction, the free draws, and the one way a command completes or fails
(00_scope.md R17, 20_memory.md R84–R91, 60_exceptions.md R312).
-/

namespace Sys2Proof.Machine

/-! ### IMEM -/

/-- The byte an IMEM address holds. -/
def Memory.read : Memory → Nat → Byte
  | [], _ => Config.imemUnlisted
  | (k, v) :: rest, a => if k = a then v else Memory.read rest a

/-- A host write of one byte, in the canonical form: addresses rise, and a byte equal to what
an unlisted address reads as is not listed. -/
def Memory.write : Memory → Nat → Byte → Memory
  | [], a, v => if v = Config.imemUnlisted then [] else [(a, v)]
  | (k, w) :: rest, a, v =>
    if a < k then
      if v = Config.imemUnlisted then (k, w) :: rest else (a, v) :: (k, w) :: rest
    else if a = k then
      if v = Config.imemUnlisted then rest else (a, v) :: rest
    else (k, w) :: Memory.write rest a v

/-- The canonical form of IMEM. -/
abbrev Memory.wf (m : Memory) : Prop :=
  m.Pairwise (fun x y => x.1 < y.1) ∧ ∀ c ∈ m, c.2 ≠ Config.imemUnlisted

/-- `MemBytes(addr, n)`: n bytes from `addr`, or none where `addr + n > IMEM_SIZE`, the sum
taken without wrap-around (00_scope.md R17, 20_memory.md R84). -/
def memBytes (addr n : Nat) (s : State) : Option (List Byte) :=
  if addr + n ≤ s.imemSize then
    some ((List.range n).map fun i => Memory.read s.imem (addr + i))
  else none

/-- Bytes read as an unsigned integer, the first byte least significant (20_memory.md R83). -/
def leNat : List Byte → Nat
  | [] => 0
  | b :: bs => b.toNat + 256 * leNat bs

/-- `MemRead(addr, n)`: the same read, assembled little-endian (00_scope.md R17). -/
def memRead (addr n : Nat) (s : State) : Option Nat := (memBytes addr n s).map leNat

/-- `v[hi:lo]` for a field of `width` bits from bit `lo` (00_scope.md R15). -/
def natField (v lo width : Nat) : Nat := v / 2 ^ lo % 2 ^ width

/-- `u16le(v)` (00_scope.md R16). -/
def u16le (v : Nat) : List Byte := [BitVec.ofNat 8 v, BitVec.ofNat 8 (v / 256)]

/-! ### Results of internal procedures -/

/-- What an internal procedure of the engine returns: it went well, or it failed with a
failure value; either way with the state it leaves, since no change is taken back
(00_scope.md R17, R18, 60_exceptions.md R312). -/
inductive Ret where
  | ok (s : State)
  | fail (f : Failure) (s : State)
deriving DecidableEq, Repr

/-- The state a procedure leaves. -/
def Ret.state : Ret → State
  | .ok s => s
  | .fail _ s => s

/-- The failure a procedure met, if any. -/
def Ret.failure : Ret → Option Failure
  | .ok _ => none
  | .fail f _ => some f

/-- Going on after success only: the first failure ends the command (60_exceptions.md R312). -/
def Ret.andThen (r : Ret) (next : State → Ret) : Ret :=
  match r with
  | .ok s => next s
  | .fail f s => .fail f s

/-- A failure value that carries no sink code (00_scope.md R17: 0 when not given). -/
def Failure.plain (k : FailKind) : Failure := { kind := k, code := 0 }

/-! ### The sink -/

/-- The sink stream S (10_state.md R49): the accepted bytes of every transaction, in order. -/
def Tx.accepted (t : Tx) : List Byte := t.offered.take t.taken

/-- The sink stream of a list of transactions. -/
def streamOf (txs : List Tx) : List Byte := txs.flatMap Tx.accepted

/-- The sink stream S (10_state.md R49). -/
def State.stream (s : State) : List Byte := streamOf s.sink.txs

/-- `SinkOracle`: the answer `(k, e)` to a transaction of `n` bytes, with `k ≤ n`
(00_scope.md R14). -/
def Sink.answer (k : Sink) (n : Nat) : Nat × Option Byte :=
  match k.script with
  | a :: _ => (min a.taken n, a.err)
  | [] =>
    match k.onward with
    | .acceptAll => (n, none)
    | .free =>
      let a := Config.sinkAnswer k.txs.length
      (min a.taken n, a.err)

/-- The sink once it has answered `a` to a transaction of the bytes `bs`. -/
def Sink.record (k : Sink) (bs : List Byte) (a : Nat × Option Byte) : Sink :=
  { txs := k.txs ++ [{ offered := bs, taken := a.1, err := a.2 }],
    script := k.script.tail, onward := k.onward }

/-- `SinkWrite(s)`: one transaction; the accepted bytes stay whatever the answer
(20_memory.md R90). -/
def sinkWrite (bs : List Byte) (s : State) : Ret :=
  let a := s.sink.answer bs.length
  let s' := { s with sink := s.sink.record bs a, seq.accepted := s.seq.accepted + a.1 }
  match a.2 with
  | some e => .fail { kind := .sink, code := e } s'
  | none => if a.1 < bs.length then .fail (.plain .shortWrite) s' else .ok s'

/-! ### Free draws -/

/-- The next draw index is used up. -/
def State.drawn (s : State) : State := { s with draws := s.draws + 1 }

/-! ### Completion -/

/-- A count as a 32-bit result register holds it. For a count of 2^32 or more the spec states
no result: a free value (log entry 11). -/
def countWord (n : Nat) : Word :=
  if n < 2 ^ 32 then BitVec.ofNat 32 n else Config.wideCount n

/-- RESULT after a command (30_encoding.md R126). -/
def resultOf : Option Failure → Result
  | none => .ok
  | some f => .failed f.kind

/-- SINK_CODE after a command (10_state.md R35, 00_scope.md R17). -/
def sinkCodeOf : Option Failure → Byte
  | none => 0
  | some f => f.code

/-- Completion of a command, and the one way a failure is reported (there is no trap,
60_exceptions.md R313): RES0, RES1, RESULT and SINK_CODE are written, BUSY is cleared, and
every other change made before stays (60_exceptions.md R312, 70_reset_and_hazards.md R345). -/
def State.complete (s : State) (f : Option Failure) (res0 res1 : Word) : State :=
  { s with
    csr := { s.csr with res0 := res0, res1 := res1, result := resultOf f,
                        sinkCode := sinkCodeOf f }
    seq := .idle }

/-- An illegal command word: it completes at once with E_BAD_COMMAND and changes nothing else
(30_encoding.md R123). -/
def execIllegal (s : State) : Host.Outcome State Fault Refusal :=
  .next (s.complete (some (.plain .badCommand)) 0 0)

/-! ### The block's reset -/

/-- Every piece of block state takes its reset value; IMEM, the sink and the host are not the
block's (10_state.md R53, 70_reset_and_hazards.md R340). -/
def State.blockReset (s : State) : State :=
  { s with
    csr := State.reset.csr, sbw := State.reset.sbw, lzw := State.reset.lzw,
    gct := State.reset.gct, seq := State.reset.seq, inReset := false }

end Sys2Proof.Machine
end

