-- ==== Sys2Proof/Machine/Operands.lean ====
section
/-!
DEFINITION. The operand forms: the ARG0/ARG1 operands of the commands (30_encoding.md R122)
and the IMEM records they point to (30_encoding.md R140–R142, 43_frame_animation.md R270).
-/

namespace Sys2Proof.Machine

/-- ARG0 as an unsigned value (30_encoding.md R120). -/
def State.argA (s : State) : Nat := s.csr.arg0.toNat

/-- ARG1 as an unsigned value (30_encoding.md R120). -/
def State.argB (s : State) : Nat := s.csr.arg1.toNat

/-- The byte operand of SBW_APPEND and LZW_WRITE: ARG1 bytes at ARG0, checked as a whole
(30_encoding.md R122, 20_memory.md R84). -/
def State.byteOperand (s : State) : Option (List Byte) := memBytes s.argA s.argB s

/-- A frame descriptor (30_encoding.md R141); its RSVD field is never used (R143). -/
structure FrameDesc where
  left    : Nat
  top     : Nat
  width   : Nat
  height  : Nat
  stride  : Nat
  pixAddr : Nat
  palAddr : Nat
  delay   : Nat
deriving DecidableEq, Repr

/-- The fields of a 24-byte frame descriptor read as one little-endian value
(30_encoding.md R141). -/
def frameFields (v : Nat) : FrameDesc :=
  { left := natField v 0 16, top := natField v 16 16, width := natField v 32 16,
    height := natField v 48 16, stride := natField v 64 32, pixAddr := natField v 96 32,
    palAddr := natField v 128 32, delay := natField v 160 16 }

/-- `ReadFrame(A, i)`: none where the record is out of range (43_frame_animation.md R270). -/
def readFrame (a i : Nat) (s : State) : Option FrameDesc :=
  (memRead (a + 8 + 24 * i) 24 s).map frameFields

/-- The animation descriptor's header: NFRAMES and LOOPCOUNT (30_encoding.md R140); none where
it is out of range. -/
def readHeader (a : Nat) (s : State) : Option (Nat × Nat) :=
  (memRead a 8 s).map fun v => (natField v 0 32, natField v 32 16)

/-- Row r of a frame: WIDTH bytes at `PIXADDR + r × STRIDE`, the sum exact; none where it is
out of range (43_frame_animation.md R274). -/
def readRow (fd : FrameDesc) (r : Nat) (s : State) : Option (List Byte) :=
  memBytes (fd.pixAddr + r * fd.stride) fd.width s

end Sys2Proof.Machine
end

