-- ==== Sys2Proof/Machine/Sbw.lean ====
section
/-!
DEFINITION. The SBW unit and its commands SBW_OPEN, SBW_APPEND, SBW_CLOSE
(41_subblock_writer.md R200–R212).
-/

namespace Sys2Proof.Machine

/-- `SbwCheck()`: the failure the state check gives, if any (41_subblock_writer.md R200). -/
def sbwCheck (s : State) : Option Failure :=
  match s.sbw.st with
  | .writable => none
  | .failed f => some f
  | .closed => some (.plain .alreadyClosed)

/-- `SbwOpen()` (41_subblock_writer.md R202). -/
def sbwOpen (s : State) : State := { s with sbw := { st := .writable, data := [] } }

/-- The fill count as the byte 0 of the working area (10_state.md R44). -/
def State.fillByte (s : State) : Byte := BitVec.ofNat 8 s.sbw.data.length

/-- A sink transaction of the SBW: its failure is stored, and is sticky
(41_subblock_writer.md R201). -/
def sbwSinkWrite (bs : List Byte) (s : State) : Ret :=
  match sinkWrite bs s with
  | .ok s' => .ok s'
  | .fail f s' => .fail f { s' with sbw.st := .failed f }

/-- `SbwFlushFull()`: the whole unit `[255] ++ 255 data bytes` in one transaction
(41_subblock_writer.md R206). -/
def sbwFlushFull (s : State) : Ret :=
  (sbwSinkWrite (s.fillByte :: s.sbw.data) s).andThen fun s' =>
    .ok { s' with sbw.data := [] }

/-- `SbwPut(b)` (41_subblock_writer.md R204). -/
def sbwPut (b : Byte) (s : State) : Ret :=
  match sbwCheck s with
  | some f => .fail f s
  | none =>
    let s' := { s with sbw.data := s.sbw.data ++ [b] }
    if s'.sbw.data.length = 255 then sbwFlushFull s' else .ok s'

/-- The loop of `SbwAppendBytes`: SbwPut of each byte until one fails
(41_subblock_writer.md R209). -/
def sbwPutAll : List Byte → State → Ret
  | [], s => .ok s
  | b :: bs, s => (sbwPut b s).andThen (sbwPutAll bs)

/-- `SbwAppendBytes(s)`: the count and the result (41_subblock_writer.md R209). The count after
a failure in the loop is the open draw SBW_FAIL_COUNT in 0 .. len(s) (log entry 4). -/
def sbwAppendBytes (bs : List Byte) (s : State) : Nat × Ret :=
  match sbwCheck s with
  | some f => (0, .fail f s)
  | none =>
    match sbwPutAll bs s with
    | .ok s' => (bs.length, .ok s')
    | .fail f s' => (Config.sbwFailCount s'.draws % (bs.length + 1), .fail f s'.drawn)

/-- The bytes `SbwClose` offers: the partial block, if any, and the terminator, in one
transaction (41_subblock_writer.md R207; C1: fill 0 gives the single byte 00). -/
def closeBytes (s : State) : List Byte :=
  if 0 < s.sbw.data.length then s.fillByte :: s.sbw.data ++ [0] else [0]

/-- `SbwClose()` (41_subblock_writer.md R207, R210). -/
def sbwClose (s : State) : Ret :=
  match sbwCheck s with
  | some f => .fail f s
  | none =>
    (sbwSinkWrite (closeBytes s) s).andThen fun s' =>
      .ok { s' with sbw := { st := .closed, data := [] } }

/-- SBW_OPEN (41_subblock_writer.md R203). -/
def execSbwOpen (s : State) : Host.Outcome State Fault Refusal :=
  .next ((sbwOpen s).complete none 0 0)

/-- SBW_APPEND (41_subblock_writer.md R205). -/
def execSbwAppend (s : State) : Host.Outcome State Fault Refusal :=
  match s.byteOperand with
  | none => .next (s.complete (some (.plain .imemRange)) 0 0)
  | some bs =>
    let r := sbwAppendBytes bs s
    .next (r.2.state.complete r.2.failure (countWord r.1) 0)

/-- SBW_CLOSE (41_subblock_writer.md R208). -/
def execSbwClose (s : State) : Host.Outcome State Fault Refusal :=
  let r := sbwClose { s with seq.accepted := 0 }
  .next (r.state.complete r.failure (countWord r.state.seq.accepted) 0)

end Sys2Proof.Machine
end

