-- ==== Sys2Proof/Machine/Lzw.lean ====
section
/-!
DEFINITION. The LZW unit and its commands LZW_OPEN, LZW_WRITE, LZW_CLOSE
(42_lzw.md R230–R246).
-/

namespace Sys2Proof.Machine

/-- The clear code `2^lit` (30_encoding.md R160). -/
def clearCode (lit : Nat) : Code := BitVec.ofNat 12 (2 ^ lit)

/-- The end-of-information code `2^lit + 1` (30_encoding.md R160). -/
def eoiCode (lit : Nat) : Code := BitVec.ofNat 12 (2 ^ lit + 1)

/-- The code of a literal byte (30_encoding.md R160). -/
def literalCode (b : Byte) : Code := b.setWidth 12

/-- `LzwCheckWrite()` (42_lzw.md R230). -/
def lzwCheckWrite (s : State) : Option Failure :=
  match s.lzw.st with
  | .opened => none
  | .failed f => some f
  | .closed => some (.plain .lzwClosed)

/-- `LzwOpen(lit)`: a fresh compressor (42_lzw.md R231). -/
def lzwOpen (lit : Nat) (s : State) : State :=
  { s with lzw :=
    { st := .opened, lit := lit, width := lit + 1, hi := eoiCode lit, saved := none,
      bitbuf := 0, nbits := 0, dict := [] } }

/-- One output byte of the LZW unit: SbwPut at once, counted when it is OK, and its failure
stored as the unit's own (42_lzw.md R232, R246). -/
def lzwPut (b : Byte) (s : State) : Ret :=
  match sbwPut b s with
  | .ok s' => .ok { s' with seq.delivered := s'.seq.delivered + 1 }
  | .fail f s' => .fail f { s' with lzw.st := .failed f }

/-- The loop of `EmitCode`: while 8 or more bits are pending, deliver the low byte. The fuel
bounds the number of rounds (42_lzw.md R233). -/
def drainBits : Nat → State → Ret
  | 0, s => .ok s
  | fuel + 1, s =>
    if 8 ≤ s.lzw.nbits then
      (lzwPut (s.lzw.bitbuf.setWidth 8) s).andThen fun s' =>
        drainBits fuel
          { s' with lzw.bitbuf := s'.lzw.bitbuf >>> 8, lzw.nbits := s'.lzw.nbits - 8 }
    else .ok s

/-- `EmitCode(c)`: code c in the current width, least significant bit first
(42_lzw.md R233, 30_encoding.md R161). -/
def emitCode (c : Code) (s : State) : Ret :=
  let s' := { s with
    lzw.bitbuf := s.lzw.bitbuf ||| (c.setWidth 32 <<< s.lzw.nbits)
    lzw.nbits := s.lzw.nbits + s.lzw.width }
  drainBits s'.lzw.nbits s'

/-- What `IncHi` returns: OK, OUT_OF_CODES, or a failure met inside TableFull
(42_lzw.md R234, R236). -/
inductive HiRet where
  | ok (s : State)
  | outOfCodes (s : State)
  | fail (f : Failure) (s : State)
deriving DecidableEq, Repr

/-- `TableFull()`: the clear code in the current width, then the starting width, counter and
an empty dictionary (42_lzw.md R236). -/
def tableFull (s : State) : HiRet :=
  match emitCode (clearCode s.lzw.lit) s with
  | .fail f s' => .fail f s'
  | .ok s' =>
    .outOfCodes { s' with
      lzw.width := s'.lzw.lit + 1, lzw.hi := eoiCode s'.lzw.lit, lzw.dict := [] }

/-- `IncHi()`: the next code number; the width grows when it reaches `2^width`; the table is
full at 4095 (42_lzw.md R234). -/
def incHi (s : State) : HiRet :=
  let hi := s.lzw.hi + 1
  let s' := { s with
    lzw.hi := hi
    lzw.width := if hi.toNat = 2 ^ s.lzw.width then s.lzw.width + 1 else s.lzw.width }
  if hi.toNat = 4095 then tableFull s' else .ok s'

/-- The code of the string `stem · byte`, if the dictionary has it (10_state.md R47). -/
def dictFind (d : List DictEntry) (stem : Code) (byte : Byte) : Option Code :=
  (d.find? fun e => e.stem == stem && e.byte == byte).map DictEntry.code

/-- The loop of `LzwWrite` with the match so far in `code` (42_lzw.md R237, R235). -/
def lzwLoop : List Byte → Code → State → Ret
  | [], code, s => .ok { s with lzw.saved := some code }
  | x :: xs, code, s =>
    match dictFind s.lzw.dict code x with
    | some longer => lzwLoop xs longer s
    | none =>
      (emitCode code s).andThen fun s' =>
        match incHi s' with
        | .fail f s'' => .fail f s''
        | .outOfCodes s'' => lzwLoop xs (literalCode x) s''
        | .ok s'' =>
          lzwLoop xs (literalCode x) { s'' with
            lzw.dict := { stem := code, byte := x, code := s''.lzw.hi } :: s''.lzw.dict }

/-- `LiteralCheck(s)`: whether every byte is a literal (42_lzw.md R238). -/
def literalsFit (lit : Nat) (bs : List Byte) : Bool :=
  8 ≤ lit || bs.all fun b => decide (b.toNat ≤ 2 ^ lit - 1)

/-- `LzwWrite(s)`: the state check, the empty input, the literal check, then the loop, whose
first code is the saved one or the first literal (42_lzw.md R237, R238). -/
def lzwWrite (bs : List Byte) (s : State) : Ret :=
  match lzwCheckWrite s with
  | some f => .fail f s
  | none =>
    match bs with
    | [] => .ok s
    | b :: rest =>
      if literalsFit s.lzw.lit (b :: rest) then
        match s.lzw.saved with
        | some code => lzwLoop (b :: rest) code s
        | none => lzwLoop rest (literalCode b) s
      else .fail (.plain .lzwLiteral) { s with lzw.st := .failed (.plain .lzwLiteral) }

/-- The first part of `LzwClose`: the saved code, if any, and IncHi, whose OUT_OF_CODES is
ignored (42_lzw.md R239). -/
def lzwFlushSaved (s : State) : Ret :=
  match s.lzw.saved with
  | none => .ok s
  | some code =>
    (emitCode code s).andThen fun s' =>
      match incHi s' with
      | .ok s'' => .ok s''
      | .outOfCodes s'' => .ok s''
      | .fail f s'' => .fail f s''

/-- The last partial byte, its upper bits 0 (42_lzw.md R239, 30_encoding.md R163). -/
def lzwFlushBits (s : State) : Ret :=
  if 0 < s.lzw.nbits then lzwPut (s.lzw.bitbuf.setWidth 8) s else .ok s

/-- The end of `LzwClose`: nothing pending, CLOSED (42_lzw.md R239). -/
def lzwShut (s : State) : State :=
  { s with lzw.bitbuf := 0, lzw.nbits := 0, lzw.saved := none, lzw.st := .closed }

/-- `LzwClose()` (42_lzw.md R239). -/
def lzwClose (s : State) : Ret :=
  match s.lzw.st with
  | .failed f => .fail f s
  | .closed => .ok s
  | .opened =>
    (lzwFlushSaved s).andThen fun s1 =>
      (emitCode (eoiCode s1.lzw.lit) s1).andThen fun s2 =>
        (lzwFlushBits s2).andThen fun s3 => .ok (lzwShut s3)

/-- LZW_OPEN (42_lzw.md R240). -/
def execLzwOpen (s : State) : Host.Outcome State Fault Refusal :=
  if s.argA < 2 ∨ 8 < s.argA then .next (s.complete (some (.plain .badArg)) 0 0)
  else .next ((lzwOpen s.argA s).complete none 0 0)

/-- LZW_WRITE (42_lzw.md R242). -/
def execLzwWrite (s : State) : Host.Outcome State Fault Refusal :=
  match s.byteOperand with
  | none => .next (s.complete (some (.plain .imemRange)) 0 0)
  | some bs =>
    let r := lzwWrite bs { s with seq.delivered := 0 }
    .next (r.state.complete r.failure (countWord r.state.seq.delivered) 0)

/-- LZW_CLOSE (42_lzw.md R245). -/
def execLzwClose (s : State) : Host.Outcome State Fault Refusal :=
  let r := lzwClose { s with seq.delivered := 0 }
  .next (r.state.complete r.failure (countWord r.state.seq.delivered) 0)

end Sys2Proof.Machine
end

