-- ==== Sys2Proof/Machine/Pal.lean ====
section
/-!
DEFINITION. The PAL unit: the bit-width function, the palette encoder, the palette match, and
the commands BITWIDTH and PAL_ENCODE (40_helpers.md R180–R189).
-/

namespace Sys2Proof.Machine

/-- The smallest k from `k` on with `2^k ≥ n`, looking at `fuel` values. -/
def leastPow (n : Nat) : Nat → Nat → Nat
  | 0, k => k
  | fuel + 1, k => if n ≤ 2 ^ k then k else leastPow n fuel (k + 1)

/-- `BW(N) = max(1, k)`, k the smallest natural number with `2^k ≥ N` (40_helpers.md R180).
The 32 values looked at are enough for every 32-bit N. -/
def bitWidth (n : Nat) : Nat := max 1 (leastPow n 32 0)

/-- What `PalEncode` returns (40_helpers.md R183). -/
inductive PalResult where
  | table (bits : Nat) (bytes : List Byte)
  | fail (k : FailKind)
deriving DecidableEq, Repr

/-- The R, G, B bytes of the first `n` entries R, G, B, A; the alpha byte is dropped, and
entries that are not there are zero (40_helpers.md R183, R185). -/
def rgbTable : Nat → List Byte → List Byte
  | 0, _ => []
  | n + 1, r :: g :: b :: _ :: rest => r :: g :: b :: rgbTable n rest
  | n + 1, _ => 0 :: 0 :: 0 :: rgbTable n []

/-- `PalEncode(P)`: the header check, then COUNT = 0, then bits > 8, then the entry array
(40_helpers.md R183, R184). -/
def palEncode (p : Nat) (s : State) : PalResult :=
  match memRead p 4 s with
  | none => .fail .imemRange
  | some hdr =>
    let count := natField hdr 0 16
    if count = 0 then .fail .paletteEmpty
    else
      let bits := bitWidth count
      if 8 < bits then .fail .paletteTooLarge
      else
        match memBytes (p + 4) (4 * count) s with
        | none => .fail .imemRange
        | some ent => .table bits (rgbTable (2 ^ bits) ent)

/-- `GctLoad(r)` (40_helpers.md R186). -/
def gctLoad (r : PalResult) (s : State) : State :=
  match r with
  | .table bits bytes =>
    { s with gct :=
      { ram := bytes ++ List.replicate (gctRamBytes - bytes.length) 0, bits := bits,
        valid := true } }
  | .fail _ => { s with gct := .cleared }

/-- The global colour table as it is written and compared: the first `3 × 2^bits` bytes of the
GCT RAM (40_helpers.md R188, 43_frame_animation.md R285). -/
def State.gctTable (s : State) : List Byte := s.gct.ram.take (3 * 2 ^ s.gct.bits)

/-- `PalMatches(P)`: the failure it raises, if any (40_helpers.md R188). -/
def palMismatch (p : Nat) (s : State) : Option FailKind :=
  match palEncode p s with
  | .fail .imemRange => some .imemRange
  | .fail _ => some .differentPalettes
  | .table _ bytes =>
    if bytes.length = 3 * 2 ^ s.gct.bits ∧ bytes = s.gctTable then none
    else some .differentPalettes

/-- `lit = max(2, bits)` (40_helpers.md R189). -/
def literalWidth (bits : Nat) : Nat := max 2 bits

/-- BITWIDTH (40_helpers.md R182). -/
def execBitwidth (s : State) : Host.Outcome State Fault Refusal :=
  .next (s.complete none (BitVec.ofNat 32 (bitWidth s.argA)) 0)

/-- PAL_ENCODE (40_helpers.md R187). -/
def execPalEncode (s : State) : Host.Outcome State Fault Refusal :=
  let r := palEncode s.argA s
  let s' := gctLoad r s
  match r with
  | .table bits bytes =>
    .next (s'.complete none (BitVec.ofNat 32 bits) (BitVec.ofNat 32 bytes.length))
  | .fail k => .next (s'.complete (some (.plain k)) 0 0)

end Sys2Proof.Machine
end

