-- ==== Sys2Proof/Machine/Ctrl.lean ====
section
/-!
DEFINITION. The CTRL unit: the output items, the frame encoder, and the command ENC_ANIM
(43_frame_animation.md R270–R292, 30_encoding.md R150–R159).
-/

namespace Sys2Proof.Machine

/-- SIGNATURE, "GIF89a" (30_encoding.md R151). -/
def signatureItem : List Byte := [0x47, 0x49, 0x46, 0x38, 0x39, 0x61]

/-- LSD, the logical screen descriptor (30_encoding.md R152). -/
def lsdItem (w h bits : Nat) : List Byte :=
  u16le w ++ u16le h ++ [0xF0 ||| BitVec.ofNat 8 (bits - 1), 0, 0]

/-- LOOPEXT, the Netscape looping application extension (30_encoding.md R154). -/
def loopExtItem (loop : Nat) : List Byte :=
  [0x21, 0xFF, 0x0B, 0x4E, 0x45, 0x54, 0x53, 0x43, 0x41, 0x50, 0x45, 0x32, 0x2E, 0x30,
    0x03, 0x01] ++ u16le loop ++ [0]

/-- GCE, the graphic control extension (30_encoding.md R155). -/
def gceItem (delay : Nat) : List Byte := [0x21, 0xF9, 0x04, 0x00] ++ u16le delay ++ [0, 0]

/-- IMAGEDESC with the lit byte of IMAGEDATA (30_encoding.md R156, R157,
43_frame_animation.md R273). -/
def imageItem (fd : FrameDesc) (lit : Nat) : List Byte :=
  [0x2C] ++ u16le fd.left ++ u16le fd.top ++ u16le fd.width ++ u16le fd.height ++ [0] ++
    [BitVec.ofNat 8 lit]

/-- TRAILER (30_encoding.md R159). -/
def trailerItem : List Byte := [0x3B]

/-- `Emit(s)`: an output item straight to the sink, in one transaction
(43_frame_animation.md R276, R279). -/
def emit (bs : List Byte) (s : State) : Ret := sinkWrite bs s

/-- The canvas over frames i .. i + n − 1, starting from (w, h): the componentwise maximum of
the far corners, computed exactly; none at the first descriptor out of range
(43_frame_animation.md R271, R282). -/
def canvas (a : Nat) : Nat → Nat → Nat × Nat → State → Option (Nat × Nat)
  | 0, _, wh, _ => some wh
  | n + 1, i, wh, s =>
    match readFrame a i s with
    | none => none
    | some fd =>
      canvas a n (i + 1) (max wh.1 (fd.left + fd.width), max wh.2 (fd.top + fd.height)) s

/-- The row loop of `FrameEncode` from row r, n rows left: the range check, then LzwWrite
(43_frame_animation.md R272, R274). -/
def encodeRows (fd : FrameDesc) : Nat → Nat → State → Ret
  | 0, _, s => .ok s
  | n + 1, r, s =>
    match readRow fd r s with
    | none => .fail (.plain .imemRange) s
    | some row => (lzwWrite row s).andThen (encodeRows fd n (r + 1))

/-- `FrameEncode(FD, lit)` (43_frame_animation.md R272, R275). -/
def frameEncode (fd : FrameDesc) (lit : Nat) (s : State) : Ret :=
  (emit (imageItem fd lit) s).andThen fun s1 =>
    (encodeRows fd fd.height 0 (lzwOpen lit (sbwOpen s1))).andThen fun s2 =>
      (lzwClose s2).andThen sbwClose

/-- The GCE of a frame, present exactly when its DELAY is not 0 (43_frame_animation.md R277). -/
def emitGce (delay : Nat) (s : State) : Ret :=
  if delay = 0 then .ok s else emit (gceItem delay) s

/-- The loop extension, present exactly when NFRAMES > 1 (43_frame_animation.md R278, R286). -/
def emitLoopExt (nf loop : Nat) (s : State) : Ret :=
  if 1 < nf then emit (loopExtItem loop) s else .ok s

/-- The palette check of a frame (43_frame_animation.md R287, 40_helpers.md R188). -/
def checkPalette (p : Nat) (s : State) : Ret :=
  match palMismatch p s with
  | none => .ok s
  | some k => .fail (.plain k) s

/-- One round of step 7: the descriptor, its GCE, the palette check, the image block, and
frames_done (43_frame_animation.md R287). -/
def encodeFrame (a i lit : Nat) (s : State) : Ret :=
  match readFrame a i s with
  | none => .fail (.plain .imemRange) s
  | some fd =>
    (emitGce fd.delay s).andThen fun s1 =>
      (checkPalette fd.palAddr s1).andThen fun s2 =>
        (frameEncode fd lit s2).andThen fun s3 =>
          .ok { s3 with seq.framesDone := s3.seq.framesDone + 1 }

/-- Step 7 from frame i, n frames left (43_frame_animation.md R287). -/
def encodeFrames (a lit : Nat) : Nat → Nat → State → Ret
  | 0, _, s => .ok s
  | n + 1, i, s => (encodeFrame a i lit s).andThen (encodeFrames a lit n (i + 1))

/-- Steps 4 to 8, with the global palette loaded (43_frame_animation.md R284–R288). -/
def emitAnimation (a nf loop w h : Nat) (s : State) : Ret :=
  let bits := s.gct.bits
  let lit := literalWidth bits
  (emit signatureItem s).andThen fun s1 =>
    (emit (lsdItem w h bits) s1).andThen fun s2 =>
      (emit s2.gctTable s2).andThen fun s3 =>
        (emitLoopExt nf loop s3).andThen fun s4 =>
          (encodeFrames a lit nf 0 s4).andThen (emit trailerItem)

/-- Step 3: the first frame's palette becomes the global one (43_frame_animation.md R283). -/
def loadGlobalPalette (a : Nat) (s : State) : Ret :=
  match readFrame a 0 s with
  | none => .fail (.plain .imemRange) s
  | some fd =>
    match palEncode fd.palAddr s with
    | .fail k => .fail (.plain k) (gctLoad (.fail k) s)
    | .table bits bytes => .ok (gctLoad (.table bits bytes) s)

/-- The steps of ENC_ANIM for the animation descriptor at `a` (43_frame_animation.md R280–R288). -/
def encodeAnimation (a : Nat) (s : State) : Ret :=
  match readHeader a s with
  | none => .fail (.plain .imemRange) s
  | some (nf, loop) =>
    if nf = 0 then .fail (.plain .zeroImages) s
    else
      match canvas a nf 0 (0, 0) s with
      | none => .fail (.plain .imemRange) s
      | some (w, h) =>
        if 65536 ≤ w ∨ 65536 ≤ h then .fail (.plain .logicalSize) s
        else (loadGlobalPalette a s).andThen (emitAnimation a nf loop w h)

/-- ENC_ANIM, with its completion registers on success and on every failure
(43_frame_animation.md R280, R289). -/
def execEncAnim (s : State) : Host.Outcome State Fault Refusal :=
  let r := encodeAnimation s.argA { s with seq.accepted := 0, seq.framesDone := 0 }
  .next (r.state.complete r.failure (countWord r.state.seq.accepted)
    (countWord r.state.seq.framesDone))

end Sys2Proof.Machine
end

