-- ==== Sys2Proof/Machine/Dispatch.lean ====
section
/-!
DEFINITION. One arm per command (30_encoding.md R121).
-/

namespace Sys2Proof.Machine

def exec (i : Instr) (s : State) : Host.Outcome State Fault Refusal :=
  match i with
  | .bitwidth => Sys2Proof.Machine.execBitwidth s
  | .palEncode => Sys2Proof.Machine.execPalEncode s
  | .sbwOpen => Sys2Proof.Machine.execSbwOpen s
  | .sbwAppend => Sys2Proof.Machine.execSbwAppend s
  | .sbwClose => Sys2Proof.Machine.execSbwClose s
  | .lzwOpen => Sys2Proof.Machine.execLzwOpen s
  | .lzwWrite => Sys2Proof.Machine.execLzwWrite s
  | .lzwClose => Sys2Proof.Machine.execLzwClose s
  | .encAnim => Sys2Proof.Machine.execEncAnim s

end Sys2Proof.Machine
end

