-- ==== Sys2Proof/Machine/Flags.lean ====
section
/-!
DEFINITION. The flags and the views: the numeric result codes, STATUS, the INFO registers,
the GCT window, and the CSR map (10_state.md R33–R43, 30_encoding.md R126).
-/

namespace Sys2Proof.Machine

/-- The numeric code of a failure kind (30_encoding.md R126). -/
def FailKind.num : FailKind → Byte
  | .zeroImages => 0x01
  | .logicalSize => 0x02
  | .paletteTooLarge => 0x03
  | .differentPalettes => 0x04
  | .paletteEmpty => 0x05
  | .sink => 0x06
  | .shortWrite => 0x07
  | .alreadyClosed => 0x08
  | .lzwLiteral => 0x09
  | .lzwClosed => 0x0A
  | .imemRange => 0x0B
  | .badCommand => 0x0C
  | .badArg => 0x0D

/-- The numeric code STATUS.RESULT shows (30_encoding.md R126). -/
def Result.num : Result → Byte
  | .ok => 0x00
  | .failed k => k.num
  | .noneYet => 0xFF

/-- STATUS.BUSY: a command is accepted and not completed (10_state.md R35, R50). -/
def State.busy (s : State) : Bool := s.seq.cmd.isSome

/-- STATUS.SBW_ST (10_state.md R35). -/
def SbwSt.num : SbwSt → BitVec 2
  | .writable => 0
  | .failed _ => 1
  | .closed => 2

/-- STATUS.LZW_ST (10_state.md R35). -/
def LzwSt.num : LzwSt → BitVec 2
  | .opened => 0
  | .failed _ => 1
  | .closed => 2

/-- The stored failure of the sub-block writer, if it is FAILED. -/
def SbwSt.failure : SbwSt → Option Failure
  | .writable => none
  | .failed f => some f
  | .closed => none

/-- The stored failure of the LZW unit, if it is FAILED. -/
def LzwSt.failure : LzwSt → Option Failure
  | .opened => none
  | .failed f => some f
  | .closed => none

/-- FAIL_KIND of an INFO register: 0 unless a failure is stored (10_state.md R38, R40). -/
def failKindField : Option Failure → Byte
  | some f => f.kind.num
  | none => 0

/-- FAIL_CODE of an INFO register: 0 unless a failure is stored (10_state.md R38, R40). -/
def failCodeField : Option Failure → Byte
  | some f => f.code
  | none => 0

/-- STATUS, its fields from bit 31 down (10_state.md R35). -/
def State.statusWord (s : State) : Word :=
  (0 : Byte) ++ s.csr.sinkCode ++ s.csr.result.num ++ (0 : BitVec 2) ++
    BitVec.ofBool s.gct.valid ++ s.lzw.st.num ++ s.sbw.st.num ++ BitVec.ofBool s.busy

/-- SBW_INFO (10_state.md R38). -/
def State.sbwInfo (s : State) : Word :=
  (0 : Byte) ++ failCodeField s.sbw.st.failure ++ failKindField s.sbw.st.failure ++
    BitVec.ofNat 8 s.sbw.data.length

/-- LZW_INFO0 (10_state.md R39). -/
def State.lzwInfo0 (s : State) : Word :=
  (0 : BitVec 4) ++ s.lzw.hi ++ (0 : BitVec 3) ++ BitVec.ofNat 5 s.lzw.nbits ++
    BitVec.ofNat 4 s.lzw.width ++ BitVec.ofNat 4 s.lzw.lit

/-- LZW_INFO1 (10_state.md R40). -/
def State.lzwInfo1 (s : State) : Word :=
  failCodeField s.lzw.st.failure ++ failKindField s.lzw.st.failure ++ (0 : BitVec 3) ++
    BitVec.ofBool s.lzw.saved.isSome ++ s.lzw.saved.getD 0

/-- LZW_INFO2 (10_state.md R41). -/
def State.lzwInfo2 (s : State) : Word := s.lzw.bitbuf

/-- GCT_LEN: the table length when the GCT is valid, else 0 (10_state.md R42). -/
def Gct.len (g : Gct) : Nat := if g.valid then 3 * 2 ^ g.bits else 0

/-- GBITS: 0 when the GCT is not valid (10_state.md R42). -/
def Gct.shownBits (g : Gct) : Nat := if g.valid then g.bits else 0

/-- GCT_INFO (10_state.md R42). -/
def State.gctInfo (s : State) : Word :=
  (0 : BitVec 16) ++ BitVec.ofNat 12 s.gct.len ++ BitVec.ofNat 4 s.gct.shownBits

/-- Word j of the GCT window, byte 4j in bits 7:0 (10_state.md R43). -/
def State.gctWord (s : State) (j : Nat) : Word :=
  s.gct.ram.getD (4 * j + 3) 0 ++ s.gct.ram.getD (4 * j + 2) 0 ++
    s.gct.ram.getD (4 * j + 1) 0 ++ s.gct.ram.getD (4 * j) 0

/-- The registers of the CSR map (10_state.md R33). -/
inductive CsrName where
  | cmd | status | arg0 | arg1 | res0 | res1 | sbwInfo | lzwInfo0 | lzwInfo1 | lzwInfo2
  | gctInfo
  | gctWindow (j : Nat)
  | reserved
deriving DecidableEq, Repr

/-- The CSR map (10_state.md R33); offset bits 1:0 are ignored (20_memory.md R86). -/
def csrAt (off : BitVec 11) : CsrName :=
  match off.toNat / 4 with
  | 0 => .cmd
  | 1 => .status
  | 2 => .arg0
  | 3 => .arg1
  | 4 => .res0
  | 5 => .res1
  | 6 => .sbwInfo
  | 7 => .lzwInfo0
  | 8 => .lzwInfo1
  | 9 => .lzwInfo2
  | 10 => .gctInfo
  | m => if 0x400 / 4 ≤ m ∧ m < 0x700 / 4 then .gctWindow (m - 0x400 / 4) else .reserved

/-- What a host read of a CSR returns while the block is idle (10_state.md R33–R43). Reads have
no side effects (20_memory.md R86). -/
def State.csrValue (s : State) : CsrName → Word
  | .cmd => 0
  | .status => s.statusWord
  | .arg0 => s.csr.arg0
  | .arg1 => s.csr.arg1
  | .res0 => s.csr.res0
  | .res1 => s.csr.res1
  | .sbwInfo => s.sbwInfo
  | .lzwInfo0 => s.lzwInfo0
  | .lzwInfo1 => s.lzwInfo1
  | .lzwInfo2 => s.lzwInfo2
  | .gctInfo => s.gctInfo
  | .gctWindow j => s.gctWord j
  | .reserved => 0

/-- What a host read returns while BUSY = 1: any value, but for STATUS.BUSY, which reads 1
(10_state.md R52; log entry 5). -/
def State.csrValueBusy (s : State) : CsrName → Word
  | .status => Config.busyRead s.draws ||| 1
  | _ => Config.busyRead s.draws

/-- What a host write of a CSR does while the block is idle: CMD issues a command, ARG0 and
ARG1 store, every other write is ignored (10_state.md R33, R34, R36, R43). -/
def State.csrStore (s : State) (v : Word) : CsrName → State
  | .cmd => { s with seq := { Sequencer.idle with cmd := some v } }
  | .arg0 => { s with csr.arg0 := v }
  | .arg1 => { s with csr.arg1 := v }
  | _ => s

end Sys2Proof.Machine
end

