-- ==== Sys2Proof/Machine/HostPort.lean ====
section
/-!
DEFINITION. The host's moves on the block, one a step, and whose turn it is
(10_state.md R30, R34, R52, 20_memory.md R86, 30_encoding.md R127,
70_reset_and_hazards.md R340, R341, R350, R352, R358).
-/

namespace Sys2Proof.Machine

/-- What a step does: the engine runs the command word it has accepted, the host makes a move
(its agenda already shortened), or nothing happens. -/
inductive Turn where
  | engine (w : Word)
  | host (m : HostMove) (s : State)
  | idle
deriving DecidableEq, Repr

/-- The command the engine can run: none while reset is asserted (70_reset_and_hazards.md R340). -/
def State.runnable (s : State) : Option Word := if s.inReset then none else s.seq.cmd

/-- Whose turn it is. The host's next move comes first, so that it can act while BUSY = 1; the
engine has the turn when the host waits or has nothing left to do (30_encoding.md R127, R345). -/
def turn (s : State) : Turn :=
  match s.host.agenda, s.runnable with
  | [], none => .idle
  | [], some w => .engine w
  | .wait :: _, some w => .engine w
  | m :: rest, _ => .host m { s with host.agenda := rest }

/-- Running the accepted command word: the command it decodes to, or E_BAD_COMMAND
(30_encoding.md R121, R123). -/
def runWord (w : Word) (s : State) : Host.Outcome State Fault Refusal :=
  match decode w with
  | .command i => exec i s
  | .illegal _ => execIllegal s

/-- The transactions the running command would issue from here, in order. -/
def pendingTxs (s : State) : List Tx :=
  match s.seq.cmd with
  | none => []
  | some w =>
    match runWord w s with
    | .next t => t.sink.txs.drop s.sink.txs.length
    | .fault _ => []
    | .refused _ => []

/-- The transactions of an abandoned command that reach the sink: those completed, and, of the
one in flight, any prefix of its bytes (70_reset_and_hazards.md R341, U7). -/
def abandonTxs (p : AbandonPoint) (txs : List Tx) : List Tx :=
  txs.take p.completed ++
    match p.inFlight, txs[p.completed]? with
    | some k, some t =>
      [{ offered := t.offered, taken := k % (t.offered.length + 1), err := none }]
    | _, _ => []

/-- Reset asserted while a command runs: the command is abandoned at a point that is a free
draw, and of the transaction in flight the sink holds any prefix (70_reset_and_hazards.md
R341; log entry 6). -/
def abandonCommand (s : State) : State :=
  let p := Config.abandonPoint s.draws
  { s.drawn with
    sink := { s.sink with
      txs := s.sink.txs ++ abandonTxs p (pendingTxs s)
      script := s.sink.script.drop (min p.completed (pendingTxs s).length) }
    seq := .idle }

/-- A host read of a CSR: its value goes to the host, nothing else changes but, while BUSY, the
draw (10_state.md R33, R52, 20_memory.md R86). -/
def hostCsrRead (off : BitVec 11) (s : State) : State :=
  if s.busy then { s.drawn with host.rdata := s.csrValueBusy (csrAt off) }
  else { s with host.rdata := s.csrValue (csrAt off) }

/-- A host write of a CSR: dropped while BUSY (10_state.md R34, 70_reset_and_hazards.md R352). -/
def hostCsrWrite (off : BitVec 11) (v : Word) (s : State) : State :=
  if s.busy then s else s.csrStore v (csrAt off)

/-- A host write of one IMEM byte (20_memory.md R81, 70_reset_and_hazards.md R350). -/
def hostImemWrite (addr : Word) (v : Byte) (s : State) : Host.Outcome State Fault Refusal :=
  if s.busy then .refused .imemWriteWhileBusy
  else if addr.toNat < s.imemSize then
    .next { s with imem := Memory.write s.imem addr.toNat v }
  else .fault (.noSuchImemAddress addr)

/-- Asserting reset: the command running, if any, is abandoned (70_reset_and_hazards.md R340,
R341). Asserting it again changes nothing (log entry 16). -/
def assertReset (s : State) : State :=
  if s.inReset then s
  else if s.busy then { abandonCommand s with inReset := true }
  else { s with inReset := true }

/-- Releasing reset: every piece of block state holds its reset value (70_reset_and_hazards.md
R340). Releasing a reset that is not asserted changes nothing (log entry 16). -/
def releaseReset (s : State) : State := if s.inReset then s.blockReset else s

/-- A host move that touches the block, refused while reset is asserted
(70_reset_and_hazards.md R340, R358). -/
def outsideReset (s : State) (o : Host.Outcome State Fault Refusal) :
    Host.Outcome State Fault Refusal :=
  if s.inReset then .refused .accessInReset else o

/-- A CSR access of 32 bits; a narrower one is refused (20_memory.md R86, U9). -/
def wholeWord (width : AccessWidth) (s : State) : Host.Outcome State Fault Refusal :=
  match width with
  | .w32 => .next s
  | .w16 => .refused .narrowCsrAccess
  | .w8 => .refused .narrowCsrAccess

/-- What a host move does (70_reset_and_hazards.md R358). A WAIT that gets here finds BUSY = 0
and is over (30_encoding.md R127). -/
def hostMove (m : HostMove) (s : State) : Host.Outcome State Fault Refusal :=
  match m with
  | .csrRead width off => outsideReset s (wholeWord width (hostCsrRead off s))
  | .csrWrite width off v => outsideReset s (wholeWord width (hostCsrWrite off v s))
  | .imemWrite addr v => outsideReset s (hostImemWrite addr v s)
  | .wait => outsideReset s (.next s)
  | .resetAssert => .next (assertReset s)
  | .resetRelease => .next (releaseReset s)

end Sys2Proof.Machine
end

