-- ==== Sys2Proof/Machine/Step.lean ====
section
/-!
DEFINITION. One step of the machine: one host move, or one whole command (10_state.md R48,
R52), or nothing.
-/

namespace Sys2Proof.Machine

/-- One step. An idle block with no host move holds its state (70_reset_and_hazards.md R358). -/
def step (s : State) : Host.Outcome State Fault Refusal :=
  match turn s with
  | .engine w => runWord w s
  | .host m s' => hostMove m s'
  | .idle => .next s

/-- `s` with the table row's word accepted as the command to run next and the host waiting for
it, so that the very next step runs it (log entry 8). The block has no instruction memory
(10_state.md R31): a command is a value the host has written to CMD (20_memory.md R97). -/
def State.withFetchWord (s : State) (nbits w : Nat) : State :=
  { s with
    seq := { Sequencer.idle with cmd := some (BitVec.ofNat 32 (w % 2 ^ nbits)) }
    host.agenda := .wait :: s.host.agenda
    inReset := false }

end Sys2Proof.Machine
end

