-- ==== Sys2Proof/Safety.lean ====
section
/-!
DEFINITION. What counts as a sound state of the block (10_state.md R51 and the ranges of
R44–R47), and the vocabulary the statements use: the sub-block format (30_encoding.md R158),
a GIF LZW decoder (42_lzw.md R247), and when an animation in IMEM is a valid one
(60_exceptions.md R315).
-/

namespace Sys2Proof.Machine

/-! ### Sound states -/

/-- A sink code belongs to E_SINK alone (00_scope.md R18). -/
def Failure.sound (f : Failure) : Prop := f.kind ≠ .sink → f.code = 0

/-- IMEM is in its canonical form, inside IMEM_SIZE, which is 1..2^32 (00_scope.md R13,
20_memory.md R81). -/
structure ImemSound (m : Memory) (size : Nat) : Prop where
  canonical : Memory.wf m
  inside    : ∀ c ∈ m, c.1 < size
  positive  : 1 ≤ size
  small     : size ≤ 2 ^ 32

/-- RESULT and SINK_CODE agree: a code is shown only with E_SINK (10_state.md R35). -/
def CsrSound (c : Csr) : Prop := c.result ≠ .failed .sink → c.sinkCode = 0

/-- The sub-block writer (10_state.md R51, 41_subblock_writer.md R201): fill at most 254 when
WRITABLE and 0 when CLOSED; a stored failure is a sink failure. -/
def SbwSound (u : Sbw) : Prop :=
  match u.st with
  | .writable => u.data.length ≤ 254
  | .closed => u.data = []
  | .failed f => u.data.length ≤ 255 ∧ (f.kind = .sink ∨ f.kind = .shortWrite) ∧ f.sound

/-- Two dictionary entries, the first the newer: a larger code and another key
(10_state.md R47). -/
def DictEntry.after (x y : DictEntry) : Prop :=
  y.code.toNat < x.code.toNat ∧ ¬(y.stem = x.stem ∧ y.byte = x.byte)

/-- The LZW unit while OPEN (10_state.md R51, R46, R47). -/
structure LzwOpenSound (u : Lzw) : Prop where
  litLow     : 2 ≤ u.lit
  hiLow      : 2 ^ u.lit + 1 ≤ u.hi.toNat
  hiHigh     : u.hi.toNat ≤ 4094
  widthLow   : u.lit + 1 ≤ u.width
  widthHolds : u.hi.toNat < 2 ^ u.width
  widthLeast : ∀ w, u.lit + 1 ≤ w → u.hi.toNat < 2 ^ w → u.width ≤ w
  fewBits    : u.nbits ≤ 7
  savedCode  : ∀ c, u.saved = some c → c.toNat ≤ u.hi.toNat
  dictCodes  : ∀ e ∈ u.dict, 2 ^ u.lit + 2 ≤ e.code.toNat ∧ e.code.toNat ≤ u.hi.toNat
  dictKeys   : u.dict.Pairwise DictEntry.after

/-- The LZW unit in any state (10_state.md R46, 42_lzw.md R233, R239): the ranges of its
fields hold, no bit stands above the pending ones, nothing is pending once CLOSED. -/
structure LzwSound (u : Lzw) : Prop where
  litHigh    : u.lit ≤ 8
  widthHigh  : u.width ≤ 12
  bitsHigh   : u.nbits ≤ 19
  noStray    : u.bitbuf.toNat < 2 ^ u.nbits
  whileOpen  : u.st = .opened → LzwOpenSound u
  whileShut  : u.st = .closed → u.nbits = 0 ∧ u.saved = none
  whenFailed : ∀ f, u.st = .failed f → f.sound

/-- The global colour table (10_state.md R45): 768 bytes; bits 1..8 and zeros beyond the table
when valid, all zero when not. -/
def GctSound (g : Gct) : Prop :=
  g.ram.length = gctRamBytes ∧
    if g.valid then
      1 ≤ g.bits ∧ g.bits ≤ 8 ∧ ∀ j, 3 * 2 ^ g.bits ≤ j → g.ram.getD j 0 = 0
    else g = .cleared

/-- A transaction is never empty and the sink takes at most what is offered
(00_scope.md R14, 20_memory.md R89). -/
def Tx.sound (t : Tx) : Prop := t.offered ≠ [] ∧ t.taken ≤ t.offered.length

/-- A sound state: what holds between any two steps. -/
structure Inv (s : State) : Prop where
  csr   : CsrSound s.csr
  sbw   : SbwSound s.sbw
  lzw   : LzwSound s.lzw
  gct   : GctSound s.gct
  imem  : ImemSound s.imem s.imemSize
  txs   : ∀ t ∈ s.sink.txs, t.sound
  seq   : s.seq = { Sequencer.idle with cmd := s.seq.cmd }
  reset : s.inReset = true → s.seq.cmd = none

/-- The reset values of 10_state.md R53, of the state that is the block's: what the registers
show, and what the units hold. -/
structure ResetValues (s : State) : Prop where
  released : s.inReset = false
  cmdRead  : s.csrValue .cmd = 0
  status   : s.statusWord = 0x0000FF14
  csr      : s.csr =
    { arg0 := 0, arg1 := 0, res0 := 0, res1 := 0, result := .noneYet, sinkCode := 0 }
  info     : s.sbwInfo = 0 ∧ s.lzwInfo0 = 0 ∧ s.lzwInfo1 = 0 ∧ s.lzwInfo2 = 0 ∧ s.gctInfo = 0
  sbw      : s.sbw = { st := .closed, data := [] }
  lzw      : s.lzw = { st := .closed, lit := 0, width := 0, hi := 0, saved := none, bitbuf := 0,
                       nbits := 0, dict := [] }
  gct      : s.gct.ram.length = 768 ∧ (∀ b ∈ s.gct.ram, b = 0) ∧ s.gct.bits = 0 ∧
               s.gct.valid = false
  idle     : s.busy = false ∧ s.seq = .idle

/-! ### The sink -/

/-- A sink that answers every transaction with `(n, none)` (95_test_vectors.md §0). -/
def Sink.accepting (k : Sink) : Prop := k.script = [] ∧ k.onward = .acceptAll

/-- The same state with a sink that accepts everything (20_memory.md R92). -/
def State.withAcceptAll (s : State) : State :=
  { s with sink := { txs := s.sink.txs, script := [], onward := .acceptAll } }

/-- The failure of a transaction that the sink answers with an error, or, with none, cuts short
(20_memory.md R90). -/
def answerFailure : Option Byte → Failure
  | some c => { kind := .sink, code := c }
  | none => { kind := .shortWrite, code := 0 }

/-- The sink once it has taken each of these transactions whole; none where it does not
(20_memory.md R90). -/
def Sink.takes : List (List Byte) → Sink → Option Sink
  | [], k => some k
  | bs :: rest, k =>
    if k.answer bs.length = (bs.length, none) then
      Sink.takes rest (k.record bs (bs.length, none))
    else none

/-- Of the transactions `offers`, the sink `start` takes those before number `j` whole, which
makes it the sink `k`, and answers `(n, e)` to number `j`, whose bytes are `bs`: an error, or
fewer bytes taken than offered (20_memory.md R90). -/
structure SinkFailsAt (start : Sink) (offers : List (List Byte)) (j : Nat) (bs : List Byte)
    (k : Sink) (n : Nat) (e : Option Byte) : Prop where
  before : start.takes (offers.take j) = some k
  offer  : offers[j]? = some bs
  answer : k.answer bs.length = (n, e)
  fails  : e ≠ none ∨ n < bs.length

/-! ### Sub-blocks -/

/-- Data bytes as sub-blocks (30_encoding.md R158): blocks of 255, a last one of 1..255, and
the terminator. The fuel bounds the number of blocks. -/
def subBlocksFuel : Nat → List Byte → List Byte
  | 0, _ => [0]
  | fuel + 1, bs =>
    if bs = [] then [0]
    else BitVec.ofNat 8 (min 255 bs.length) :: bs.take 255 ++ subBlocksFuel fuel (bs.drop 255)

/-- The sub-block chunk format of 30_encoding.md R158. -/
def subBlocks (bs : List Byte) : List Byte := subBlocksFuel bs.length bs

/-- The whole units of these data bytes, each the length byte 255 and 255 of them
(41_subblock_writer.md R206). -/
def fullUnits (bs : List Byte) : List (List Byte) :=
  (List.range (bs.length / 255)).map fun j => 255 :: (bs.drop (255 * j)).take 255

/-- The data bytes that fill no whole unit. -/
def unitRest (bs : List Byte) : List Byte := bs.drop (255 * (bs.length / 255))

/-- The transaction that closes a writer with these bytes buffered (41_subblock_writer.md R207,
90_conflicts.md C1). -/
def closingBlock (rest : List Byte) : List Byte :=
  if rest = [] then [0] else BitVec.ofNat 8 rest.length :: rest ++ [0]

/-- SbwAppendBytes of several pieces in turn, as long as each succeeds
(41_subblock_writer.md R209, R212). -/
def sbwAppendEach : List (List Byte) → State → Ret
  | [], s => .ok s
  | p :: ps, s => (sbwAppendBytes p s).2.andThen (sbwAppendEach ps)

/-- The data bytes handed to the sub-block writer between `s`, where it was freshly opened, and
`t`, where it is not yet closed: those of the full units written, and those still buffered
(41_subblock_writer.md R206). -/
def sbwPayload (s t : State) : List Byte :=
  (t.sink.txs.drop s.sink.txs.length).flatMap (fun x => x.offered.drop 1) ++ t.sbw.data

/-! ### LZW -/

/-- LzwWrite of several pieces in turn, as long as each succeeds (42_lzw.md R248). -/
def lzwWriteEach : List (List Byte) → State → Ret
  | [], s => .ok s
  | p :: ps, s => (lzwWrite p s).andThen (lzwWriteEach ps)

/-- Both units freshly opened with literal width `lit`, as for every frame
(43_frame_animation.md R272, R275), before a sink that takes everything. -/
def freshUnits (lit : Nat) (s : State) : State := lzwOpen lit (sbwOpen s.withAcceptAll)

/-- The data bytes that LzwWrite of the pieces hands to a fresh writer, the unit still open
(42_lzw.md R237). -/
def lzwPartData (lit : Nat) (pieces : List (List Byte)) (s : State) : List Byte :=
  sbwPayload (freshUnits lit s) (lzwWriteEach pieces (freshUnits lit s)).state

/-- The data bytes that LzwWrite of the pieces and LzwClose hand to a fresh writer
(30_encoding.md R157, 42_lzw.md R237, R239). -/
def lzwData (lit : Nat) (pieces : List (List Byte)) (s : State) : List Byte :=
  sbwPayload (freshUnits lit s)
    ((lzwWriteEach pieces (freshUnits lit s)).andThen lzwClose).state

/-- The `n` low bits of a number, least significant first (30_encoding.md R161). -/
def lowBits : Nat → Nat → List Bool
  | 0, _ => []
  | n + 1, v => (v % 2 == 1) :: lowBits n (v / 2)

/-- The bit string of a byte sequence (30_encoding.md R161). -/
def bitsOfBytes (bs : List Byte) : List Bool := bs.flatMap fun b => lowBits 8 b.toNat

/-- The number a bit string stands for, least significant bit first. -/
def bitsValue : List Bool → Nat
  | [] => 0
  | b :: bs => (if b then 1 else 0) + 2 * bitsValue bs

/-- A GIF LZW decoder (42_lzw.md R247): the entries it has made, oldest first (codes from
`2^lit + 2`); the string of the previous code; and the counter and width it keeps in step with
42_lzw.md R234. -/
structure GifDecoder where
  entries : List (List Byte)
  prev    : Option (List Byte)
  hi      : Nat
  width   : Nat
deriving DecidableEq, Repr

/-- The decoder at the start of a stream and after a clear code. -/
def GifDecoder.fresh (lit : Nat) : GifDecoder :=
  { entries := [], prev := none, hi := 2 ^ lit + 1, width := lit + 1 }

/-- The string of a code: a literal, an entry, or the entry about to be made, which is the
previous string and its own first byte. -/
def GifDecoder.string (d : GifDecoder) (lit c : Nat) : Option (List Byte) :=
  if c < 2 ^ lit then some [BitVec.ofNat 8 c]
  else if c < 2 ^ lit + 2 then none
  else
    match d.entries[c - (2 ^ lit + 2)]?, d.prev with
    | some str, _ => some str
    | none, some p =>
      if c = 2 ^ lit + 2 + d.entries.length then some (p ++ p.take 1) else none
    | none, none => none

/-- The decoder after a code with the string `str`. -/
def GifDecoder.accept (d : GifDecoder) (str : List Byte) : GifDecoder :=
  { entries := match d.prev with
      | some p => d.entries ++ [p ++ str.take 1]
      | none => d.entries
    prev := some str
    hi := d.hi + 1
    width := if d.hi + 1 = 2 ^ d.width then d.width + 1 else d.width }

/-- Decoding a bit string up to the end-of-information code; none where it is no code stream.
The fuel bounds the number of codes. -/
def gifDecodeBits (lit : Nat) : Nat → GifDecoder → List Bool → Option (List Byte)
  | 0, _, _ => none
  | fuel + 1, d, bits =>
    if bits.length < d.width then none
    else
      let c := bitsValue (bits.take d.width)
      let rest := bits.drop d.width
      if c = 2 ^ lit then gifDecodeBits lit fuel (.fresh lit) rest
      else if c = 2 ^ lit + 1 then some []
      else
        match d.string lit c with
        | none => none
        | some str => (gifDecodeBits lit fuel (d.accept str) rest).map (str ++ ·)

/-- What a GIF LZW decoder with minimum code size `lit` reads from data bytes
(42_lzw.md R247). -/
def gifDecode (lit : Nat) (bs : List Byte) : Option (List Byte) :=
  gifDecodeBits lit (8 * bs.length) (.fresh lit) (bitsOfBytes bs)

/-! ### Animations -/

/-- The first `n` rows of a frame, where they are in range (43_frame_animation.md R274). -/
def rowsBefore (fd : FrameDesc) (n : Nat) (s : State) : List (List Byte) :=
  (List.range n).map fun r => (readRow fd r s).getD []

/-- The rows of a frame, all in range (43_frame_animation.md R274). -/
def frameRows (fd : FrameDesc) (s : State) : List (List Byte) := rowsBefore fd fd.height s

/-- The first `n` rows of a frame are in range and made of literals. -/
def RowsFit (s : State) (bits : Nat) (fd : FrameDesc) (n : Nat) : Prop :=
  ∀ r < n, ∃ row, readRow fd r s = some row ∧ literalsFit (literalWidth bits) row = true

/-- A frame that step 7 encodes with no failure of its own (60_exceptions.md R315 item 7): its
palette has the global table `bytes`, and every row is in range and made of literals. -/
structure FrameValid (s : State) (bits : Nat) (bytes : List Byte) (fd : FrameDesc) : Prop where
  palette : palEncode fd.palAddr s = .table bits bytes
  rows    : RowsFit s bits fd fd.height

/-- The animation descriptor at ARG0 passes the checks before any output
(43_frame_animation.md R281–R283, 60_exceptions.md R315 items 1–5): its frames, its loop count,
its canvas and the first palette's table are those given. -/
structure AnimationRead (s : State) (frames : List FrameDesc) (loop w h bits : Nat)
    (bytes : List Byte) : Prop where
  header : readHeader s.argA s = some (frames.length, loop)
  nonempty : frames ≠ []
  read   : ∀ i fd, frames[i]? = some fd → readFrame s.argA i s = some fd
  width  : w = frames.foldl (fun m fd => max m (fd.left + fd.width)) 0
  height : h = frames.foldl (fun m fd => max m (fd.top + fd.height)) 0
  small  : w < 65536 ∧ h < 65536
  first  : ∀ fd, frames[0]? = some fd → palEncode fd.palAddr s = .table bits bytes

/-- The animation descriptor at ARG0 is a valid one: it passes those checks, and every frame is
encoded with no failure of its own (43_frame_animation.md R287). -/
structure AnimationValid (s : State) (frames : List FrameDesc) (loop w h bits : Nat)
    (bytes : List Byte) : Prop extends AnimationRead s frames loop w h bits bytes where
  valid  : ∀ fd ∈ frames, FrameValid s bits bytes fd

/-- The data bytes of each frame: what its rows and LzwClose hand to a fresh writer
(30_encoding.md R157, 43_frame_animation.md R272, R275). -/
def animationDatas (frames : List FrameDesc) (bits : Nat) (s : State) : List (List Byte) :=
  frames.map fun fd => lzwData (literalWidth bits) (frameRows fd s) s

/-- The GCE of a frame in the output, there when its DELAY is not 0 (30_encoding.md R150). -/
def frameGce (fd : FrameDesc) : List Byte := if fd.delay = 0 then [] else gceItem fd.delay

/-- The block of one frame in the output (30_encoding.md R150): its GCE, its image descriptor,
and its data as sub-blocks. -/
def frameBlock (lit : Nat) (fd : FrameDesc) (data : List Byte) : List Byte :=
  frameGce fd ++ imageItem fd lit ++ subBlocks data

/-- The output before the first frame (30_encoding.md R150). -/
def gifHead (frames : List FrameDesc) (loop w h bits : Nat) (bytes : List Byte) : List Byte :=
  signatureItem ++ lsdItem w h bits ++ bytes ++
    (if 1 < frames.length then loopExtItem loop else [])

/-- The blocks of frames in the output, given each frame's LZW data bytes. -/
def gifBlocks (bits : Nat) (frames : List FrameDesc) (datas : List (List Byte)) : List Byte :=
  (List.zipWith (frameBlock (literalWidth bits)) frames datas).flatten

/-- The output grammar of 30_encoding.md R150, given each frame's LZW data bytes. -/
def gifStream (frames : List FrameDesc) (loop w h bits : Nat) (bytes : List Byte)
    (datas : List (List Byte)) : List Byte :=
  gifHead frames loop w h bits bytes ++ gifBlocks bits frames datas ++ trailerItem

/-- Who issues a transaction of ENC_ANIM: CTRL itself (43_frame_animation.md R276), the writer
for a full unit (41_subblock_writer.md R206), or the writer for its close (R207). -/
inductive SinkPart where
  | direct | fullUnit | closing
deriving DecidableEq, Repr

/-- One transaction of ENC_ANIM: its bytes, who issues it, and how many frames are complete
before it. -/
structure SinkItem where
  bytes : List Byte
  part  : SinkPart
  done  : Nat
deriving DecidableEq, Repr

/-- The transactions of frame `i` (43_frame_animation.md R276, R287, 41_subblock_writer.md R206,
R207). -/
def frameItems (lit i : Nat) (fd : FrameDesc) (data : List Byte) : List SinkItem :=
  (if fd.delay = 0 then [] else [{ bytes := gceItem fd.delay, part := .direct, done := i }]) ++
    [{ bytes := imageItem fd lit, part := .direct, done := i }] ++
    (fullUnits data).map (fun u => { bytes := u, part := .fullUnit, done := i }) ++
    [{ bytes := closingBlock (unitRest data), part := .closing, done := i }]

/-- The transactions of the frames from number `i` on. -/
def framesItems (lit : Nat) : Nat → List FrameDesc → List (List Byte) → List SinkItem
  | i, fd :: fds, d :: ds => frameItems lit i fd d ++ framesItems lit (i + 1) fds ds
  | _, _, _ => []

/-- The transactions of ENC_ANIM of a valid animation, in order (43_frame_animation.md R276,
R284–R288). -/
def animationItems (frames : List FrameDesc) (loop w h bits : Nat) (bytes : List Byte)
    (datas : List (List Byte)) : List SinkItem :=
  [{ bytes := signatureItem, part := .direct, done := 0 },
   { bytes := lsdItem w h bits, part := .direct, done := 0 },
   { bytes := bytes, part := .direct, done := 0 }] ++
    (if 1 < frames.length then
      [{ bytes := loopExtItem loop, part := .direct, done := 0 }] else []) ++
    framesItems (literalWidth bits) 0 frames datas ++
    [{ bytes := trailerItem, part := .direct, done := frames.length }]

end Sys2Proof.Machine
end

