-- ==== Sys2Proof/Certificates/Slice0/Obligations.lean ====
section
/-!
DEFINITION. The statements for the provers, each from the numbered rules of the spec its
docstring names. A state `s.complete f a b` is `s` with RES0, RES1, RESULT and SINK_CODE written
and BUSY cleared; an equation `exec i s = .next ({ s with … }.complete …)` is therefore also the
command's frame: every part of the state it does not name is unchanged.
-/

open Sys2Proof Sys2Proof.Machine

/-! ### Encoding -/

/-- 30_encoding.md R121: the nine command words, written out from the opcode map. -/
def Obligations.DecodeOpcodeMap : Prop :=
  decode 0x00000001 = .command .bitwidth ∧ decode 0x00000002 = .command .palEncode ∧
  decode 0x00000003 = .command .sbwOpen ∧ decode 0x00000004 = .command .sbwAppend ∧
  decode 0x00000005 = .command .sbwClose ∧ decode 0x00000006 = .command .lzwOpen ∧
  decode 0x00000007 = .command .lzwWrite ∧ decode 0x00000008 = .command .lzwClose ∧
  decode 0x00000009 = .command .encAnim

/-- 30_encoding.md R120, R121, R127: a word decodes to a command exactly when it is that
command's word; so decode and encode agree on every command, and no other word of the 2^32
selects it. -/
def Obligations.DecodeInvertsEncode : Prop :=
  ∀ (w : Word) (i : Instr), decode w = .command i ↔ w = encode i

/-- 30_encoding.md R123: a word with an unassigned OPC or a nonzero RSVD field completes with
E_BAD_COMMAND and zero results, and nothing else changes; every other word is a command. -/
def Obligations.IllegalWordCompletes : Prop :=
  ∀ w : Word,
    ((w.toNat % 256 = 0 ∨ 10 ≤ w.toNat % 256 ∨ w.toNat / 256 ≠ 0) ↔
      ∃ why, decode w = .illegal why) ∧
    ((w.toNat % 256 = 0 ∨ 10 ≤ w.toNat % 256 ∨ w.toNat / 256 ≠ 0) →
      ∀ s : State, s.inReset = false → s.seq.cmd = some w →
        (s.host.agenda = [] ∨ ∃ rest, s.host.agenda = .wait :: rest) →
        step s = .next { s with
          csr := { s.csr with
            res0 := 0, res1 := 0, result := .failed .badCommand, sinkCode := 0 }
          seq := .idle })

/-! ### Steps, the host and reset -/

/-- 10_state.md R34, R52, 30_encoding.md R127: with the host waiting or done, a step of a busy
block runs the command its word decodes to. -/
def Obligations.StepRunsDecoded : Prop :=
  ∀ (s : State) (w : Word) (i : Instr), s.inReset = false → s.seq.cmd = some w →
    decode w = .command i → i.wellFormed = true →
    (s.host.agenda = [] ∨ ∃ rest, s.host.agenda = .wait :: rest) →
    step s = exec i s

/-- 10_state.md R30, 30_encoding.md R127, 70_reset_and_hazards.md R358: any other move of the
host is a step of its own, taken off its agenda, also while the block is busy; a WAIT is over
once BUSY = 0; an idle block with nothing to do holds its state. The order of moves is the
model's own (log entry 8). -/
def Obligations.StepTakesHostMove : Prop :=
  (∀ (s : State) (m : HostMove) (rest : List HostMove), s.host.agenda = m :: rest →
    (m ≠ .wait ∨ s.seq.cmd = none) → step s = hostMove m { s with host.agenda := rest }) ∧
  (∀ s : State, s.host.agenda = [] → s.seq.cmd = none → step s = .next s) ∧
  (∀ s : State, s.inReset = false → hostMove .wait s = .next s)

/-- 10_state.md R34, 20_memory.md R86: a 32-bit host write at offset 0..3 of an idle block issues
the word as a command, which sets BUSY and changes nothing else. -/
def Obligations.CmdWriteSetsBusy : Prop :=
  ∀ (s : State) (off : BitVec 11) (w : Word), s.inReset = false → s.busy = false →
    s.seq = .idle → off.toNat < 4 →
    ∃ t, hostMove (.csrWrite .w32 off w) s = .next t ∧ t.busy = true ∧ t.seq.cmd = some w ∧
      t = { s with seq := { s.seq with cmd := some w } }

/-- 70_reset_and_hazards.md R352: a CSR write while BUSY = 1 is dropped. -/
def Obligations.BusyWritesDropped : Prop :=
  ∀ (s : State) (off : BitVec 11) (v : Word), s.inReset = false → s.busy = true →
    hostMove (.csrWrite .w32 off v) s = .next s

/-- While BUSY = 1 a STATUS read has bit 0 set, a read changes nothing of the block, and host
writes are dropped (10_state.md R52). The model's choice (log entry 5): what else is read, where
R52 says "unspecified", is the free value `Config.busyRead` at the draw counter, that of CMD too,
whose read of 0 (R34) is not followed while BUSY = 1. -/
def Obligations.BusyReads : Prop :=
  ∀ (s : State) (off : BitVec 11), s.inReset = false → s.busy = true →
    (∃ t, hostMove (.csrRead .w32 off) s = .next t ∧
      t = { s with host := { s.host with rdata := t.host.rdata }, draws := s.draws + 1 } ∧
      (off.toNat / 4 = 1 → t.host.rdata.toNat % 2 = 1 ∧
        ∀ j, 0 < j → t.host.rdata.getLsbD j = (Config.busyRead s.draws).getLsbD j) ∧
      (off.toNat / 4 ≠ 1 → t.host.rdata = Config.busyRead s.draws)) ∧
    ∀ v, hostMove (.csrWrite .w32 off v) s = .next s

/-- 10_state.md R36: ARG0 and ARG1 take every bit written and read it back, are 0 at reset, and
no command writes them. -/
def Obligations.ArgRegistersHold : Prop :=
  (∀ (s : State) (v : Word), s.inReset = false → s.busy = false →
    (∃ t u, hostMove (.csrWrite .w32 0x008 v) s = .next t ∧ t = { s with csr.arg0 := v } ∧
      hostMove (.csrRead .w32 0x008) t = .next u ∧ u.host.rdata = v) ∧
    (∃ t u, hostMove (.csrWrite .w32 0x00C v) s = .next t ∧ t = { s with csr.arg1 := v } ∧
      hostMove (.csrRead .w32 0x00C) t = .next u ∧ u.host.rdata = v)) ∧
  State.reset.csr.arg0 = 0 ∧ State.reset.csr.arg1 = 0 ∧
  ∀ (i : Instr) (s t : State), exec i s = .next t →
    t.csr.arg0 = s.csr.arg0 ∧ t.csr.arg1 = s.csr.arg1

/-- 20_memory.md R86: offset bits 1:0 are ignored; 8- and 16-bit accesses are refused; a read of
an idle block has no side effect; and the only write that does more than store is CMD's. The rows
of the CSR map (10_state.md R33, R34, R36, R37) for CMD, which reads 0, the operands and the
results; STATUS stands in StatusFields, the INFO registers in InfoRegisterFields, the GCT window
and the reserved offsets in GctWindowAndReserved. -/
def Obligations.CsrAccessRules : Prop :=
  (∀ (s : State) (x y : BitVec 11) (a : AccessWidth) (v : Word), x.toNat / 4 = y.toNat / 4 →
    hostMove (.csrRead a x) s = hostMove (.csrRead a y) s ∧
      hostMove (.csrWrite a x v) s = hostMove (.csrWrite a y v) s) ∧
  (∀ (s : State) (x : BitVec 11) (a : AccessWidth) (v : Word), s.inReset = false → a ≠ .w32 →
    hostMove (.csrRead a x) s = .refused .narrowCsrAccess ∧
      hostMove (.csrWrite a x v) s = .refused .narrowCsrAccess) ∧
  (∀ (s : State) (x : BitVec 11), s.inReset = false → s.busy = false →
    ∃ v, hostMove (.csrRead .w32 x) s = .next { s with host.rdata := v } ∧
      (x.toNat / 4 = 0 → v = 0) ∧ (x.toNat / 4 = 2 → v = s.csr.arg0) ∧
      (x.toNat / 4 = 3 → v = s.csr.arg1) ∧ (x.toNat / 4 = 4 → v = s.csr.res0) ∧
      (x.toNat / 4 = 5 → v = s.csr.res1)) ∧
  (∀ (s : State) (x : BitVec 11) (v : Word), s.inReset = false → s.busy = false →
    4 ≤ x.toNat → ∃ a b, hostMove (.csrWrite .w32 x v) s =
      .next { s with csr := { s.csr with arg0 := a, arg1 := b } })

/-- 10_state.md R43: the GCT window shows the GCT RAM, byte 4j lowest; the reserved offsets read
0; writes to reserved offsets and to read-only registers are ignored. -/
def Obligations.GctWindowAndReserved : Prop :=
  ∀ (s : State) (off : BitVec 11), s.inReset = false → s.busy = false →
    (∀ j < 192, off.toNat = 0x400 + 4 * j → ∃ t, hostMove (.csrRead .w32 off) s = .next t ∧
      t.host.rdata.toNat = (s.gct.ram.getD (4 * j) 0).toNat +
        (s.gct.ram.getD (4 * j + 1) 0).toNat * 2 ^ 8 +
        (s.gct.ram.getD (4 * j + 2) 0).toNat * 2 ^ 16 +
        (s.gct.ram.getD (4 * j + 3) 0).toNat * 2 ^ 24) ∧
    ((0x02C ≤ off.toNat ∧ off.toNat ≤ 0x3FF ∨ 0x700 ≤ off.toNat) →
      ∃ t, hostMove (.csrRead .w32 off) s = .next t ∧ t.host.rdata = 0) ∧
    ((4 ≤ off.toNat ∧ off.toNat < 8 ∨ 0x010 ≤ off.toNat) →
      ∀ v, hostMove (.csrWrite .w32 off v) s = .next s)

/-- 10_state.md R33, R35, 30_encoding.md R126: what a host read of STATUS, offsets 4..7, returns
while the block is idle, its fields, the codes RESULT shows, and its reset value. -/
def Obligations.StatusFields : Prop :=
  (∀ (s : State) (x : BitVec 11), s.inReset = false → s.busy = false → x.toNat / 4 = 1 →
    hostMove (.csrRead .w32 x) s = .next { s with host.rdata := s.statusWord }) ∧
  (∀ s : State,
    s.statusWord.extractLsb' 0 1 = BitVec.ofBool s.busy ∧
    s.statusWord.extractLsb' 1 2 = (match s.sbw.st with
      | .writable => 0 | .failed _ => 1 | .closed => 2) ∧
    s.statusWord.extractLsb' 3 2 = (match s.lzw.st with
      | .opened => 0 | .failed _ => 1 | .closed => 2) ∧
    s.statusWord.extractLsb' 5 1 = BitVec.ofBool s.gct.valid ∧
    s.statusWord.extractLsb' 6 2 = 0 ∧
    s.statusWord.extractLsb' 8 8 = (match s.csr.result with
      | .ok => 0x00
      | .failed .zeroImages => 0x01
      | .failed .logicalSize => 0x02
      | .failed .paletteTooLarge => 0x03
      | .failed .differentPalettes => 0x04
      | .failed .paletteEmpty => 0x05
      | .failed .sink => 0x06
      | .failed .shortWrite => 0x07
      | .failed .alreadyClosed => 0x08
      | .failed .lzwLiteral => 0x09
      | .failed .lzwClosed => 0x0A
      | .failed .imemRange => 0x0B
      | .failed .badCommand => 0x0C
      | .failed .badArg => 0x0D
      | .noneYet => 0xFF) ∧
    s.statusWord.extractLsb' 16 8 = s.csr.sinkCode ∧
    s.statusWord.extractLsb' 24 8 = 0) ∧
  State.reset.statusWord = 0x0000FF14 ∧
  (∀ s : State, Inv s → s.csr.result ≠ .failed .sink → s.csr.sinkCode = 0)

/-- 10_state.md R33, R38–R42, 30_encoding.md R126: what a host read of SBW_INFO, LZW_INFO0,
LZW_INFO1, LZW_INFO2 and GCT_INFO, offsets 0x018 to 0x02B, returns while the block is idle, their
fields in a sound state, the numbers of the failure kinds FAIL_KIND shows, and the reset
value 0. -/
def Obligations.InfoRegisterFields : Prop :=
  (∀ (s : State) (x : BitVec 11), s.inReset = false → s.busy = false →
    6 ≤ x.toNat / 4 → x.toNat / 4 ≤ 10 →
    ∃ v, hostMove (.csrRead .w32 x) s = .next { s with host.rdata := v } ∧
      (x.toNat / 4 = 6 → v = s.sbwInfo) ∧ (x.toNat / 4 = 7 → v = s.lzwInfo0) ∧
      (x.toNat / 4 = 8 → v = s.lzwInfo1) ∧ (x.toNat / 4 = 9 → v = s.lzwInfo2) ∧
      (x.toNat / 4 = 10 → v = s.gctInfo)) ∧
  (∀ s : State, Inv s →
    s.sbwInfo.toNat = s.sbw.data.length +
      2 ^ 8 * (match s.sbw.st with
        | .failed f => f.kind.num.toNat | .writable => 0 | .closed => 0) +
      2 ^ 16 * (match s.sbw.st with
        | .failed f => f.code.toNat | .writable => 0 | .closed => 0) ∧
    s.lzwInfo0.toNat = s.lzw.lit + 2 ^ 4 * s.lzw.width + 2 ^ 8 * s.lzw.nbits +
      2 ^ 16 * s.lzw.hi.toNat ∧
    s.lzwInfo1.toNat =
      (match s.lzw.saved with | some c => c.toNat + 2 ^ 12 | none => 0) +
      2 ^ 16 * (match s.lzw.st with
        | .failed f => f.kind.num.toNat | .opened => 0 | .closed => 0) +
      2 ^ 24 * (match s.lzw.st with
        | .failed f => f.code.toNat | .opened => 0 | .closed => 0) ∧
    s.lzwInfo2 = s.lzw.bitbuf ∧
    s.gctInfo.toNat =
      (if s.gct.valid then s.gct.bits + 2 ^ 4 * (3 * 2 ^ s.gct.bits) else 0)) ∧
  ([.zeroImages, .logicalSize, .paletteTooLarge, .differentPalettes, .paletteEmpty, .sink,
    .shortWrite, .alreadyClosed, .lzwLiteral, .lzwClosed, .imemRange, .badCommand,
    .badArg].map FailKind.num =
    [0x01, 0x02, 0x03, 0x04, 0x05, 0x06, 0x07, 0x08, 0x09, 0x0A, 0x0B, 0x0C, 0x0D]) ∧
  State.reset.sbwInfo = 0 ∧ State.reset.lzwInfo0 = 0 ∧ State.reset.lzwInfo1 = 0 ∧
  State.reset.lzwInfo2 = 0 ∧ State.reset.gctInfo = 0

/-- 10_state.md R53, 70_reset_and_hazards.md R340: what every piece of state holds once reset is
released, whatever it held before; IMEM and the sink are not reset by the block. State.reset
agrees. -/
def Obligations.ResetRelease : Prop :=
  ResetValues State.reset ∧
  ∀ s : State, s.inReset = true → ∃ t, hostMove .resetRelease s = .next t ∧ ResetValues t ∧
    t.imem = s.imem ∧ t.imemSize = s.imemSize ∧ t.sink = s.sink ∧ t.stream = s.stream ∧
    t.host = s.host

/-- 70_reset_and_hazards.md R341: reset during a command abandons it; the sink keeps the
completed transactions and a prefix of the one in flight, and no later one is issued; after
release nothing of the command is left in the block. How many were complete, and which prefix,
is a free value (log entry 6). -/
def Obligations.ResetDuringCommand : Prop :=
  ∀ (s : State) (w : Word), s.inReset = false → s.seq.cmd = some w →
    ∃ t u, hostMove .resetAssert s = .next t ∧ t.inReset = true ∧ t.seq = .idle ∧
      (∃ n pre, t.stream = s.stream ++ streamOf ((pendingTxs s).take n) ++ pre ∧
        (pre = [] ∨ ∃ x, (pendingTxs s)[n]? = some x ∧ pre <+: x.offered)) ∧
      hostMove .resetRelease t = .next u ∧ u.stream = t.stream ∧ u.csr = State.reset.csr ∧
      u.sbw = State.reset.sbw ∧ u.lzw = State.reset.lzw ∧ u.gct = State.reset.gct ∧
      u.seq = State.reset.seq ∧ u.inReset = false ∧ u.imem = s.imem

/-- While reset is asserted the block does nothing, and a host access stops by name. The
refusals are the model's choice (log entry 9): 70_reset_and_hazards.md R340 and R358 say only
that the host must not access the block then, and not what an access does. -/
def Obligations.AccessInResetRefused : Prop :=
  ∀ s : State, s.inReset = true →
    (∀ a x, hostMove (.csrRead a x) s = .refused .accessInReset) ∧
    (∀ a x v, hostMove (.csrWrite a x v) s = .refused .accessInReset) ∧
    (∀ a v, hostMove (.imemWrite a v) s = .refused .accessInReset) ∧
    hostMove .wait s = .refused .accessInReset ∧
    (s.host.agenda = [] → step s = .next s)

/-- 20_memory.md R81, 70_reset_and_hazards.md R350: a host write of an existing IMEM byte of an
idle block is read back, leaves every other byte and everything else alone, and keeps IMEM
canonical; a byte that does not exist faults; a write while BUSY = 1 is refused. The fault is
the model's own name for it (log entry 10). -/
def Obligations.HostImemWrite : Prop :=
  ∀ (s : State) (a : Word) (v : Byte), s.inReset = false →
    (s.busy = true → hostMove (.imemWrite a v) s = .refused .imemWriteWhileBusy) ∧
    (s.busy = false → s.imemSize ≤ a.toNat →
      hostMove (.imemWrite a v) s = .fault (.noSuchImemAddress a)) ∧
    (s.busy = false → a.toNat < s.imemSize → Memory.wf s.imem →
      ∃ m, hostMove (.imemWrite a v) s = .next { s with imem := m } ∧ Memory.wf m ∧
        ∀ b, Memory.read m b = if b = a.toNat then v else Memory.read s.imem b)

/-! ### All commands -/

/-- Every command completes, from every state, with BUSY cleared and a result code; none faults
and none is refused. That the sink answers every transaction, which 70_reset_and_hazards.md R345
and R361 make the condition of completion, is the model's choice (log entry 14): a sink that
never answers is left out of the model. -/
def Obligations.EveryCommandCompletes : Prop :=
  ∀ (i : Instr) (s : State), ∃ t, exec i s = .next t ∧ t.busy = false ∧ t.seq = .idle ∧
    t.csr.result ≠ .noneYet

/-- 20_memory.md R81, 10_state.md R36, R49: the frame common to all commands. No command writes
ARG0, ARG1, any byte of IMEM, or anything of the host; bytes the sink has taken stay, and
transactions are only added. Two fields it names are the model's own and no state of the spec:
`onward`, what the sink does after its script (log entry 3), and `draws`, which counts the
model's free values and of which only SBW_APPEND's count takes one (log entry 4); the sink's
answers, which the spec calls draws too, are not counted there. -/
def Obligations.CommandsLeaveInputs : Prop :=
  ∀ (i : Instr) (s t : State), exec i s = .next t →
    t.csr.arg0 = s.csr.arg0 ∧ t.csr.arg1 = s.csr.arg1 ∧
    (∀ a, Memory.read t.imem a = Memory.read s.imem a) ∧ t.imem = s.imem ∧
    t.imemSize = s.imemSize ∧ t.host = s.host ∧ t.inReset = s.inReset ∧
    t.sink.onward = s.sink.onward ∧ (i ≠ .sbwAppend → t.draws = s.draws) ∧
    (∃ new, t.sink.txs = s.sink.txs ++ new) ∧ s.stream <+: t.stream

/-- 10_state.md R50, 40_helpers.md R182, R187, 41_subblock_writer.md R203, R205, R208,
42_lzw.md R240, R242, R245: the units a command leaves alone. -/
def Obligations.UnitFrames : Prop :=
  ∀ (s t : State),
    (exec .bitwidth s = .next t →
      t.sbw = s.sbw ∧ t.lzw = s.lzw ∧ t.gct = s.gct ∧ t.sink = s.sink) ∧
    (exec .palEncode s = .next t → t.sbw = s.sbw ∧ t.lzw = s.lzw ∧ t.sink = s.sink) ∧
    (exec .sbwOpen s = .next t → t.lzw = s.lzw ∧ t.gct = s.gct ∧ t.sink = s.sink) ∧
    (exec .sbwAppend s = .next t → t.lzw = s.lzw ∧ t.gct = s.gct) ∧
    (exec .sbwClose s = .next t → t.lzw = s.lzw ∧ t.gct = s.gct) ∧
    (exec .lzwOpen s = .next t → t.sbw = s.sbw ∧ t.gct = s.gct ∧ t.sink = s.sink) ∧
    (exec .lzwWrite s = .next t → t.gct = s.gct) ∧
    (exec .lzwClose s = .next t → t.gct = s.gct)

/-- 20_memory.md R92: for any command and any answers of the sink, the bytes the command appends
are a prefix of those it appends from the same state when every transaction is answered
`(n, none)`. -/
def Obligations.AppendedBytesArePrefix : Prop :=
  ∀ (i : Instr) (s t u : State), exec i s = .next t → exec i s.withAcceptAll = .next u →
    ∃ a b, t.stream = s.stream ++ a ∧ u.stream = s.stream ++ b ∧ a <+: b

/-- 10_state.md R51 and the ranges of R44–R47, 20_memory.md R81, R89: every step keeps a sound
state, whatever the host and the sink do. -/
def Obligations.StepKeepsSoundState : Prop :=
  ∀ s t : State, Inv s → step s = .next t → Inv t

/-- 10_state.md R53: the state after reset is sound. IMEM_SIZE there is the model's choice
(log entry 1). -/
def Obligations.ResetStateSound : Prop := Inv State.reset

/-- 20_memory.md R90: one sink transaction. -/
def Obligations.SinkTransaction : Prop :=
  ∀ (bs : List Byte) (s : State), bs ≠ [] →
    ∃ k e t, s.sink.answer bs.length = (k, e) ∧ k ≤ bs.length ∧
      t.stream = s.stream ++ bs.take k ∧ t.seq.accepted = s.seq.accepted + k ∧
      t = { s with sink := t.sink, seq := { s.seq with accepted := t.seq.accepted } } ∧
      t.sink.txs = s.sink.txs ++ [{ offered := bs, taken := k, err := e }] ∧
      (∀ c, e = some c → sinkWrite bs s = .fail { kind := .sink, code := c } t) ∧
      (e = none → k < bs.length → sinkWrite bs s = .fail { kind := .shortWrite, code := 0 } t) ∧
      (e = none → k = bs.length → sinkWrite bs s = .ok t)

/-- 20_memory.md R84, R85, R83: a read of `n` bytes at any address is in range exactly when
`addr + n ≤ IMEM_SIZE`, with no wrap-around, and gives the bytes in address order; read as a
number, the byte at the lower address is the less significant. -/
def Obligations.ImemReads : Prop :=
  ∀ (a n : Nat) (s : State),
    (memBytes a n s = none ↔ s.imemSize < a + n) ∧
    (memRead a n s = none ↔ s.imemSize < a + n) ∧
    (∀ bs, memBytes a n s = some bs → bs.length = n ∧
      ∀ k < n, bs[k]? = some (Memory.read s.imem (a + k))) ∧
    (∀ v, memRead a n s = some v → v < 256 ^ n ∧
      ∀ k < n, v / 256 ^ k % 256 = (Memory.read s.imem (a + k)).toNat)

/-- 30_encoding.md R140, R141, 43_frame_animation.md R270: the fields of an animation header and
of frame descriptor i, byte by byte, wherever the whole record is in range. -/
def Obligations.DescriptorFields : Prop :=
  ∀ (a i : Nat) (s : State) (u16 u32 : Nat → Nat),
    (∀ x, u16 x = (Memory.read s.imem x).toNat + 256 * (Memory.read s.imem (x + 1)).toNat) →
    (∀ x, u32 x = u16 x + 65536 * u16 (x + 2)) →
    (a + 8 ≤ s.imemSize → readHeader a s = some (u32 a, u16 (a + 4))) ∧
    (s.imemSize < a + 8 → readHeader a s = none) ∧
    (s.imemSize < a + 8 + 24 * i + 24 → readFrame a i s = none) ∧
    (∀ f, f = a + 8 + 24 * i → f + 24 ≤ s.imemSize → readFrame a i s = some
      { left := u16 f, top := u16 (f + 2), width := u16 (f + 4), height := u16 (f + 6),
        stride := u32 (f + 8), pixAddr := u32 (f + 12), palAddr := u32 (f + 16),
        delay := u16 (f + 20) })

/-! ### BITWIDTH and PAL_ENCODE -/

/-- 40_helpers.md R180, R182: RES0 is `max(1, k)`, k the least with `2^k ≥ ARG0`; nothing else
but the completion registers changes. -/
def Obligations.BitwidthResult : Prop :=
  ∀ s : State, ∃ k : Nat,
    s.csr.arg0.toNat ≤ 2 ^ k ∧ (∀ j, s.csr.arg0.toNat ≤ 2 ^ j → k ≤ j) ∧ max 1 k < 2 ^ 32 ∧
    exec .bitwidth s = .next { s with
      csr := { s.csr with
        res0 := BitVec.ofNat 32 (max 1 k), res1 := 0, result := .ok, sinkCode := 0 }
      seq := .idle }

/-- 40_helpers.md R183, R185, R186, R187: a palette of 1..256 colours in range is loaded: its
R, G, B bytes in order, zeros beyond, bits the least width that holds COUNT. -/
def Obligations.PalEncodeLoadsTable : Prop :=
  ∀ (s : State) (count : Nat),
    s.argA + 4 ≤ s.imemSize →
    count = (Memory.read s.imem s.argA).toNat + 256 * (Memory.read s.imem (s.argA + 1)).toNat →
    1 ≤ count → count ≤ 256 → s.argA + 4 + 4 * count ≤ s.imemSize →
    ∃ (g : Gct),
      exec .palEncode s = .next (State.complete { s with gct := g } none
        (BitVec.ofNat 32 g.bits) (BitVec.ofNat 32 (3 * 2 ^ g.bits))) ∧
      g.valid = true ∧ 1 ≤ g.bits ∧ g.bits ≤ 8 ∧ count ≤ 2 ^ g.bits ∧
      (∀ j, 1 ≤ j → count ≤ 2 ^ j → g.bits ≤ j) ∧ g.ram.length = 768 ∧
      ∀ j c, c < 3 → g.ram.getD (3 * j + c) 0 =
        if j < count then Memory.read s.imem (s.argA + 4 + 4 * j + c) else 0

/-- 40_helpers.md R184, R186, R187: the failures of PAL_ENCODE in their order; each clears the
GCT, gives zero results and touches nothing else. -/
def Obligations.PalEncodeFailures : Prop :=
  ∀ (s : State) (count : Nat) (k : FailKind),
    count = (Memory.read s.imem s.argA).toNat + 256 * (Memory.read s.imem (s.argA + 1)).toNat →
    (if s.imemSize < s.argA + 4 then some FailKind.imemRange
      else if count = 0 then some .paletteEmpty
      else if 256 < count then some .paletteTooLarge
      else if s.imemSize < s.argA + 4 + 4 * count then some .imemRange
      else none) = some k →
    exec .palEncode s = .next { s with
      csr := { s.csr with res0 := 0, res1 := 0, result := .failed k, sinkCode := 0 }
      gct := { ram := List.replicate 768 0, bits := 0, valid := false }
      seq := .idle }

/-- 40_helpers.md R188: the palette check of a frame compares the encoded table with the global
one; an empty or too large palette differs; an IMEM failure stays E_IMEM_RANGE; the check
changes nothing. -/
def Obligations.PaletteCheck : Prop :=
  ∀ (p : Nat) (s : State),
    (∀ bits bytes, palEncode p s = .table bits bytes →
      (bytes = s.gctTable ∧ bytes.length = 3 * 2 ^ s.gct.bits → checkPalette p s = .ok s) ∧
      (¬(bytes = s.gctTable ∧ bytes.length = 3 * 2 ^ s.gct.bits) →
        checkPalette p s = .fail { kind := .differentPalettes, code := 0 } s)) ∧
    (∀ k, palEncode p s = .fail k → checkPalette p s =
      .fail { kind := if k = .imemRange then .imemRange else .differentPalettes, code := 0 } s) ∧
    (∀ k, palEncode p s = .fail k →
      k = .imemRange ∨ k = .paletteEmpty ∨ k = .paletteTooLarge)

/-! ### The sub-block writer -/

/-- 41_subblock_writer.md R202, R203: SBW_OPEN from any state. -/
def Obligations.SbwOpenResult : Prop :=
  ∀ s : State, exec .sbwOpen s = .next { s with
    csr := { s.csr with res0 := 0, res1 := 0, result := .ok, sinkCode := 0 }
    sbw := { st := .writable, data := [] }
    seq := .idle }

/-- 41_subblock_writer.md R204, R205: an append that leaves fewer than 255 bytes buffered
buffers them in order and touches no sink. -/
def Obligations.SbwAppendBuffers : Prop :=
  ∀ (s : State), s.sbw.st = .writable → s.argA + s.argB ≤ s.imemSize →
    s.sbw.data.length + s.argB ≤ 254 →
    exec .sbwAppend s = .next { s with
      csr := { s.csr with res0 := s.csr.arg1, res1 := 0, result := .ok, sinkCode := 0 }
      sbw := { st := .writable,
               data := s.sbw.data ++
                 (List.range s.argB).map fun i => Memory.read s.imem (s.argA + i) }
      seq := .idle }

/-- 41_subblock_writer.md R204–R206, R209: against a sink that accepts everything, an append
writes one 256-byte unit for every 255 bytes and keeps the rest buffered. -/
def Obligations.SbwAppendFlushesUnits : Prop :=
  ∀ (s : State) (all : List Byte), s.sbw.st = .writable → s.sbw.data.length ≤ 254 →
    s.sink.accepting → s.argA + s.argB ≤ s.imemSize →
    all = s.sbw.data ++ ((List.range s.argB).map fun i => Memory.read s.imem (s.argA + i)) →
    exec .sbwAppend s = .next { s with
      csr := { s.csr with res0 := s.csr.arg1, res1 := 0, result := .ok, sinkCode := 0 }
      sbw := { st := .writable, data := all.drop (255 * (all.length / 255)) }
      sink := { s.sink with
        txs := s.sink.txs ++ (List.range (all.length / 255)).map fun j =>
          { offered := 255 :: (all.drop (255 * j)).take 255, taken := 256, err := none } }
      seq := .idle }

/-- 41_subblock_writer.md R205, R200, R211, 60_exceptions.md R316, R317: where SBW_APPEND stops
with none of its effect, in order: operand out of range, stored failure, CLOSED. -/
def Obligations.SbwAppendRejections : Prop :=
  ∀ s : State,
    (s.imemSize < s.argA + s.argB → exec .sbwAppend s =
      .next (s.complete (some { kind := .imemRange, code := 0 }) 0 0)) ∧
    (s.argA + s.argB ≤ s.imemSize → ∀ f, s.sbw.st = .failed f →
      exec .sbwAppend s = .next (s.complete (some f) 0 0)) ∧
    (s.argA + s.argB ≤ s.imemSize → s.sbw.st = .closed → exec .sbwAppend s =
      .next (s.complete (some { kind := .alreadyClosed, code := 0 }) 0 0))

/-- 41_subblock_writer.md R201, R204, R206, R209, vector S11: an SBW_APPEND whose j-th full unit
the sink does not take whole completes with that failure; the units before it and the bytes the
sink accepted of it stay in the sink, the writer is FAILED with that failure and fill 255, and
the bytes after that unit are not buffered. RES0 of any failed SBW_APPEND is some count in
0 .. ARG1: which one is a free value (U3, log entry 4), which takes a draw of the model's. -/
def Obligations.SbwAppendFailCount : Prop :=
  (∀ s t : State, exec .sbwAppend s = .next t → t.csr.result ≠ .ok →
    t.csr.res0.toNat ≤ s.csr.arg1.toNat ∧ t.csr.res1 = 0) ∧
  ∀ (s : State) (all unit : List Byte) (j n : Nat) (k : Sink) (e : Option Byte),
    s.sbw.st = .writable → s.sbw.data.length ≤ 254 → s.argA + s.argB ≤ s.imemSize →
    all = s.sbw.data ++ ((List.range s.argB).map fun i => Memory.read s.imem (s.argA + i)) →
    SinkFailsAt s.sink (fullUnits all) j unit k n e →
    ∃ (count : Word) (t : State), exec .sbwAppend s = .next t ∧
      count.toNat ≤ s.csr.arg1.toNat ∧
      t = { s with
        csr := { s.csr with res0 := count, res1 := 0,
                            result := .failed (answerFailure e).kind,
                            sinkCode := (answerFailure e).code }
        sbw := { st := .failed (answerFailure e), data := (all.drop (255 * j)).take 255 }
        sink := k.record unit (n, e)
        seq := .idle
        draws := s.draws + 1 } ∧
      t.sbw.data.length = 255 ∧
      t.stream = s.stream ++ ((fullUnits all).take j).flatten ++ unit.take n

/-- 41_subblock_writer.md R207, R208, 90_conflicts.md C1: a close against a sink that accepts
everything: one transaction of the partial block and the terminator, or of the terminator
alone; then CLOSED. -/
def Obligations.SbwCloseResult : Prop :=
  ∀ (s : State) (out : List Byte), s.sbw.st = .writable → s.sbw.data.length ≤ 254 →
    s.sink.accepting →
    out = (if s.sbw.data = [] then [0]
      else BitVec.ofNat 8 s.sbw.data.length :: s.sbw.data ++ [0]) →
    exec .sbwClose s = .next { s with
      csr := { s.csr with
        res0 := BitVec.ofNat 32 out.length, res1 := 0, result := .ok, sinkCode := 0 }
      sbw := { st := .closed, data := [] }
      sink := { s.sink with
        txs := s.sink.txs ++ [{ offered := out, taken := out.length, err := none }] }
      seq := .idle }

/-- 41_subblock_writer.md R201, R207, R208: a close the sink does not take whole leaves the
writer FAILED with that failure, the accepted bytes in the sink, and their number in RES0. -/
def Obligations.SbwCloseSinkFailure : Prop :=
  ∀ (s : State) (k : Nat) (e : Option Byte), s.sbw.st = .writable →
    s.sbw.data.length ≤ 254 → s.sink.answer (closeBytes s).length = (k, e) →
    (e ≠ none ∨ k < (closeBytes s).length) →
    ∃ t f, exec .sbwClose s = .next t ∧
      f = (match e with
        | some c => { kind := .sink, code := c }
        | none => { kind := .shortWrite, code := 0 }) ∧
      t.sbw = { st := .failed f, data := s.sbw.data } ∧ t.csr.result = .failed f.kind ∧
      t.csr.sinkCode = f.code ∧ t.csr.res0 = BitVec.ofNat 32 k ∧ t.csr.res1 = 0 ∧
      t.stream = s.stream ++ (closeBytes s).take k

/-- 60_exceptions.md R317, 41_subblock_writer.md R201, R210: a FAILED writer returns its stored
failure to SBW_CLOSE too, and a CLOSED one E_ALREADY_CLOSED; neither touches the sink. -/
def Obligations.SbwCloseRejections : Prop :=
  ∀ s : State,
    (∀ f, s.sbw.st = .failed f → exec .sbwClose s = .next (s.complete (some f) 0 0)) ∧
    (s.sbw.st = .closed → exec .sbwClose s =
      .next (s.complete (some { kind := .alreadyClosed, code := 0 }) 0 0))

/-- 41_subblock_writer.md R212: whatever the pieces, a freshly opened writer that takes them all
and is closed writes exactly the sub-blocks of their bytes. -/
def Obligations.SbwFraming : Prop :=
  ∀ (s t u : State) (pieces : List (List Byte)),
    sbwAppendEach pieces (sbwOpen s) = .ok t → sbwClose t = .ok u →
    u.stream = s.stream ++ subBlocks pieces.flatten

/-! ### The LZW unit -/

/-- 42_lzw.md R231, R240: LZW_OPEN with ARG0 in 2..8 makes a fresh unit; any other ARG0 is
E_BAD_ARG with the unit unchanged. -/
def Obligations.LzwOpenResult : Prop :=
  ∀ s : State,
    (2 ≤ s.argA → s.argA ≤ 8 → ∃ hi : Code, hi.toNat = 2 ^ s.argA + 1 ∧
      exec .lzwOpen s = .next { s with
        csr := { s.csr with res0 := 0, res1 := 0, result := .ok, sinkCode := 0 }
        lzw := { st := .opened, lit := s.argA, width := s.argA + 1, hi := hi, saved := none,
                 bitbuf := 0, nbits := 0, dict := [] }
        seq := .idle }) ∧
    (s.argA < 2 ∨ 8 < s.argA → exec .lzwOpen s = .next { s with
      csr := { s.csr with res0 := 0, res1 := 0, result := .failed .badArg, sinkCode := 0 }
      seq := .idle })

/-- 42_lzw.md R237, R235, R234, R236, R242: LZW_WRITE of literals in range by an OPEN unit, with
the writer WRITABLE and a sink that accepts everything, succeeds; RES0 is the number of bytes the
unit handed to the writer. And one byte `x` after a saved code, from which every longer write is
made (LzwSplitIndependence): if the dictionary has the saved code followed by `x`, that entry's
code becomes the saved one, and nothing is emitted; if not, the saved code is emitted in the
current width, `x` is saved, and the counter goes up with the entry added, or, at 4094, the clear
code is emitted too and the code space starts again. A count of 2^32 or more is a free value in
RES0 (log entry 11). -/
def Obligations.LzwWriteResult : Prop :=
  (∀ (s : State) (bs : List Byte), s.lzw.st = .opened → s.sbw.st = .writable →
    s.sink.accepting → s.argA + s.argB ≤ s.imemSize →
    bs = ((List.range s.argB).map fun i => Memory.read s.imem (s.argA + i)) →
    (∀ b ∈ bs, s.lzw.lit < 8 → b.toNat < 2 ^ s.lzw.lit) →
    ∃ t n, exec .lzwWrite s = .next t ∧ t.csr.result = .ok ∧ t.csr.sinkCode = 0 ∧
      t.csr.res0 = countWord n ∧ t.csr.res1 = 0 ∧
      (sbwPayload s t).length = s.sbw.data.length + n ∧ s.sbw.data <+: sbwPayload s t ∧
      t.lzw.st = .opened ∧ t.lzw.lit = s.lzw.lit ∧ t.sbw.st = .writable ∧
      (bs = [] → t.lzw = s.lzw ∧ t.sbw = s.sbw ∧ t.sink = s.sink) ∧
      (bs ≠ [] → ∃ code, t.lzw.saved = some code)) ∧
  ∀ (s : State) (code : Code) (x : Byte), LzwSound s.lzw → s.lzw.st = .opened →
    s.lzw.saved = some code → s.argB = 1 → s.argA + 1 ≤ s.imemSize →
    x = Memory.read s.imem s.argA → (s.lzw.lit < 8 → x.toNat < 2 ^ s.lzw.lit) →
    (∀ d ∈ s.lzw.dict, d.stem = code → d.byte = x → exec .lzwWrite s = .next { s with
      csr := { s.csr with res0 := 0, res1 := 0, result := .ok, sinkCode := 0 }
      lzw := { s.lzw with saved := some d.code }
      seq := .idle }) ∧
    ((∀ d ∈ s.lzw.dict, d.stem = code → d.byte ≠ x) → s.sbw.st = .writable →
      s.sink.accepting →
      ∃ t n, exec .lzwWrite s = .next t ∧ t.csr.result = .ok ∧ t.csr.sinkCode = 0 ∧
        t.csr.res0 = countWord n ∧ t.csr.res1 = 0 ∧
        (sbwPayload s t).length = s.sbw.data.length + n ∧ t.sbw.st = .writable ∧
        t.lzw.st = .opened ∧ t.lzw.lit = s.lzw.lit ∧ t.lzw.saved = some (x.setWidth 12) ∧
        t.lzw.nbits ≤ 7 ∧
        bitsOfBytes (sbwPayload s t) ++ lowBits t.lzw.nbits t.lzw.bitbuf.toNat =
          bitsOfBytes s.sbw.data ++ lowBits s.lzw.nbits s.lzw.bitbuf.toNat ++
            lowBits s.lzw.width code.toNat ++
            (if s.lzw.hi.toNat = 4094 then lowBits 12 (2 ^ s.lzw.lit) else []) ∧
        (s.lzw.hi.toNat ≤ 4093 → t.lzw.hi.toNat = s.lzw.hi.toNat + 1 ∧
          t.lzw.width = (if s.lzw.hi.toNat + 1 = 2 ^ s.lzw.width then s.lzw.width + 1
            else s.lzw.width) ∧
          ∀ d, d ∈ t.lzw.dict ↔
            d = { stem := code, byte := x, code := t.lzw.hi } ∨ d ∈ s.lzw.dict) ∧
        (s.lzw.hi.toNat = 4094 → t.lzw.hi.toNat = 2 ^ s.lzw.lit + 1 ∧
          t.lzw.width = s.lzw.lit + 1 ∧ t.lzw.dict = []))

/-- 42_lzw.md R237, R242: the first byte after LZW_OPEN becomes the saved code and emits
nothing. -/
def Obligations.LzwWriteFirstByte : Prop :=
  ∀ s : State, s.lzw.st = .opened → s.lzw.saved = none → s.argB = 1 →
    s.argA + 1 ≤ s.imemSize →
    (s.lzw.lit < 8 → (Memory.read s.imem s.argA).toNat < 2 ^ s.lzw.lit) →
    exec .lzwWrite s = .next { s with
      csr := { s.csr with res0 := 0, res1 := 0, result := .ok, sinkCode := 0 }
      lzw := { s.lzw with saved := some ((Memory.read s.imem s.argA).setWidth 12) }
      seq := .idle }

/-- 60_exceptions.md R316, 42_lzw.md R230, R238, R242: where LZW_WRITE stops with nothing
compressed, in order: operand out of range, stored failure, CLOSED; the empty write succeeds;
then the literal check, which makes the unit FAILED. -/
def Obligations.LzwWriteRejections : Prop :=
  ∀ (s : State) (bs : List Byte),
    (s.imemSize < s.argA + s.argB → exec .lzwWrite s =
      .next (s.complete (some { kind := .imemRange, code := 0 }) 0 0)) ∧
    (s.byteOperand = some bs →
      (∀ f, s.lzw.st = .failed f → exec .lzwWrite s = .next (s.complete (some f) 0 0)) ∧
      (s.lzw.st = .closed → exec .lzwWrite s =
        .next (s.complete (some { kind := .lzwClosed, code := 0 }) 0 0)) ∧
      (s.lzw.st = .opened → bs = [] → exec .lzwWrite s = .next (s.complete none 0 0)) ∧
      (s.lzw.st = .opened → s.lzw.lit < 8 → (∃ b ∈ bs, 2 ^ s.lzw.lit ≤ b.toNat) →
        exec .lzwWrite s = .next (State.complete
          { s with lzw.st := .failed { kind := .lzwLiteral, code := 0 } }
          (some { kind := .lzwLiteral, code := 0 }) 0 0)))

/-- 42_lzw.md R239, R234, R236, R245, 30_encoding.md R163, R164: LZW_CLOSE of an OPEN unit, with
the writer WRITABLE and a sink that accepts everything, succeeds: CLOSED, nothing pending, and
RES0 the number of bytes handed to the writer, at least one. To the bit string handed over and
pending it adds the saved code, if any, in the current width, then the clear code in 12 bits if
that code's IncHi fills the table, then the end-of-information code in the width then current,
then zero bits up to a whole byte, and no other code. A count of 2^32 or more is a free value in
RES0 (log entry 11). -/
def Obligations.LzwCloseResult : Prop :=
  ∀ s : State, LzwSound s.lzw → s.lzw.st = .opened → s.sbw.st = .writable →
    s.sink.accepting →
    ∃ t n pad, exec .lzwClose s = .next t ∧ t.csr.result = .ok ∧ t.csr.sinkCode = 0 ∧
      t.csr.res0 = countWord n ∧ t.csr.res1 = 0 ∧ 1 ≤ n ∧
      (sbwPayload s t).length = s.sbw.data.length + n ∧ s.sbw.data <+: sbwPayload s t ∧
      t.lzw.st = .closed ∧ t.lzw.saved = none ∧ t.lzw.nbits = 0 ∧ t.lzw.bitbuf = 0 ∧
      t.lzw.lit = s.lzw.lit ∧ t.sbw.st = .writable ∧
      t.lzw.hi.toNat = (if s.lzw.saved = none then s.lzw.hi.toNat
        else if s.lzw.hi.toNat = 4094 then 2 ^ s.lzw.lit + 1 else s.lzw.hi.toNat + 1) ∧
      t.lzw.width = (if s.lzw.saved = none then s.lzw.width
        else if s.lzw.hi.toNat = 4094 then s.lzw.lit + 1
        else if s.lzw.hi.toNat + 1 = 2 ^ s.lzw.width then s.lzw.width + 1 else s.lzw.width) ∧
      pad < 8 ∧
      bitsOfBytes (sbwPayload s t) =
        bitsOfBytes s.sbw.data ++ lowBits s.lzw.nbits s.lzw.bitbuf.toNat ++
          (match s.lzw.saved with
            | none => []
            | some code => lowBits s.lzw.width code.toNat ++
                (if s.lzw.hi.toNat = 4094 then lowBits 12 (2 ^ s.lzw.lit) else [])) ++
          lowBits t.lzw.width (2 ^ s.lzw.lit + 1) ++ List.replicate pad false

/-- With nothing written since LZW_OPEN, LZW_CLOSE hands over the end-of-information code alone,
`2^lit + 1` in `lit + 1` bits: for lit 2..7 one byte, as 42_lzw.md R239 and R245 say. That it is
two bytes for lit 8, whose code has 9 bits, is the model's choice (log entry 15, DEDUCED): it
follows the pseudocode of R239 and R233 against the words "one byte" of R239 and R245, which
name no exception. -/
def Obligations.LzwCloseFresh : Prop :=
  ∀ (s : State) (lit : Nat), 2 ≤ lit → lit ≤ 8 → s.sbw.st = .writable →
    s.sbw.data.length ≤ 252 →
    s.lzw = { st := .opened, lit := lit, width := lit + 1, hi := BitVec.ofNat 12 (2 ^ lit + 1),
              saved := none, bitbuf := 0, nbits := 0, dict := [] } →
    exec .lzwClose s = .next { s with
      csr := { s.csr with res0 := if lit = 8 then 2 else 1, res1 := 0, result := .ok,
                          sinkCode := 0 }
      sbw := { s.sbw with
        data := s.sbw.data ++ if lit = 8 then [1, 1] else [BitVec.ofNat 8 (2 ^ lit + 1)] }
      lzw := { s.lzw with st := .closed }
      seq := .idle }

/-- 42_lzw.md R239, R245: a FAILED unit returns its stored failure to LZW_CLOSE; a CLOSED one
succeeds with no output. -/
def Obligations.LzwCloseNotOpen : Prop :=
  ∀ s : State,
    (∀ f, s.lzw.st = .failed f → exec .lzwClose s = .next (s.complete (some f) 0 0)) ∧
    (s.lzw.st = .closed → exec .lzwClose s = .next (s.complete none 0 0))

/-- 42_lzw.md R233, 30_encoding.md R161: a code emitted without failure adds exactly its `width`
bits, least significant first, to the bit string handed over and pending. -/
def Obligations.EmitCodeAppendsBits : Prop :=
  ∀ (c : Code) (s t : State), s.lzw.nbits ≤ 7 → s.lzw.bitbuf.toNat < 2 ^ s.lzw.nbits →
    s.lzw.width ≤ 12 → c.toNat < 2 ^ s.lzw.width → emitCode c s = .ok t →
    t.lzw.nbits ≤ 7 ∧ t.lzw.bitbuf.toNat < 2 ^ t.lzw.nbits ∧
    bitsOfBytes (sbwPayload s t) ++ lowBits t.lzw.nbits t.lzw.bitbuf.toNat =
      bitsOfBytes s.sbw.data ++ lowBits s.lzw.nbits s.lzw.bitbuf.toNat ++
        lowBits s.lzw.width c.toNat

/-- 42_lzw.md R234, R236, 30_encoding.md R162: the counter goes up by one and the width is the
least that holds it; at 4095 the clear code goes out in 12 bits and the code space starts
again. -/
def Obligations.NextCodeRule : Prop :=
  ∀ s : State, LzwSound s.lzw → s.lzw.st = .opened →
    (s.lzw.hi.toNat ≤ 4093 → ∃ t, incHi s = .ok t ∧
      t = { s with lzw := { s.lzw with hi := t.lzw.hi, width := t.lzw.width } } ∧
      t.lzw.hi.toNat = s.lzw.hi.toNat + 1 ∧ s.lzw.lit + 1 ≤ t.lzw.width ∧
      t.lzw.hi.toNat < 2 ^ t.lzw.width ∧ t.lzw.width ≤ 12 ∧
      ∀ w, s.lzw.lit + 1 ≤ w → t.lzw.hi.toNat < 2 ^ w → t.lzw.width ≤ w) ∧
    (s.lzw.hi.toNat = 4094 → s.sbw.st = .writable → s.sink.accepting →
      ∃ t, incHi s = .outOfCodes t ∧ t.lzw.width = s.lzw.lit + 1 ∧
        t.lzw.hi.toNat = 2 ^ s.lzw.lit + 1 ∧ t.lzw.dict = [] ∧
        bitsOfBytes (sbwPayload s t) ++ lowBits t.lzw.nbits t.lzw.bitbuf.toNat =
          bitsOfBytes s.sbw.data ++ lowBits s.lzw.nbits s.lzw.bitbuf.toNat ++
            lowBits 12 (2 ^ s.lzw.lit))

/-- 42_lzw.md R248: if every LzwWrite succeeds, the same bytes written at once succeed too and
leave the same state, so that LzwClose delivers the same bytes. -/
def Obligations.LzwSplitIndependence : Prop :=
  ∀ (lit : Nat) (pieces : List (List Byte)) (s t : State), 2 ≤ lit → lit ≤ 8 →
    lzwWriteEach pieces (lzwOpen lit s) = .ok t →
    lzwWrite pieces.flatten (lzwOpen lit s) = .ok t ∧
    (lzwWrite pieces.flatten (lzwOpen lit s)).andThen lzwClose =
      (lzwWriteEach pieces (lzwOpen lit s)).andThen lzwClose

/-- 42_lzw.md R247: the code stream of one LzwOpen … LzwClose decodes to exactly the bytes
written, in order. -/
def Obligations.LzwRoundTrip : Prop :=
  ∀ (lit : Nat) (pieces : List (List Byte)) (s t u : State), 2 ≤ lit → lit ≤ 8 →
    s.sbw.st = .writable → s.sbw.data = [] →
    lzwWriteEach pieces (lzwOpen lit s) = .ok t → lzwClose t = .ok u →
    gifDecode lit (sbwPayload s u) = some pieces.flatten

/-- 70_reset_and_hazards.md R351, 42_lzw.md R246: LZW_CLOSE of an OPEN unit after the writer was
closed fails with E_ALREADY_CLOSED, leaves the unit FAILED with it, and writes nothing. -/
def Obligations.FinishBeforeClose : Prop :=
  ∀ s : State, LzwSound s.lzw → s.lzw.st = .opened → s.sbw.st = .closed →
    ∃ t, exec .lzwClose s = .next t ∧ t.csr.result = .failed .alreadyClosed ∧
      t.csr.sinkCode = 0 ∧ t.csr.res0 = 0 ∧ t.csr.res1 = 0 ∧
      t.lzw.st = .failed { kind := .alreadyClosed, code := 0 } ∧ t.sbw = s.sbw ∧
      t.sink = s.sink

/-- 42_lzw.md R246, R242, R245: a failure of SbwPut becomes the LZW unit's own stored failure,
and LZW_WRITE and LZW_CLOSE return it in RESULT and SINK_CODE, with RES0 the bytes delivered
before it. A writer that is FAILED or CLOSED fails the first byte of any output, which is known
from the same command with a fresh writer and a sink that takes everything; a WRITABLE one fails
where the sink fails a full unit of the same command's output, its last byte not delivered. A
count of 2^32 or more is a free value in RES0 (log entry 11). -/
def Obligations.LzwStoresWriterFailure : Prop :=
  (∀ (b : Byte) (s t : State) (f : Failure), sbwPut b s = .fail f t →
    lzwPut b s = .fail f { t with lzw.st := .failed f } ∧ t.lzw = s.lzw ∧
      t.seq.delivered = s.seq.delivered) ∧
  (∀ (i : Instr) (s fresh u : State) (f : Failure), (i = .lzwWrite ∨ i = .lzwClose) →
    (s.sbw.st = .failed f ∨ s.sbw.st = .closed ∧ f = { kind := .alreadyClosed, code := 0 }) →
    fresh = sbwOpen s.withAcceptAll → exec i fresh = .next u → sbwPayload fresh u ≠ [] →
    ∃ t, exec i s = .next t ∧ t.csr.result = .failed f.kind ∧ t.csr.sinkCode = f.code ∧
      t.csr.res0 = 0 ∧ t.csr.res1 = 0 ∧ t.lzw.st = .failed f ∧ t.sbw = s.sbw ∧
      t.sink = s.sink) ∧
  (∀ (i : Instr) (s u : State) (new : List Tx) (j n : Nat) (unit : List Byte) (k : Sink)
      (e : Option Byte), (i = .lzwWrite ∨ i = .lzwClose) →
    s.sbw.st = .writable → s.sbw.data.length ≤ 254 → exec i s.withAcceptAll = .next u →
    u.sink.txs = s.sink.txs ++ new →
    SinkFailsAt s.sink (new.map Tx.offered) j unit k n e →
    ∃ t, exec i s = .next t ∧ t.csr.result = .failed (answerFailure e).kind ∧
      t.csr.sinkCode = (answerFailure e).code ∧
      t.csr.res0 = countWord (255 * (j + 1) - 1 - s.sbw.data.length) ∧ t.csr.res1 = 0 ∧
      t.lzw.st = .failed (answerFailure e) ∧
      t.sbw = { st := .failed (answerFailure e), data := unit.drop 1 } ∧
      t.sink = k.record unit (n, e)) ∧
  ∀ (s : State) (f : Failure), LzwSound s.lzw → s.lzw.st = .opened → s.sbw.st = .failed f →
    ∃ t, exec .lzwClose s = .next t ∧ t.csr.result = .failed f.kind ∧
      t.csr.sinkCode = f.code ∧ t.csr.res0 = 0 ∧ t.csr.res1 = 0 ∧ t.lzw.st = .failed f ∧
      t.sbw = s.sbw ∧ t.sink = s.sink

/-! ### ENC_ANIM -/

/-- 43_frame_animation.md R281–R283, 60_exceptions.md R315 items 1–5: the failures before any
output, in their order; no byte is written, and only a palette failure touches a unit: it
clears the GCT. -/
def Obligations.EncAnimPreflight : Prop :=
  ∀ s : State,
    (readHeader s.argA s = none → exec .encAnim s =
      .next (s.complete (some { kind := .imemRange, code := 0 }) 0 0)) ∧
    (∀ loop, readHeader s.argA s = some (0, loop) → exec .encAnim s =
      .next (s.complete (some { kind := .zeroImages, code := 0 }) 0 0)) ∧
    (∀ nf loop i, readHeader s.argA s = some (nf, loop) → i < nf →
      readFrame s.argA i s = none → exec .encAnim s =
        .next (s.complete (some { kind := .imemRange, code := 0 }) 0 0)) ∧
    (∀ (frames : List FrameDesc) loop, frames ≠ [] →
      readHeader s.argA s = some (frames.length, loop) →
      (∀ i fd, frames[i]? = some fd → readFrame s.argA i s = some fd) →
      ((∃ fd ∈ frames, 65536 ≤ fd.left + fd.width ∨ 65536 ≤ fd.top + fd.height) →
        exec .encAnim s =
          .next (s.complete (some { kind := .logicalSize, code := 0 }) 0 0)) ∧
      ((∀ fd ∈ frames, fd.left + fd.width < 65536 ∧ fd.top + fd.height < 65536) →
        ∀ fd k, frames[0]? = some fd → palEncode fd.palAddr s = .fail k →
          exec .encAnim s = .next (State.complete
            { s with gct := { ram := List.replicate 768 0, bits := 0, valid := false } }
            (some { kind := k, code := 0 }) 0 0)))

/-- A valid animation against a sink that accepts everything is written whole, in the grammar of
30_encoding.md R150–R159, the loop extension exactly when NFRAMES > 1 and a GCE exactly where
DELAY is not 0 (43_frame_animation.md R284–R288), the data of each frame being what its rows and
LzwClose hand to a fresh writer (R157); RES0 is the length and RES1 the number of frames (R289);
both units end CLOSED (70_reset_and_hazards.md R354) and the GCT holds the first frame's palette
(R283). That RES0 is a free value for a length of 2^32 or more is the model's choice (log
entry 11). -/
def Obligations.EncAnimWritesStream : Prop :=
  ∀ (s : State) (frames : List FrameDesc) (loop w h bits : Nat) (bytes out : List Byte),
    AnimationValid s frames loop w h bits bytes → s.sink.accepting →
    out = gifStream frames loop w h bits bytes (animationDatas frames bits s) →
    ∃ t, exec .encAnim s = .next t ∧ t.stream = s.stream ++ out ∧
      t.csr.result = .ok ∧ t.csr.sinkCode = 0 ∧ t.csr.res0 = countWord out.length ∧
      t.csr.res1 = BitVec.ofNat 32 frames.length ∧ t.sbw = { st := .closed, data := [] } ∧
      t.lzw.st = .closed ∧ t.gct.valid = true ∧ t.gct.bits = bits ∧ t.gctTable = bytes

/-- 43_frame_animation.md R292: the length of the stream of a valid animation, from its bits, its
frames and the number of LZW bytes of each. -/
def Obligations.EncAnimLength : Prop :=
  ∀ (s : State) (frames : List FrameDesc) (loop w h bits : Nat) (bytes : List Byte),
    AnimationValid s frames loop w h bits bytes → s.sink.accepting →
    ∃ t, exec .encAnim s = .next t ∧ t.csr.result = .ok ∧
      t.stream.length = s.stream.length +
        (6 + 7 + 3 * 2 ^ bits + (if 1 < frames.length then 19 else 0) +
          (List.zipWith (fun (fd : FrameDesc) (d : List Byte) =>
            (if fd.delay = 0 then 0 else 8) + 11 + d.length + (d.length + 254) / 255 + 1)
            frames (animationDatas frames bits s)).sum + 1)

/-- 42_lzw.md R247, 95_test_vectors.md W8: the stream of a valid animation decodes back: each
frame's data bytes decode to its rows in order. -/
def Obligations.EncAnimRoundTrip : Prop :=
  ∀ (s : State) (frames : List FrameDesc) (loop w h bits : Nat) (bytes : List Byte),
    AnimationValid s frames loop w h bits bytes → s.sink.accepting →
    ∃ t datas, exec .encAnim s = .next t ∧ datas = animationDatas frames bits s ∧
      t.stream = s.stream ++ gifStream frames loop w h bits bytes datas ∧
      ∀ (i : Nat) (fd : FrameDesc), frames[i]? = some fd → ∃ d, datas[i]? = some d ∧
        gifDecode (literalWidth bits) d = some (frameRows fd s).flatten

/-- 43_frame_animation.md R289: on success and on every failure RES0 is the number of bytes the
sink accepted during the command and RES1 is frames_done, the count that every frame whose
SbwClose succeeded adds one to (R287) and that the steps of R280 leave in the sequencer: 0 where
the header cannot be read, at most NFRAMES, and NFRAMES on success. A count of 2^32 or more is a
free value in RES0 (log entry 11). -/
def Obligations.EncAnimCounts : Prop :=
  ∀ s t : State, exec .encAnim s = .next t →
    ∃ new k, t.stream = s.stream ++ new ∧ t.csr.res0 = countWord new.length ∧
      t.csr.res1 = BitVec.ofNat 32 k ∧
      k = (encodeAnimation s.argA
        { s with seq.accepted := 0, seq.framesDone := 0 }).state.seq.framesDone ∧
      (readHeader s.argA s = none → k = 0) ∧
      (∀ nf loop, readHeader s.argA s = some (nf, loop) → k ≤ nf) ∧
      (t.csr.result = .ok → ∃ loop, readHeader s.argA s = some (k, loop) ∧ 1 ≤ k)

/-- 70_reset_and_hazards.md R354, 43_frame_animation.md R275: after a successful ENC_ANIM both
units are CLOSED, with nothing buffered or pending, and the GCT is valid. -/
def Obligations.EncAnimClosesUnits : Prop :=
  ∀ s t : State, exec .encAnim s = .next t → t.csr.result = .ok →
    t.sbw = { st := .closed, data := [] } ∧ t.lzw.st = .closed ∧ t.lzw.saved = none ∧
      t.lzw.nbits = 0 ∧ t.lzw.bitbuf = 0 ∧ t.gct.valid = true

/-- 43_frame_animation.md R290, 20_memory.md R92, 60_exceptions.md R312: for any state, valid or
not, and any answers of the sink, ENC_ANIM takes nothing back: the sink holds what it held, and a
prefix of what the same command leaves there when every transaction is taken whole; where that
prefix is all of it, the result is the same too, unless the sink reported an error after taking
the last byte. A sink failure at one of the command's transactions is its result: the accepted
bytes of that transaction stay, and none follows. -/
def Obligations.EncAnimNoRollback : Prop :=
  ∀ s t u : State, exec .encAnim s = .next t → exec .encAnim s.withAcceptAll = .next u →
    s.stream <+: t.stream ∧ t.stream <+: u.stream ∧
    (t.csr.result = .ok → u.csr.result = .ok ∧ t.stream = u.stream) ∧
    (t.stream = u.stream → t.csr.result = u.csr.result ∨ t.csr.result = .failed .sink) ∧
    ∀ (new : List Tx) (j n : Nat) (bs : List Byte) (k : Sink) (e : Option Byte),
      u.sink.txs = s.sink.txs ++ new → SinkFailsAt s.sink (new.map Tx.offered) j bs k n e →
      t.csr.result = .failed (answerFailure e).kind ∧
        t.csr.sinkCode = (answerFailure e).code ∧ t.sink = k.record bs (n, e) ∧
        t.stream = s.stream ++ ((new.map Tx.offered).take j).flatten ++ bs.take n

/-- 60_exceptions.md R315 items 6–8, 43_frame_animation.md R272, R274, R279, R287, R289, R290:
the failures of ENC_ANIM after its first output, for an animation that passes the checks before
it. With a sink that accepts everything, and the frames before number `i` encoded: a palette of
frame `i` that is not the global one is E_DIFFERENT_PALETTES, or E_IMEM_RANGE where it cannot be
read, after the frame's GCE and with the units as the frame before left them; a row out of range
is E_IMEM_RANGE and a row with a byte that is no literal E_LZW_LITERAL, after the image
descriptor and the full units of the rows before, whose other bytes stay buffered. With any sink
that fails at transaction `j` of a valid animation: a direct write of CTRL leaves no sticky
failure, a full unit leaves both units FAILED, and the writer's close leaves the writer FAILED
and the LZW unit CLOSED. In each case RES0 counts the bytes accepted (2^32 or more: a free value,
log entry 11), RES1 the frames completed, no trailer follows, and the GCT stays loaded. -/
def Obligations.EncAnimStepFailures : Prop :=
  ∀ (s : State) (frames : List FrameDesc) (loop w h bits : Nat) (bytes : List Byte),
    AnimationRead s frames loop w h bits bytes →
    (s.sink.accepting → ∀ (i : Nat) (fd : FrameDesc) (out : List Byte), frames[i]? = some fd →
      (∀ g ∈ frames.take i, FrameValid s bits bytes g) →
      out = gifHead frames loop w h bits bytes ++
        gifBlocks bits (frames.take i) (animationDatas (frames.take i) bits s) ++
        frameGce fd →
      (palEncode fd.palAddr s ≠ .table bits bytes →
        ∃ t, exec .encAnim s = .next t ∧ t.csr.result = (
            if palEncode fd.palAddr s = .fail .imemRange then .failed .imemRange
            else .failed .differentPalettes) ∧
          t.csr.sinkCode = 0 ∧ t.stream = s.stream ++ out ∧
          t.csr.res0 = countWord out.length ∧ t.csr.res1 = BitVec.ofNat 32 i ∧
          t.sbw = { st := .closed, data := [] } ∧ t.lzw.st = .closed ∧
          t.gct.valid = true ∧ t.gct.bits = bits ∧ t.gctTable = bytes) ∧
      ∀ (r : Nat) (part : List Byte) (done : Lzw) (kind : FailKind) (st : LzwSt),
        palEncode fd.palAddr s = .table bits bytes → r < fd.height → RowsFit s bits fd r →
        part = lzwPartData (literalWidth bits) (rowsBefore fd r s) s →
        done = (lzwWriteEach (rowsBefore fd r s)
          (freshUnits (literalWidth bits) s)).state.lzw →
        (readRow fd r s = none ∧ kind = .imemRange ∧ st = .opened ∨
          (∃ row, readRow fd r s = some row ∧ literalsFit (literalWidth bits) row = false) ∧
            kind = .lzwLiteral ∧ st = .failed { kind := .lzwLiteral, code := 0 }) →
        ∃ t new, exec .encAnim s = .next t ∧ t.csr.result = .failed kind ∧
          t.csr.sinkCode = 0 ∧ t.stream = s.stream ++ new ∧
          new = out ++ imageItem fd (literalWidth bits) ++ (fullUnits part).flatten ∧
          t.csr.res0 = countWord new.length ∧ t.csr.res1 = BitVec.ofNat 32 i ∧
          t.sbw = { st := .writable, data := unitRest part } ∧
          t.lzw = { done with st := st } ∧
          t.gct.valid = true ∧ t.gct.bits = bits ∧ t.gctTable = bytes) ∧
    (AnimationValid s frames loop w h bits bytes →
      ∀ (items : List SinkItem) (x : SinkItem) (j n : Nat) (k : Sink) (e : Option Byte),
        items = animationItems frames loop w h bits bytes (animationDatas frames bits s) →
        items[j]? = some x →
        SinkFailsAt s.sink (items.map SinkItem.bytes) j x.bytes k n e →
        ∃ t new, exec .encAnim s = .next t ∧
          t.csr.result = .failed (answerFailure e).kind ∧
          t.csr.sinkCode = (answerFailure e).code ∧ t.sink = k.record x.bytes (n, e) ∧
          t.stream = s.stream ++ new ∧
          new = ((items.take j).map SinkItem.bytes).flatten ++ x.bytes.take n ∧
          t.csr.res0 = countWord new.length ∧ t.csr.res1 = BitVec.ofNat 32 x.done ∧
          t.gct.valid = true ∧ t.gct.bits = bits ∧ t.gctTable = bytes ∧
          (x.part = .direct → if x.done = 0 then t.sbw = s.sbw ∧ t.lzw = s.lzw
            else t.sbw = { st := .closed, data := [] } ∧ t.lzw.st = .closed) ∧
          (x.part ≠ .direct → t.sbw.st = .failed (answerFailure e) ∧
            if x.part = .fullUnit then
              t.sbw.data = x.bytes.drop 1 ∧ t.lzw.st = .failed (answerFailure e)
            else t.lzw.st = .closed))
end

