-- ==== Sys2Proof/Laws/State.lean ====
section
/-!
SUPPORT. One lemma per field per named update of the state, true by unfolding it once, so
that no later proof unfolds a record update.
-/

namespace Sys2Proof.Machine

@[simp] theorem drawn_csr (s : State) : (s.drawn).csr = s.csr := rfl
@[simp] theorem drawn_sbw (s : State) : (s.drawn).sbw = s.sbw := rfl
@[simp] theorem drawn_lzw (s : State) : (s.drawn).lzw = s.lzw := rfl
@[simp] theorem drawn_gct (s : State) : (s.drawn).gct = s.gct := rfl
@[simp] theorem drawn_seq (s : State) : (s.drawn).seq = s.seq := rfl
@[simp] theorem drawn_imem (s : State) : (s.drawn).imem = s.imem := rfl
@[simp] theorem drawn_imemSize (s : State) : (s.drawn).imemSize = s.imemSize := rfl
@[simp] theorem drawn_sink (s : State) : (s.drawn).sink = s.sink := rfl
@[simp] theorem drawn_host (s : State) : (s.drawn).host = s.host := rfl
@[simp] theorem drawn_inReset (s : State) : (s.drawn).inReset = s.inReset := rfl
@[simp] theorem drawn_draws (s : State) : (s.drawn).draws = s.draws + 1 := rfl

@[simp] theorem complete_sbw (s : State) (f : Option Failure) (a b : Word) : (s.complete f a b).sbw = s.sbw := rfl
@[simp] theorem complete_lzw (s : State) (f : Option Failure) (a b : Word) : (s.complete f a b).lzw = s.lzw := rfl
@[simp] theorem complete_gct (s : State) (f : Option Failure) (a b : Word) : (s.complete f a b).gct = s.gct := rfl
@[simp] theorem complete_imem (s : State) (f : Option Failure) (a b : Word) : (s.complete f a b).imem = s.imem := rfl
@[simp] theorem complete_imemSize (s : State) (f : Option Failure) (a b : Word) : (s.complete f a b).imemSize = s.imemSize := rfl
@[simp] theorem complete_sink (s : State) (f : Option Failure) (a b : Word) : (s.complete f a b).sink = s.sink := rfl
@[simp] theorem complete_host (s : State) (f : Option Failure) (a b : Word) : (s.complete f a b).host = s.host := rfl
@[simp] theorem complete_inReset (s : State) (f : Option Failure) (a b : Word) : (s.complete f a b).inReset = s.inReset := rfl
@[simp] theorem complete_draws (s : State) (f : Option Failure) (a b : Word) : (s.complete f a b).draws = s.draws := rfl
@[simp] theorem complete_csr_arg0 (s : State) (f : Option Failure) (a b : Word) : (s.complete f a b).csr.arg0 = s.csr.arg0 := rfl
@[simp] theorem complete_csr_arg1 (s : State) (f : Option Failure) (a b : Word) : (s.complete f a b).csr.arg1 = s.csr.arg1 := rfl
@[simp] theorem complete_csr_res0 (s : State) (f : Option Failure) (a b : Word) : (s.complete f a b).csr.res0 = a := rfl
@[simp] theorem complete_csr_res1 (s : State) (f : Option Failure) (a b : Word) : (s.complete f a b).csr.res1 = b := rfl
@[simp] theorem complete_csr_result (s : State) (f : Option Failure) (a b : Word) : (s.complete f a b).csr.result = resultOf f := rfl
@[simp] theorem complete_csr_sinkCode (s : State) (f : Option Failure) (a b : Word) : (s.complete f a b).csr.sinkCode = sinkCodeOf f := rfl
@[simp] theorem complete_seq (s : State) (f : Option Failure) (a b : Word) : (s.complete f a b).seq = Sequencer.idle := rfl

@[simp] theorem blockReset_imem (s : State) : (s.blockReset).imem = s.imem := rfl
@[simp] theorem blockReset_imemSize (s : State) : (s.blockReset).imemSize = s.imemSize := rfl
@[simp] theorem blockReset_sink (s : State) : (s.blockReset).sink = s.sink := rfl
@[simp] theorem blockReset_host (s : State) : (s.blockReset).host = s.host := rfl
@[simp] theorem blockReset_draws (s : State) : (s.blockReset).draws = s.draws := rfl
@[simp] theorem blockReset_csr (s : State) : (s.blockReset).csr = Csr.afterReset := rfl
@[simp] theorem blockReset_sbw (s : State) : (s.blockReset).sbw = Sbw.afterReset := rfl
@[simp] theorem blockReset_lzw (s : State) : (s.blockReset).lzw = Lzw.afterReset := rfl
@[simp] theorem blockReset_gct (s : State) : (s.blockReset).gct = Gct.cleared := rfl
@[simp] theorem blockReset_seq (s : State) : (s.blockReset).seq = Sequencer.idle := rfl
@[simp] theorem blockReset_inReset (s : State) : (s.blockReset).inReset = false := rfl

@[simp] theorem sbwOpen_csr (s : State) : (sbwOpen s).csr = s.csr := rfl
@[simp] theorem sbwOpen_lzw (s : State) : (sbwOpen s).lzw = s.lzw := rfl
@[simp] theorem sbwOpen_gct (s : State) : (sbwOpen s).gct = s.gct := rfl
@[simp] theorem sbwOpen_seq (s : State) : (sbwOpen s).seq = s.seq := rfl
@[simp] theorem sbwOpen_imem (s : State) : (sbwOpen s).imem = s.imem := rfl
@[simp] theorem sbwOpen_imemSize (s : State) : (sbwOpen s).imemSize = s.imemSize := rfl
@[simp] theorem sbwOpen_sink (s : State) : (sbwOpen s).sink = s.sink := rfl
@[simp] theorem sbwOpen_host (s : State) : (sbwOpen s).host = s.host := rfl
@[simp] theorem sbwOpen_inReset (s : State) : (sbwOpen s).inReset = s.inReset := rfl
@[simp] theorem sbwOpen_draws (s : State) : (sbwOpen s).draws = s.draws := rfl
@[simp] theorem sbwOpen_sbw_st (s : State) : (sbwOpen s).sbw.st = SbwSt.writable := rfl
@[simp] theorem sbwOpen_sbw_data (s : State) : (sbwOpen s).sbw.data = [] := rfl

@[simp] theorem lzwOpen_csr (n : Nat) (s : State) : (lzwOpen n s).csr = s.csr := rfl
@[simp] theorem lzwOpen_sbw (n : Nat) (s : State) : (lzwOpen n s).sbw = s.sbw := rfl
@[simp] theorem lzwOpen_gct (n : Nat) (s : State) : (lzwOpen n s).gct = s.gct := rfl
@[simp] theorem lzwOpen_seq (n : Nat) (s : State) : (lzwOpen n s).seq = s.seq := rfl
@[simp] theorem lzwOpen_imem (n : Nat) (s : State) : (lzwOpen n s).imem = s.imem := rfl
@[simp] theorem lzwOpen_imemSize (n : Nat) (s : State) : (lzwOpen n s).imemSize = s.imemSize := rfl
@[simp] theorem lzwOpen_sink (n : Nat) (s : State) : (lzwOpen n s).sink = s.sink := rfl
@[simp] theorem lzwOpen_host (n : Nat) (s : State) : (lzwOpen n s).host = s.host := rfl
@[simp] theorem lzwOpen_inReset (n : Nat) (s : State) : (lzwOpen n s).inReset = s.inReset := rfl
@[simp] theorem lzwOpen_draws (n : Nat) (s : State) : (lzwOpen n s).draws = s.draws := rfl
@[simp] theorem lzwOpen_lzw_st (n : Nat) (s : State) : (lzwOpen n s).lzw.st = LzwSt.opened := rfl
@[simp] theorem lzwOpen_lzw_lit (n : Nat) (s : State) : (lzwOpen n s).lzw.lit = n := rfl
@[simp] theorem lzwOpen_lzw_width (n : Nat) (s : State) : (lzwOpen n s).lzw.width = n + 1 := rfl
@[simp] theorem lzwOpen_lzw_hi (n : Nat) (s : State) : (lzwOpen n s).lzw.hi = eoiCode n := rfl
@[simp] theorem lzwOpen_lzw_saved (n : Nat) (s : State) : (lzwOpen n s).lzw.saved = none := rfl
@[simp] theorem lzwOpen_lzw_bitbuf (n : Nat) (s : State) : (lzwOpen n s).lzw.bitbuf = 0 := rfl
@[simp] theorem lzwOpen_lzw_nbits (n : Nat) (s : State) : (lzwOpen n s).lzw.nbits = 0 := rfl
@[simp] theorem lzwOpen_lzw_dict (n : Nat) (s : State) : (lzwOpen n s).lzw.dict = [] := rfl

@[simp] theorem lzwShut_csr (s : State) : (lzwShut s).csr = s.csr := rfl
@[simp] theorem lzwShut_sbw (s : State) : (lzwShut s).sbw = s.sbw := rfl
@[simp] theorem lzwShut_gct (s : State) : (lzwShut s).gct = s.gct := rfl
@[simp] theorem lzwShut_seq (s : State) : (lzwShut s).seq = s.seq := rfl
@[simp] theorem lzwShut_imem (s : State) : (lzwShut s).imem = s.imem := rfl
@[simp] theorem lzwShut_imemSize (s : State) : (lzwShut s).imemSize = s.imemSize := rfl
@[simp] theorem lzwShut_sink (s : State) : (lzwShut s).sink = s.sink := rfl
@[simp] theorem lzwShut_host (s : State) : (lzwShut s).host = s.host := rfl
@[simp] theorem lzwShut_inReset (s : State) : (lzwShut s).inReset = s.inReset := rfl
@[simp] theorem lzwShut_draws (s : State) : (lzwShut s).draws = s.draws := rfl
@[simp] theorem lzwShut_lzw_st (s : State) : (lzwShut s).lzw.st = LzwSt.closed := rfl
@[simp] theorem lzwShut_lzw_lit (s : State) : (lzwShut s).lzw.lit = s.lzw.lit := rfl
@[simp] theorem lzwShut_lzw_width (s : State) : (lzwShut s).lzw.width = s.lzw.width := rfl
@[simp] theorem lzwShut_lzw_hi (s : State) : (lzwShut s).lzw.hi = s.lzw.hi := rfl
@[simp] theorem lzwShut_lzw_saved (s : State) : (lzwShut s).lzw.saved = none := rfl
@[simp] theorem lzwShut_lzw_bitbuf (s : State) : (lzwShut s).lzw.bitbuf = 0 := rfl
@[simp] theorem lzwShut_lzw_nbits (s : State) : (lzwShut s).lzw.nbits = 0 := rfl
@[simp] theorem lzwShut_lzw_dict (s : State) : (lzwShut s).lzw.dict = s.lzw.dict := rfl

@[simp] theorem withAcceptAll_csr (s : State) : (s.withAcceptAll).csr = s.csr := rfl
@[simp] theorem withAcceptAll_sbw (s : State) : (s.withAcceptAll).sbw = s.sbw := rfl
@[simp] theorem withAcceptAll_lzw (s : State) : (s.withAcceptAll).lzw = s.lzw := rfl
@[simp] theorem withAcceptAll_gct (s : State) : (s.withAcceptAll).gct = s.gct := rfl
@[simp] theorem withAcceptAll_seq (s : State) : (s.withAcceptAll).seq = s.seq := rfl
@[simp] theorem withAcceptAll_imem (s : State) : (s.withAcceptAll).imem = s.imem := rfl
@[simp] theorem withAcceptAll_imemSize (s : State) : (s.withAcceptAll).imemSize = s.imemSize := rfl
@[simp] theorem withAcceptAll_host (s : State) : (s.withAcceptAll).host = s.host := rfl
@[simp] theorem withAcceptAll_inReset (s : State) : (s.withAcceptAll).inReset = s.inReset := rfl
@[simp] theorem withAcceptAll_draws (s : State) : (s.withAcceptAll).draws = s.draws := rfl
@[simp] theorem withAcceptAll_sink_txs (s : State) : (s.withAcceptAll).sink.txs = s.sink.txs := rfl
@[simp] theorem withAcceptAll_sink_script (s : State) : (s.withAcceptAll).sink.script = [] := rfl
@[simp] theorem withAcceptAll_sink_onward (s : State) : (s.withAcceptAll).sink.onward = SinkMode.acceptAll := rfl

@[simp] theorem withFetchWord_csr (s : State) (n w : Nat) : (s.withFetchWord n w).csr = s.csr := rfl
@[simp] theorem withFetchWord_sbw (s : State) (n w : Nat) : (s.withFetchWord n w).sbw = s.sbw := rfl
@[simp] theorem withFetchWord_lzw (s : State) (n w : Nat) : (s.withFetchWord n w).lzw = s.lzw := rfl
@[simp] theorem withFetchWord_gct (s : State) (n w : Nat) : (s.withFetchWord n w).gct = s.gct := rfl
@[simp] theorem withFetchWord_imem (s : State) (n w : Nat) : (s.withFetchWord n w).imem = s.imem := rfl
@[simp] theorem withFetchWord_imemSize (s : State) (n w : Nat) : (s.withFetchWord n w).imemSize = s.imemSize := rfl
@[simp] theorem withFetchWord_sink (s : State) (n w : Nat) : (s.withFetchWord n w).sink = s.sink := rfl
@[simp] theorem withFetchWord_draws (s : State) (n w : Nat) : (s.withFetchWord n w).draws = s.draws := rfl
@[simp] theorem withFetchWord_seq_cmd (s : State) (n w : Nat) : (s.withFetchWord n w).seq.cmd = some (BitVec.ofNat 32 (w % 2 ^ n)) := rfl
@[simp] theorem withFetchWord_seq_accepted (s : State) (n w : Nat) : (s.withFetchWord n w).seq.accepted = 0 := rfl
@[simp] theorem withFetchWord_seq_delivered (s : State) (n w : Nat) : (s.withFetchWord n w).seq.delivered = 0 := rfl
@[simp] theorem withFetchWord_seq_framesDone (s : State) (n w : Nat) : (s.withFetchWord n w).seq.framesDone = 0 := rfl
@[simp] theorem withFetchWord_host_agenda (s : State) (n w : Nat) : (s.withFetchWord n w).host.agenda = HostMove.wait :: s.host.agenda := rfl
@[simp] theorem withFetchWord_host_rdata (s : State) (n w : Nat) : (s.withFetchWord n w).host.rdata = s.host.rdata := rfl
@[simp] theorem withFetchWord_inReset (s : State) (n w : Nat) : (s.withFetchWord n w).inReset = false := rfl

@[simp] theorem gctLoad_csr (r : PalResult) (s : State) : (gctLoad r s).csr = s.csr := by cases r <;> rfl
@[simp] theorem gctLoad_sbw (r : PalResult) (s : State) : (gctLoad r s).sbw = s.sbw := by cases r <;> rfl
@[simp] theorem gctLoad_lzw (r : PalResult) (s : State) : (gctLoad r s).lzw = s.lzw := by cases r <;> rfl
@[simp] theorem gctLoad_seq (r : PalResult) (s : State) : (gctLoad r s).seq = s.seq := by cases r <;> rfl
@[simp] theorem gctLoad_imem (r : PalResult) (s : State) : (gctLoad r s).imem = s.imem := by cases r <;> rfl
@[simp] theorem gctLoad_imemSize (r : PalResult) (s : State) : (gctLoad r s).imemSize = s.imemSize := by cases r <;> rfl
@[simp] theorem gctLoad_sink (r : PalResult) (s : State) : (gctLoad r s).sink = s.sink := by cases r <;> rfl
@[simp] theorem gctLoad_host (r : PalResult) (s : State) : (gctLoad r s).host = s.host := by cases r <;> rfl
@[simp] theorem gctLoad_inReset (r : PalResult) (s : State) : (gctLoad r s).inReset = s.inReset := by cases r <;> rfl
@[simp] theorem gctLoad_draws (r : PalResult) (s : State) : (gctLoad r s).draws = s.draws := by cases r <;> rfl
@[simp] theorem gctLoad_fail_gct (k : FailKind) (s : State) : (gctLoad (.fail k) s).gct = Gct.cleared := rfl
@[simp] theorem gctLoad_table_gct_ram (bits : Nat) (bytes : List Byte) (s : State) : (gctLoad (.table bits bytes) s).gct.ram = bytes ++ List.replicate (gctRamBytes - bytes.length) 0 := rfl
@[simp] theorem gctLoad_table_gct_bits (bits : Nat) (bytes : List Byte) (s : State) : (gctLoad (.table bits bytes) s).gct.bits = bits := rfl
@[simp] theorem gctLoad_table_gct_valid (bits : Nat) (bytes : List Byte) (s : State) : (gctLoad (.table bits bytes) s).gct.valid = true := rfl

@[simp] theorem Sink.record_txs (k : Sink) (bs : List Byte) (a : Nat × Option Byte) : (k.record bs a).txs = k.txs ++ [⟨bs, a.1, a.2⟩] := rfl
@[simp] theorem Sink.record_script (k : Sink) (bs : List Byte) (a : Nat × Option Byte) : (k.record bs a).script = k.script.tail := rfl
@[simp] theorem Sink.record_onward (k : Sink) (bs : List Byte) (a : Nat × Option Byte) : (k.record bs a).onward = k.onward := rfl

@[simp] theorem Ret.state_ok (s : State) : (Ret.ok s).state = s := rfl
@[simp] theorem Ret.state_fail (f : Failure) (s : State) : (Ret.fail f s).state = s := rfl
@[simp] theorem Ret.failure_ok (s : State) : (Ret.ok s).failure = none := rfl
@[simp] theorem Ret.failure_fail (f : Failure) (s : State) : (Ret.fail f s).failure = some f := rfl
@[simp] theorem Ret.andThen_ok (s : State) (k : State → Ret) : (Ret.ok s).andThen k = k s := rfl
@[simp] theorem Ret.andThen_fail (f : Failure) (s : State) (k : State → Ret) : (Ret.fail f s).andThen k = .fail f s := rfl

@[simp] theorem resultOf_none : resultOf none = .ok := rfl
@[simp] theorem resultOf_some (f : Failure) : resultOf (some f) = .failed f.kind := rfl
@[simp] theorem sinkCodeOf_none : sinkCodeOf none = 0 := rfl
@[simp] theorem sinkCodeOf_some (f : Failure) : sinkCodeOf (some f) = f.code := rfl
@[simp] theorem Failure.plain_kind (k : FailKind) : (Failure.plain k).kind = k := rfl
@[simp] theorem Failure.plain_code (k : FailKind) : (Failure.plain k).code = 0 := rfl

end Sys2Proof.Machine
end

