-- ==== Sys2Proof/Laws/Memory.lean ====
section
/-!
SUPPORT. IMEM: a write keeps the canonical form, a read after a write gives the byte written,
and other places are left alone (20_memory.md R81).
-/

namespace Sys2Proof.Machine

theorem Memory.read_of_lt (m : Memory) (a : Nat) (h : ∀ c ∈ m, a < c.1) :
    Memory.read m a = Config.imemUnlisted := by
  induction m with
  | nil => rfl
  | cons c rest ih =>
    obtain ⟨k, v⟩ := c
    have hk : a < k := h (k, v) (by simp)
    rw [Memory.read, if_neg (by omega)]
    exact ih fun c hc => h c (by simp [hc])

theorem Memory.mem_write {m : Memory} {a : Nat} {v : Byte} {c : Host.Cell}
    (h : c ∈ Memory.write m a v) : c ∈ m ∨ (c = (a, v) ∧ v ≠ Config.imemUnlisted) := by
  induction m with
  | nil =>
    unfold Memory.write at h
    split at h
    · simp at h
    · rename_i hv
      exact .inr ⟨by simpa using h, hv⟩
  | cons d rest ih =>
    obtain ⟨k, w⟩ := d
    unfold Memory.write at h
    split at h
    · split at h
      · exact .inl h
      · rename_i hv
        rcases List.mem_cons.1 h with h | h
        · exact .inr ⟨h, hv⟩
        · exact .inl h
    · split at h
      · split at h
        · exact .inl (by simp [h])
        · rename_i hv
          rcases List.mem_cons.1 h with h | h
          · exact .inr ⟨h, hv⟩
          · exact .inl (by simp [h])
      · rcases List.mem_cons.1 h with h | h
        · exact .inl (by simp [h])
        · exact (ih h).imp (fun h => by simp [h]) id

/-- Every write keeps the canonical form. -/
theorem Memory.write_wf {m : Memory} (h : Memory.wf m) (a : Nat) (v : Byte) :
    Memory.wf (Memory.write m a v) := by
  refine ⟨?_, fun c hc => ?_⟩
  · obtain ⟨hp, -⟩ := h
    induction m with
    | nil => unfold Memory.write; split <;> simp
    | cons d rest ih =>
      obtain ⟨k, w⟩ := d
      obtain ⟨hd, hrest⟩ := List.pairwise_cons.1 hp
      unfold Memory.write
      split
      · rename_i hak
        split
        · exact hp
        · refine List.pairwise_cons.2 ⟨fun c hc => ?_, hp⟩
          rcases List.mem_cons.1 hc with rfl | hc
          · exact hak
          · exact Nat.lt_trans hak (hd c hc)
      · split
        · rename_i heq
          subst heq
          split
          · exact hrest
          · exact List.pairwise_cons.2 ⟨hd, hrest⟩
        · rename_i h1 h2
          refine List.pairwise_cons.2 ⟨fun c hc => ?_, ih hrest⟩
          rcases Memory.mem_write hc with hc | ⟨rfl, -⟩
          · exact hd c hc
          · simp only; omega
  · rcases Memory.mem_write hc with hc | ⟨rfl, hv⟩
    · exact h.2 c hc
    · exact hv

/-- A read after a write gives the byte written there and the old byte elsewhere. -/
theorem Memory.read_write {m : Memory} (h : Memory.wf m) (a : Nat) (v : Byte) (b : Nat) :
    Memory.read (Memory.write m a v) b = if b = a then v else Memory.read m b := by
  obtain ⟨hp, -⟩ := h
  induction m with
  | nil =>
    unfold Memory.write
    split <;> simp [Memory.read] <;> grind
  | cons d rest ih =>
    obtain ⟨k, w⟩ := d
    obtain ⟨hd, hrest⟩ := List.pairwise_cons.1 hp
    have low : ∀ x, x ≤ k → Memory.read rest x = Config.imemUnlisted := fun x hx =>
      Memory.read_of_lt rest x fun c hc => Nat.lt_of_le_of_lt hx (hd c hc)
    unfold Memory.write
    split
    · rename_i hak
      split
      · rename_i hv
        by_cases hb : b = a
        · subst hb
          rw [Memory.read, if_neg (by omega), low b (by omega), if_pos rfl, hv]
        · rw [if_neg hb]
      · rw [Memory.read]
        grind
    · split
      · rename_i heq
        subst heq
        split
        · rename_i hv
          by_cases hb : b = a
          · subst hb
            rw [low b (Nat.le_refl b), if_pos rfl, hv]
          · rw [if_neg hb, Memory.read, if_neg (Ne.symm hb)]
        · rw [Memory.read, Memory.read]
          grind
      · rename_i h1 h2
        rw [Memory.read, ih hrest, Memory.read]
        grind

/-- The canonical form is enough for equal memories to be equal data. -/
theorem Memory.ext_read {m n : Memory} (hm : Memory.wf m) (hn : Memory.wf n)
    (h : ∀ a, Memory.read m a = Memory.read n a) : m = n := by
  induction m generalizing n with
  | nil =>
    cases n with
    | nil => rfl
    | cons d rest =>
      have := h d.1
      simp only [Memory.read, if_true] at this
      exact absurd this.symm (hn.2 d (by simp))
  | cons c mrest ih =>
    cases n with
    | nil =>
      have := h c.1
      simp only [Memory.read, if_true] at this
      exact absurd this (hm.2 c (by simp))
    | cons d nrest =>
      obtain ⟨k, v⟩ := c
      obtain ⟨l, w⟩ := d
      obtain ⟨hck, hmr⟩ := List.pairwise_cons.1 hm.1
      obtain ⟨hdl, hnr⟩ := List.pairwise_cons.1 hn.1
      have lowm : ∀ x, x ≤ k → Memory.read mrest x = Config.imemUnlisted := fun x hx =>
        Memory.read_of_lt mrest x fun c hc => Nat.lt_of_le_of_lt hx (hck c hc)
      have lown : ∀ x, x ≤ l → Memory.read nrest x = Config.imemUnlisted := fun x hx =>
        Memory.read_of_lt nrest x fun c hc => Nat.lt_of_le_of_lt hx (hdl c hc)
      have hv := hm.2 (k, v) (by simp)
      have hw := hn.2 (l, w) (by simp)
      have hk := h k
      have hl := h l
      simp only [Memory.read, if_true] at hk hl
      have hkl : k = l := by
        rcases Nat.lt_trichotomy k l with hlt | heq | hgt
        · rw [if_neg (by omega), lown k (by omega)] at hk
          exact absurd hk hv
        · exact heq
        · rw [if_neg (by omega), lowm l (by omega)] at hl
          exact absurd hl.symm hw
      subst hkl
      rw [if_pos rfl] at hk
      subst hk
      refine congrArg _ (ih ⟨hmr, fun c hc => hm.2 c (by simp [hc])⟩
        ⟨hnr, fun c hc => hn.2 c (by simp [hc])⟩ fun a => ?_)
      have ha := h a
      simp only [Memory.read] at ha
      by_cases hka : k = a
      · rw [lowm a (by omega), lown a (by omega)]
      · rwa [if_neg hka, if_neg hka] at ha

/-- A read of `n` bytes gives `n` bytes. -/
theorem memBytes_length {a n : Nat} {s : State} {bs : List Byte}
    (h : memBytes a n s = some bs) : bs.length = n := by
  unfold memBytes at h
  split at h
  · cases h; simp
  · cases h

/-- A read fails exactly where it would go past IMEM_SIZE (20_memory.md R84). -/
theorem memBytes_eq_none {a n : Nat} {s : State} :
    memBytes a n s = none ↔ s.imemSize < a + n := by
  unfold memBytes
  split <;> simp <;> omega

/-- What is read depends on IMEM alone. -/
theorem memBytes_congr {s t : State} (hm : t.imem = s.imem) (hn : t.imemSize = s.imemSize)
    (a n : Nat) : memBytes a n t = memBytes a n s := by
  unfold memBytes; rw [hm, hn]

theorem memRead_congr {s t : State} (hm : t.imem = s.imem) (hn : t.imemSize = s.imemSize)
    (a n : Nat) : memRead a n t = memRead a n s := by
  unfold memRead; rw [memBytes_congr hm hn]

theorem readFrame_congr {s t : State} (hm : t.imem = s.imem) (hn : t.imemSize = s.imemSize)
    (a i : Nat) : readFrame a i t = readFrame a i s := by
  unfold readFrame; rw [memRead_congr hm hn]

theorem readRow_congr {s t : State} (hm : t.imem = s.imem) (hn : t.imemSize = s.imemSize)
    (fd : FrameDesc) (r : Nat) : readRow fd r t = readRow fd r s := by
  unfold readRow; rw [memBytes_congr hm hn]

theorem palEncode_congr {s t : State} (hm : t.imem = s.imem) (hn : t.imemSize = s.imemSize)
    (p : Nat) : palEncode p t = palEncode p s := by
  unfold palEncode
  simp only [memRead_congr hm hn, memBytes_congr hm hn]

theorem leNat_lt (bs : List Byte) : leNat bs < 256 ^ bs.length := by
  induction bs with
  | nil => simp [leNat]
  | cons b bs ih =>
    have := b.isLt
    simp only [leNat, List.length_cons, Nat.pow_succ]
    omega

end Sys2Proof.Machine
end

