-- ==== Sys2Proof/Laws/Sbw.lean ====
section
/-!
SUPPORT. What a sink transaction and the operations of the sub-block writer can do, said once:
their frames, that they keep a sound writer, and that against an accepting sink they succeed
(20_memory.md R90, 41_subblock_writer.md R200–R212).
-/

namespace Sys2Proof.Machine

/-! ### Procedures in sequence -/

theorem Ret.andThen_eq_ok {r : Ret} {k : State → Ret} {t : State} :
    r.andThen k = .ok t ↔ ∃ s, r = .ok s ∧ k s = .ok t := by
  cases r <;> simp

/-- A transitive relation between the states before and after holds of a sequence when it
holds of its parts. -/
theorem Ret.andThen_rel {R : State → State → Prop}
    (trans : ∀ {a b c}, R a b → R b c → R a c) {s : State} {r : Ret} {k : State → Ret}
    (hr : R s r.state) (hk : ∀ s', r = .ok s' → R s' (k s').state) :
    R s (r.andThen k).state := by
  cases r with
  | ok s' => exact trans hr (hk s' rfl)
  | fail f s' => exact hr

/-- A property of the result holds of a sequence when the first part's failures have it and
the second part's results after its success have it. -/
theorem Ret.andThen_all {P : Ret → Prop} {r : Ret} {k : State → Ret}
    (hf : ∀ f s, r = .fail f s → P (.fail f s)) (hk : ∀ s, r = .ok s → P (k s)) :
    P (r.andThen k) := by
  cases r with
  | ok s => exact hk s rfl
  | fail f s => exact hf f s rfl

theorem Ret.andThen_assoc (r : Ret) (f g : State → Ret) :
    (r.andThen f).andThen g = r.andThen fun s => (f s).andThen g := by
  cases r <;> rfl

/-! ### The sink -/

theorem Sink.answer_le (k : Sink) (n : Nat) : (k.answer n).1 ≤ n := by
  unfold Sink.answer
  split
  · exact Nat.min_le_right _ _
  · split
    · exact Nat.le_refl n
    · exact Nat.min_le_right _ _

theorem Sink.answer_accepting {k : Sink} (h : k.accepting) (n : Nat) :
    k.answer n = (n, none) := by
  obtain ⟨hs, ho⟩ := h
  unfold Sink.answer
  rw [hs, ho]

theorem Sink.record_accepting {k : Sink} (h : k.accepting) (bs : List Byte)
    (a : Nat × Option Byte) : (k.record bs a).accepting := by
  obtain ⟨hs, ho⟩ := h
  exact ⟨by simp [hs], by simpa using ho⟩

/-- The state a transaction leaves, whatever the answer (20_memory.md R90). -/
theorem sinkWrite_state (bs : List Byte) (s : State) :
    (sinkWrite bs s).state =
      { s with
        sink := s.sink.record bs (s.sink.answer bs.length)
        seq.accepted := s.seq.accepted + (s.sink.answer bs.length).1 } := by
  unfold sinkWrite
  dsimp only
  split
  · rfl
  · split <;> rfl

/-- A transaction's failure: E_SINK with the sink's code, or E_SHORT_WRITE
(20_memory.md R90). -/
theorem sinkWrite_failure (bs : List Byte) (s : State) :
    (sinkWrite bs s).failure =
      match (s.sink.answer bs.length).2 with
      | some e => some { kind := .sink, code := e }
      | none =>
        if (s.sink.answer bs.length).1 < bs.length then some (.plain .shortWrite) else none := by
  unfold sinkWrite
  dsimp only
  cases (s.sink.answer bs.length).2 with
  | some e => rfl
  | none => dsimp only; split <;> rfl

theorem sinkWrite_failure_sound {bs : List Byte} {s t : State} {f : Failure}
    (h : sinkWrite bs s = .fail f t) :
    (f.kind = .sink ∨ f.kind = .shortWrite) ∧ f.sound := by
  have hf := sinkWrite_failure bs s
  rw [h, Ret.failure_fail] at hf
  split at hf
  · cases hf; exact ⟨.inl rfl, fun h => absurd rfl h⟩
  · split at hf
    · cases hf; exact ⟨.inr rfl, fun _ => rfl⟩
    · cases hf

/-- An OK transaction took every byte, with no error (20_memory.md R90). -/
theorem sinkWrite_ok {bs : List Byte} {s t : State} (h : sinkWrite bs s = .ok t) :
    s.sink.answer bs.length = (bs.length, none) := by
  have hf := sinkWrite_failure bs s
  rw [h, Ret.failure_ok] at hf
  have hle := s.sink.answer_le bs.length
  generalize s.sink.answer bs.length = a at hf hle
  obtain ⟨k, e⟩ := a
  cases e with
  | some e => simp at hf
  | none =>
    have : ¬ k < bs.length := by simpa using hf
    simp only at hle
    rw [show k = bs.length by omega]

/-- Against an accepting sink a transaction succeeds whole. -/
theorem sinkWrite_accepting {s : State} (h : s.sink.accepting) (bs : List Byte) :
    sinkWrite bs s = .ok { s with
      sink := s.sink.record bs (bs.length, none), seq.accepted := s.seq.accepted + bs.length } := by
  unfold sinkWrite
  simp only [Sink.answer_accepting h, Nat.lt_irrefl, if_false]

theorem Tx.sound_of_answer {bs : List Byte} (hbs : bs ≠ []) (k : Sink) :
    Tx.sound ⟨bs, (k.answer bs.length).1, (k.answer bs.length).2⟩ :=
  ⟨hbs, k.answer_le _⟩

theorem streamOf_append (xs ys : List Tx) : streamOf (xs ++ ys) = streamOf xs ++ streamOf ys := by
  simp [streamOf]

/-- A transaction the sink answers with an error, or cuts short, fails with that failure. -/
theorem sinkWrite_fails {bs : List Byte} {s : State} {n : Nat} {e : Option Byte}
    (h : s.sink.answer bs.length = (n, e)) (hf : e ≠ none ∨ n < bs.length) :
    sinkWrite bs s = .fail (answerFailure e) { s with
      sink := s.sink.record bs (n, e), seq.accepted := s.seq.accepted + n } := by
  unfold sinkWrite
  rw [h]
  cases e with
  | some c => rfl
  | none =>
    have hn : n < bs.length := hf.resolve_left fun h => h rfl
    simp only [hn, if_true]
    rfl

/-! ### Transactions taken whole -/

/-- The first of several transactions is taken whole, and then the others. -/
theorem Sink.takes_cons {bs : List Byte} {rest : List (List Byte)} {k k' : Sink} :
    Sink.takes (bs :: rest) k = some k' ↔
      k.answer bs.length = (bs.length, none) ∧
        Sink.takes rest (k.record bs (bs.length, none)) = some k' := by
  simp only [Sink.takes]
  split <;> simp [*]

/-- What the sink is once it has taken some transactions whole. -/
theorem Sink.takes_sink {offers : List (List Byte)} {k k' : Sink}
    (h : k.takes offers = some k') :
    k'.txs = k.txs ++ offers.map (fun bs => { offered := bs, taken := bs.length, err := none }) ∧
      k'.script = k.script.drop offers.length ∧ k'.onward = k.onward := by
  induction offers generalizing k with
  | nil => cases h; simp
  | cons bs rest ih =>
    obtain ⟨t, sc, o⟩ := ih (Sink.takes_cons.1 h).2
    refine ⟨by rw [t]; simp [Sink.record], ?_, by rw [o]; rfl⟩
    rw [sc, Sink.record, List.drop_tail, List.length_cons]

/-- The stream has grown by exactly the bytes of the transactions taken whole. -/
theorem Sink.takes_stream {offers : List (List Byte)} {k k' : Sink}
    (h : k.takes offers = some k') :
    streamOf k'.txs = streamOf k.txs ++ offers.flatten := by
  induction offers generalizing k with
  | nil => cases h; simp
  | cons bs rest ih =>
    rw [ih (Sink.takes_cons.1 h).2]
    simp [Sink.record, streamOf, Tx.accepted]

/-- An accepting sink takes any transactions whole, and goes on accepting. -/
theorem Sink.takes_accepting {k : Sink} (h : k.accepting) (offers : List (List Byte)) :
    ∃ k', k.takes offers = some k' ∧ k'.accepting := by
  induction offers generalizing k with
  | nil => exact ⟨k, rfl, h⟩
  | cons bs rest ih =>
    obtain ⟨k', hk, ha⟩ := ih (Sink.record_accepting h bs (bs.length, none))
    exact ⟨k', Sink.takes_cons.2 ⟨Sink.answer_accepting h _, hk⟩, ha⟩

/-! ### The frame of the output path -/

/-- What no operation of the sub-block writer touches; transactions are only added. -/
structure SbwFrame (s t : State) : Prop where
  csr        : t.csr = s.csr
  lzw        : t.lzw = s.lzw
  gct        : t.gct = s.gct
  imem       : t.imem = s.imem
  imemSize   : t.imemSize = s.imemSize
  host       : t.host = s.host
  inReset    : t.inReset = s.inReset
  draws      : t.draws = s.draws
  cmd        : t.seq.cmd = s.seq.cmd
  delivered  : t.seq.delivered = s.seq.delivered
  framesDone : t.seq.framesDone = s.seq.framesDone
  onward     : t.sink.onward = s.sink.onward
  grows      : ∃ new, t.sink.txs = s.sink.txs ++ new

theorem SbwFrame.refl (s : State) : SbwFrame s s :=
  ⟨rfl, rfl, rfl, rfl, rfl, rfl, rfl, rfl, rfl, rfl, rfl, rfl, [], by simp⟩

theorem SbwFrame.trans {a b c : State} (h : SbwFrame a b) (k : SbwFrame b c) : SbwFrame a c := by
  obtain ⟨x, hx⟩ := h.grows
  obtain ⟨y, hy⟩ := k.grows
  exact ⟨k.csr.trans h.csr, k.lzw.trans h.lzw, k.gct.trans h.gct, k.imem.trans h.imem,
    k.imemSize.trans h.imemSize, k.host.trans h.host, k.inReset.trans h.inReset,
    k.draws.trans h.draws, k.cmd.trans h.cmd, k.delivered.trans h.delivered,
    k.framesDone.trans h.framesDone, k.onward.trans h.onward, x ++ y, by
      rw [hy, hx, List.append_assoc]⟩

/-- Setting the writer is inside its frame. -/
theorem SbwFrame.setSbw (s : State) (u : Sbw) : SbwFrame s { s with sbw := u } :=
  ⟨rfl, rfl, rfl, rfl, rfl, rfl, rfl, rfl, rfl, rfl, rfl, rfl, [], by simp⟩

theorem sinkWrite_frame (bs : List Byte) (s : State) : SbwFrame s (sinkWrite bs s).state := by
  rw [sinkWrite_state]
  exact ⟨rfl, rfl, rfl, rfl, rfl, rfl, rfl, rfl, rfl, rfl, rfl, rfl, _, rfl⟩

/-- A transaction leaves the writer alone. -/
theorem sinkWrite_sbw (bs : List Byte) (s : State) : (sinkWrite bs s).state.sbw = s.sbw := by
  rw [sinkWrite_state]

theorem sbwSinkWrite_frame (bs : List Byte) (s : State) :
    SbwFrame s (sbwSinkWrite bs s).state := by
  have h := sinkWrite_frame bs s
  unfold sbwSinkWrite
  split
  · rename_i s' hs; rwa [hs] at h
  · rename_i f s' hs
    rw [hs] at h
    exact h.trans (.setSbw s' _)

theorem sbwFlushFull_frame (s : State) : SbwFrame s (sbwFlushFull s).state :=
  Ret.andThen_rel (R := SbwFrame) SbwFrame.trans (sbwSinkWrite_frame _ s)
    fun s' _ => .setSbw s' _

theorem sbwPut_frame (b : Byte) (s : State) : SbwFrame s (sbwPut b s).state := by
  unfold sbwPut
  split
  · exact .refl s
  · dsimp only
    split
    · exact (SbwFrame.setSbw s _).trans (sbwFlushFull_frame _)
    · exact .setSbw s _

theorem sbwPutAll_frame (bs : List Byte) (s : State) : SbwFrame s (sbwPutAll bs s).state := by
  induction bs generalizing s with
  | nil => exact .refl s
  | cons b bs ih =>
    exact Ret.andThen_rel (R := SbwFrame) SbwFrame.trans (sbwPut_frame b s) fun s' _ => ih s'

theorem sbwClose_frame (s : State) : SbwFrame s (sbwClose s).state := by
  unfold sbwClose
  split
  · exact .refl s
  · exact Ret.andThen_rel (R := SbwFrame) SbwFrame.trans (sbwSinkWrite_frame _ s)
      fun s' _ => .setSbw s' _

theorem sbwOpen_frame (s : State) : SbwFrame s (sbwOpen s) := .setSbw s _

/-! ### The writer stays sound -/

/-- The writer and the transactions of a state are sound. -/
structure OutSound (s : State) : Prop where
  sbw : SbwSound s.sbw
  txs : ∀ t ∈ s.sink.txs, t.sound

theorem sinkWrite_sound {bs : List Byte} (hbs : bs ≠ []) {s : State}
    (h : ∀ t ∈ s.sink.txs, t.sound) : ∀ t ∈ (sinkWrite bs s).state.sink.txs, t.sound := by
  rw [sinkWrite_state]
  intro t ht
  rcases List.mem_append.1 ht with ht | ht
  · exact h t ht
  · rw [List.mem_singleton.1 ht]; exact Tx.sound_of_answer hbs s.sink

/-- A transaction of the writer with `data` of at most 255 bytes: if it fails, the writer is
soundly FAILED with that failure and its data is kept; if not, only the transaction is new. -/
theorem sbwSinkWrite_sound {bs : List Byte} (hbs : bs ≠ []) {s : State}
    (hlen : s.sbw.data.length ≤ 255) (h : ∀ t ∈ s.sink.txs, t.sound) :
    (∀ t ∈ (sbwSinkWrite bs s).state.sink.txs, t.sound) ∧
      (∀ t, sbwSinkWrite bs s = .ok t → t.sbw = s.sbw) ∧
      (∀ f t, sbwSinkWrite bs s = .fail f t →
        t.sbw = { s.sbw with st := .failed f } ∧ SbwSound t.sbw ∧ f.sound) := by
  have h1 := sinkWrite_sound hbs h
  have h2 := sinkWrite_sbw bs s
  unfold sbwSinkWrite
  split
  · rename_i s' hs
    rw [hs] at h1 h2
    exact ⟨h1, fun t ht => (by cases ht; exact h2), fun f t ht => by cases ht⟩
  · rename_i f s' hs
    have hf := sinkWrite_failure_sound hs
    rw [hs] at h1 h2
    simp only [Ret.state_fail] at h1 h2
    refine ⟨h1, fun t ht => (by cases ht), fun g t ht => ?_⟩
    cases ht
    refine ⟨by rw [h2], ?_, hf.2⟩
    simp only [SbwSound]
    exact ⟨by rw [h2]; exact hlen, hf⟩

theorem sbwCheck_sound {s : State} (h : SbwSound s.sbw) {f : Failure}
    (hf : sbwCheck s = some f) : f.sound := by
  unfold sbwCheck at hf
  unfold SbwSound at h
  split at hf <;> simp_all
  subst hf
  exact fun _ => rfl

theorem sbwCheck_none {s : State} : sbwCheck s = none ↔ s.sbw.st = .writable := by
  unfold sbwCheck
  split <;> simp_all

/-- SbwPut keeps a sound writer, and its failure is sound. -/
theorem sbwPut_sound (b : Byte) {s : State} (h : OutSound s) :
    OutSound (sbwPut b s).state ∧ ∀ f t, sbwPut b s = .fail f t → f.sound := by
  unfold sbwPut
  split
  · rename_i f hf
    exact ⟨h, fun g t ht => by cases ht; exact sbwCheck_sound h.sbw hf⟩
  · rename_i hw
    rw [sbwCheck_none] at hw
    have hlen : s.sbw.data.length ≤ 254 := by
      have := h.sbw
      rwa [SbwSound, hw] at this
    dsimp only
    split
    · rename_i hfull
      have hk := sbwSinkWrite_sound
        (bs := State.fillByte { s with sbw.data := s.sbw.data ++ [b] } :: (s.sbw.data ++ [b]))
        (by simp) (s := { s with sbw.data := s.sbw.data ++ [b] }) (by simp; omega) h.txs
      unfold sbwFlushFull
      cases hr : sbwSinkWrite
          (State.fillByte { s with sbw.data := s.sbw.data ++ [b] } :: (s.sbw.data ++ [b]))
          { s with sbw.data := s.sbw.data ++ [b] } with
      | ok t =>
        rw [hr] at hk
        refine ⟨⟨?_, hk.1⟩, fun f u hu => by simp at hu⟩
        have ht := hk.2.1 t rfl
        simp [SbwSound, ht, hw]
      | fail f t =>
        rw [hr] at hk
        have ht := hk.2.2 f t rfl
        exact ⟨⟨ht.2.1, hk.1⟩, fun g u hu => by simp at hu; rw [← hu.1]; exact ht.2.2⟩
    · rename_i hnf
      refine ⟨⟨?_, h.txs⟩, fun f t ht => by cases ht⟩
      simp only [Ret.state_ok, SbwSound, hw, List.length_append, List.length_singleton] at hnf ⊢
      omega

theorem sbwPutAll_sound (bs : List Byte) {s : State} (h : OutSound s) :
    OutSound (sbwPutAll bs s).state ∧ ∀ f t, sbwPutAll bs s = .fail f t → f.sound := by
  induction bs generalizing s with
  | nil => exact ⟨h, fun f t ht => by cases ht⟩
  | cons b bs ih =>
    have hb := sbwPut_sound b h
    rw [sbwPutAll]
    cases hr : sbwPut b s with
    | ok t => rw [hr] at hb; exact ih hb.1
    | fail f t => rw [hr] at hb; exact ⟨hb.1, fun g u hu => by cases hu; exact hb.2 f t rfl⟩

theorem closeBytes_ne_nil (s : State) : closeBytes s ≠ [] := by
  unfold closeBytes
  split <;> simp

/-- SbwClose keeps a sound writer, and its failure is sound. -/
theorem sbwClose_sound {s : State} (h : OutSound s) :
    OutSound (sbwClose s).state ∧ ∀ f t, sbwClose s = .fail f t → f.sound := by
  unfold sbwClose
  split
  · rename_i f hf
    exact ⟨h, fun g t ht => by cases ht; exact sbwCheck_sound h.sbw hf⟩
  · rename_i hw
    rw [sbwCheck_none] at hw
    have hlen : s.sbw.data.length ≤ 254 := by
      have := h.sbw
      rwa [SbwSound, hw] at this
    have hk := sbwSinkWrite_sound (closeBytes_ne_nil s) (s := s) (by omega) h.txs
    cases hr : sbwSinkWrite (closeBytes s) s with
    | ok t =>
      rw [hr] at hk
      exact ⟨⟨rfl, hk.1⟩, fun f u hu => by cases hu⟩
    | fail f t =>
      rw [hr] at hk
      have ht := hk.2.2 f t rfl
      exact ⟨⟨ht.2.1, hk.1⟩, fun g u hu => by cases hu; exact ht.2.2⟩

/-! ### Success against an accepting sink -/

/-- A WRITABLE writer in front of a sink that accepts everything. -/
structure OutReady (s : State) : Prop where
  writable  : s.sbw.st = .writable
  accepting : s.sink.accepting

theorem sbwSinkWrite_accepting {s : State} (h : s.sink.accepting) (bs : List Byte) :
    sbwSinkWrite bs s = .ok { s with
      sink := s.sink.record bs (bs.length, none), seq.accepted := s.seq.accepted + bs.length } := by
  unfold sbwSinkWrite
  rw [sinkWrite_accepting h]

/-- SbwPut succeeds and stays ready. -/
theorem sbwPut_ready (b : Byte) {s : State} (h : OutReady s) :
    ∃ t, sbwPut b s = .ok t ∧ OutReady t := by
  unfold sbwPut
  rw [sbwCheck_none.2 h.writable]
  dsimp only
  split
  · unfold sbwFlushFull
    rw [sbwSinkWrite_accepting (s := { s with sbw.data := s.sbw.data ++ [b] }) h.accepting]
    exact ⟨_, rfl, h.writable, Sink.record_accepting h.accepting _ _⟩
  · exact ⟨_, rfl, h.writable, h.accepting⟩

theorem sbwPutAll_ready (bs : List Byte) {s : State} (h : OutReady s) :
    ∃ t, sbwPutAll bs s = .ok t ∧ OutReady t := by
  induction bs generalizing s with
  | nil => exact ⟨s, rfl, h⟩
  | cons b bs ih =>
    obtain ⟨t, ht, hr⟩ := sbwPut_ready b h
    obtain ⟨u, hu, hr'⟩ := ih hr
    exact ⟨u, by rw [sbwPutAll, ht, Ret.andThen_ok, hu], hr'⟩

/-- SbwClose succeeds: one transaction, then CLOSED with nothing buffered. -/
theorem sbwClose_ready {s : State} (h : OutReady s) :
    sbwClose s = .ok { s with
      sbw := { st := .closed, data := [] }
      sink := s.sink.record (closeBytes s) ((closeBytes s).length, none)
      seq.accepted := s.seq.accepted + (closeBytes s).length } := by
  unfold sbwClose
  rw [sbwCheck_none.2 h.writable]
  dsimp only
  rw [sbwSinkWrite_accepting h.accepting]
  rfl

theorem sbwOpen_ready {s : State} (h : s.sink.accepting) : OutReady (sbwOpen s) := ⟨rfl, h⟩

end Sys2Proof.Machine
end

