-- ==== Sys2Proof/Laws/Lzw.lean ====
section
/-!
SUPPORT. What the operations of the LZW unit can do, said once: their frames, that they keep a
sound unit, and that in front of a ready writer they succeed (42_lzw.md R230–R246).
-/

namespace Sys2Proof.Machine

/-! ### Frames -/

/-- What no operation of the LZW unit touches; transactions are only added. -/
structure LzwFrame (s t : State) : Prop where
  csr        : t.csr = s.csr
  gct        : t.gct = s.gct
  imem       : t.imem = s.imem
  imemSize   : t.imemSize = s.imemSize
  host       : t.host = s.host
  inReset    : t.inReset = s.inReset
  draws      : t.draws = s.draws
  cmd        : t.seq.cmd = s.seq.cmd
  framesDone : t.seq.framesDone = s.seq.framesDone
  onward     : t.sink.onward = s.sink.onward
  grows      : ∃ new, t.sink.txs = s.sink.txs ++ new

theorem SbwFrame.toLzw {s t : State} (h : SbwFrame s t) : LzwFrame s t :=
  ⟨h.csr, h.gct, h.imem, h.imemSize, h.host, h.inReset, h.draws, h.cmd, h.framesDone,
    h.onward, h.grows⟩

theorem LzwFrame.refl (s : State) : LzwFrame s s := (SbwFrame.refl s).toLzw

theorem LzwFrame.trans {a b c : State} (h : LzwFrame a b) (k : LzwFrame b c) : LzwFrame a c := by
  obtain ⟨x, hx⟩ := h.grows
  obtain ⟨y, hy⟩ := k.grows
  exact ⟨k.csr.trans h.csr, k.gct.trans h.gct, k.imem.trans h.imem,
    k.imemSize.trans h.imemSize, k.host.trans h.host, k.inReset.trans h.inReset,
    k.draws.trans h.draws, k.cmd.trans h.cmd, k.framesDone.trans h.framesDone,
    k.onward.trans h.onward, x ++ y, by rw [hy, hx, List.append_assoc]⟩

/-- Setting the unit is inside its frame. -/
theorem LzwFrame.setLzw (s : State) (u : Lzw) : LzwFrame s { s with lzw := u } :=
  ⟨rfl, rfl, rfl, rfl, rfl, rfl, rfl, rfl, rfl, rfl, [], by simp⟩

/-- Counting a delivered byte is inside the frame. -/
theorem LzwFrame.setDelivered (s : State) (n : Nat) :
    LzwFrame s { s with seq.delivered := n } :=
  ⟨rfl, rfl, rfl, rfl, rfl, rfl, rfl, rfl, rfl, rfl, [], by simp⟩

theorem lzwOpen_frame (lit : Nat) (s : State) : LzwFrame s (lzwOpen lit s) := .setLzw s _

theorem lzwPut_frame (b : Byte) (s : State) : LzwFrame s (lzwPut b s).state := by
  have h := (sbwPut_frame b s).toLzw
  unfold lzwPut
  split
  · rename_i s' hs; rw [hs] at h; exact h.trans (.setDelivered s' _)
  · rename_i f s' hs; rw [hs] at h; exact h.trans (.setLzw s' _)

theorem drainBits_frame (fuel : Nat) (s : State) : LzwFrame s (drainBits fuel s).state := by
  induction fuel generalizing s with
  | zero => exact .refl s
  | succ n ih =>
    rw [drainBits]
    split
    · exact Ret.andThen_rel (R := LzwFrame) LzwFrame.trans (lzwPut_frame _ s)
        fun s' _ => (LzwFrame.setLzw s' _).trans (ih _)
    · exact .refl s

theorem emitCode_frame (c : Code) (s : State) : LzwFrame s (emitCode c s).state :=
  (LzwFrame.setLzw s _).trans (drainBits_frame _ _)

/-- The state IncHi leaves. -/
def HiRet.state : HiRet → State
  | .ok s => s
  | .outOfCodes s => s
  | .fail _ s => s

theorem tableFull_frame (s : State) : LzwFrame s (tableFull s).state := by
  have h := emitCode_frame (clearCode s.lzw.lit) s
  unfold tableFull
  split
  · rename_i f s' hs; rw [hs] at h; exact h
  · rename_i s' hs; rw [hs] at h; exact h.trans (.setLzw s' _)

theorem incHi_frame (s : State) : LzwFrame s (incHi s).state := by
  unfold incHi
  dsimp only
  split
  · exact (LzwFrame.setLzw s _).trans (tableFull_frame _)
  · exact .setLzw s _

theorem lzwLoop_frame (bs : List Byte) (c : Code) (s : State) :
    LzwFrame s (lzwLoop bs c s).state := by
  induction bs generalizing c s with
  | nil => exact .setLzw s _
  | cons x xs ih =>
    rw [lzwLoop]
    split
    · exact ih _ s
    · refine Ret.andThen_rel (R := LzwFrame) LzwFrame.trans (emitCode_frame c s) fun s' _ => ?_
      have h := incHi_frame s'
      split
      · rename_i f s'' hs; rw [hs] at h; exact h
      · rename_i s'' hs; rw [hs] at h; exact h.trans (ih _ _)
      · rename_i s'' hs; rw [hs] at h; exact h.trans ((LzwFrame.setLzw s'' _).trans (ih _ _))

theorem lzwWrite_frame (bs : List Byte) (s : State) : LzwFrame s (lzwWrite bs s).state := by
  unfold lzwWrite
  split
  · exact .refl s
  · split
    · exact .refl s
    · split
      · split
        · exact lzwLoop_frame _ _ s
        · exact lzwLoop_frame _ _ s
      · exact .setLzw s _

theorem lzwFlushSaved_frame (s : State) : LzwFrame s (lzwFlushSaved s).state := by
  unfold lzwFlushSaved
  split
  · exact .refl s
  · refine Ret.andThen_rel (R := LzwFrame) LzwFrame.trans (emitCode_frame _ s) fun s' _ => ?_
    have h := incHi_frame s'
    split <;> rename_i hs <;> rw [hs] at h <;> exact h

theorem lzwFlushBits_frame (s : State) : LzwFrame s (lzwFlushBits s).state := by
  unfold lzwFlushBits
  split
  · exact lzwPut_frame _ s
  · exact .refl s

theorem lzwClose_frame (s : State) : LzwFrame s (lzwClose s).state := by
  unfold lzwClose
  split
  · exact .refl s
  · exact .refl s
  · refine Ret.andThen_rel (R := LzwFrame) LzwFrame.trans (lzwFlushSaved_frame s) fun s1 _ => ?_
    refine Ret.andThen_rel (R := LzwFrame) LzwFrame.trans (emitCode_frame _ s1) fun s2 _ => ?_
    exact Ret.andThen_rel (R := LzwFrame) LzwFrame.trans (lzwFlushBits_frame s2)
      fun s3 _ => .setLzw s3 _

/-! ### The unit stays sound -/

theorem lzwPut_lzw (b : Byte) (s : State) :
    (∀ t, lzwPut b s = .ok t → t.lzw = s.lzw) ∧
      ∀ f t, lzwPut b s = .fail f t → t.lzw = { s.lzw with st := .failed f } := by
  have h := (sbwPut_frame b s).lzw
  unfold lzwPut
  split
  · rename_i s' hs
    rw [hs] at h
    exact ⟨fun t ht => by cases ht; exact h, fun f t ht => by cases ht⟩
  · rename_i f s' hs
    rw [hs] at h
    simp only [Ret.state_fail] at h
    exact ⟨fun t ht => by (cases ht), fun g t ht => by cases ht; rw [h]⟩

theorem lzwPut_sound (b : Byte) {s : State} (h : OutSound s) :
    OutSound (lzwPut b s).state ∧ ∀ f t, lzwPut b s = .fail f t → f.sound := by
  have hp := sbwPut_sound b h
  unfold lzwPut
  split
  · rename_i s' hs
    rw [hs] at hp
    exact ⟨⟨hp.1.sbw, hp.1.txs⟩, fun f t ht => by cases ht⟩
  · rename_i f s' hs
    rw [hs] at hp
    exact ⟨⟨hp.1.sbw, hp.1.txs⟩, fun g t ht => by cases ht; exact hp.2 f s' rfl⟩

/-- No bit of the buffer stands above the pending ones, of which there are at most `m`. -/
structure BitsBelow (u : Lzw) (m : Nat) : Prop where
  count   : u.nbits ≤ m
  noStray : u.bitbuf.toNat < 2 ^ u.nbits

/-- What EmitCode and its loop leave: on success at most 7 bits pending and everything else of
the unit as before; on failure the same with the unit FAILED and at most 19 bits pending
(42_lzw.md R233, R246). -/
def Emitted (s : State) : Ret → Prop
  | .ok t => OutSound t ∧ BitsBelow t.lzw 7 ∧
      t.lzw = { s.lzw with bitbuf := t.lzw.bitbuf, nbits := t.lzw.nbits }
  | .fail f t => OutSound t ∧ f.sound ∧ BitsBelow t.lzw 19 ∧
      t.lzw = { s.lzw with st := .failed f, bitbuf := t.lzw.bitbuf, nbits := t.lzw.nbits }

theorem drainBits_emitted (fuel : Nat) {s : State} (h : OutSound s) (hb : BitsBelow s.lzw 19)
    (hf : s.lzw.nbits ≤ 7 + 8 * fuel) : Emitted s (drainBits fuel s) := by
  induction fuel generalizing s with
  | zero => exact ⟨h, ⟨by omega, hb.noStray⟩, rfl⟩
  | succ n ih =>
    rw [drainBits]
    split
    · rename_i h8
      have hs := lzwPut_sound (s.lzw.bitbuf.setWidth 8) h
      have hl := lzwPut_lzw (s.lzw.bitbuf.setWidth 8) s
      cases hr : lzwPut (s.lzw.bitbuf.setWidth 8) s with
      | fail f t =>
        rw [hr] at hs hl
        have htl := hl.2 f t rfl
        refine ⟨hs.1, hs.2 f t rfl, ?_, ?_⟩
        · rw [htl]; exact ⟨hb.count, hb.noStray⟩
        · rw [htl]
      | ok t =>
        rw [hr] at hs hl
        have htl := hl.1 t rfl
        rw [Ret.andThen_ok]
        have hlt := hb.noStray
        have hc := hb.count
        have hshift : (t.lzw.bitbuf >>> 8).toNat < 2 ^ (t.lzw.nbits - 8) := by
          rw [htl, BitVec.toNat_ushiftRight, Nat.shiftRight_eq_div_pow,
            Nat.div_lt_iff_lt_mul (by decide), ← Nat.pow_add]
          rwa [show s.lzw.nbits - 8 + 8 = s.lzw.nbits by omega]
        have hn : t.lzw.nbits = s.lzw.nbits := by rw [htl]
        have := ih (s := { t with
            lzw.bitbuf := t.lzw.bitbuf >>> 8, lzw.nbits := t.lzw.nbits - 8 })
          ⟨hs.1.sbw, hs.1.txs⟩ ⟨by simp only; omega, hshift⟩ (by simp only; omega)
        revert this
        generalize drainBits n _ = r
        intro this
        cases r with
        | ok u => rw [htl] at this; exact this
        | fail f u => rw [htl] at this; exact this
    · exact ⟨h, ⟨by omega, hb.noStray⟩, rfl⟩

/-- EmitCode of a code that fits the width. -/
theorem emitCode_emitted (c : Code) {s : State} (h : OutSound s) (hb : BitsBelow s.lzw 7)
    (hw : s.lzw.width ≤ 12) (hc : c.toNat < 2 ^ s.lzw.width) : Emitted s (emitCode c s) := by
  have hcount := hb.count
  have hor : (s.lzw.bitbuf ||| (c.setWidth 32 <<< s.lzw.nbits)).toNat <
      2 ^ (s.lzw.nbits + s.lzw.width) := by
    rw [BitVec.toNat_or]
    apply Nat.or_lt_two_pow
    · exact Nat.lt_of_lt_of_le hb.noStray (Nat.pow_le_pow_right (by decide) (by omega))
    · rw [BitVec.toNat_shiftLeft]
      refine Nat.lt_of_le_of_lt (Nat.mod_le _ _) ?_
      rw [Nat.shiftLeft_eq, Nat.pow_add, Nat.mul_comm (2 ^ s.lzw.nbits)]
      refine (Nat.mul_lt_mul_right (Nat.two_pow_pos _)).2 ?_
      rw [BitVec.toNat_setWidth]
      exact Nat.lt_of_le_of_lt (Nat.mod_le _ _) hc
  unfold emitCode
  dsimp only
  have := drainBits_emitted (s.lzw.nbits + s.lzw.width)
    (s := { s with
      lzw.bitbuf := s.lzw.bitbuf ||| (c.setWidth 32 <<< s.lzw.nbits)
      lzw.nbits := s.lzw.nbits + s.lzw.width })
    ⟨h.sbw, h.txs⟩ ⟨by simp only; omega, hor⟩ (by simp only; omega)
  revert this
  generalize drainBits _ _ = r
  intro this
  cases r with
  | ok u => exact this
  | fail f u => exact this

/-- The unit is OPEN and sound with `code` as the match so far: what holds around each round of
the LzwWrite loop. -/
structure LzwRound (u : Lzw) (code : Code) : Prop where
  opened : u.st = .opened
  sound  : LzwSound { u with saved := some code }

theorem LzwRound.open {u : Lzw} {c : Code} (h : LzwRound u c) :
    LzwOpenSound { u with saved := some c } := h.sound.whileOpen h.opened

theorem LzwRound.bits {u : Lzw} {c : Code} (h : LzwRound u c) : BitsBelow u 7 :=
  ⟨h.open.fewBits, h.sound.noStray⟩

theorem LzwRound.codeFits {u : Lzw} {c : Code} (h : LzwRound u c) :
    c.toNat < 2 ^ u.width :=
  Nat.lt_of_le_of_lt (h.open.savedCode c rfl) h.open.widthHolds

/-- A sound OPEN unit whatever the code, as long as the code is one in use. -/
theorem LzwRound.withCode {u : Lzw} {c d : Code} (h : LzwRound u c)
    (hd : d.toNat ≤ u.hi.toNat) : LzwRound u d := by
  have ho := h.open
  refine ⟨h.opened, ⟨h.sound.litHigh, h.sound.widthHigh, h.sound.bitsHigh, h.sound.noStray,
    fun _ => ?_, fun hc => ?_, fun f hf => ?_⟩⟩
  · exact ⟨ho.litLow, ho.hiLow, ho.hiHigh, ho.widthLow, ho.widthHolds, ho.widthLeast,
      ho.fewBits, fun e he => by cases he; exact hd, ho.dictCodes, ho.dictKeys⟩
  · exact absurd (h.opened.symm.trans hc) (by simp)
  · exact absurd (h.opened.symm.trans hf) (by simp)

/-- New pending bits leave the round's facts. -/
theorem LzwRound.withBits {u : Lzw} {c : Code} (h : LzwRound u c) {b : BitVec 32} {n : Nat}
    (hb : BitsBelow { u with bitbuf := b, nbits := n } 7) :
    LzwRound { u with bitbuf := b, nbits := n } c := by
  have ho := h.open
  have hc := hb.count
  refine ⟨h.opened, ⟨h.sound.litHigh, h.sound.widthHigh, ?_, hb.noStray,
    fun _ => ?_, fun hc => ?_, fun f hf => ?_⟩⟩
  · simp only at hc ⊢; omega
  · exact ⟨ho.litLow, ho.hiLow, ho.hiHigh, ho.widthLow, ho.widthHolds, ho.widthLeast,
      hb.count, ho.savedCode, ho.dictCodes, ho.dictKeys⟩
  · exact absurd (h.opened.symm.trans hc) (by simp)
  · exact absurd (h.opened.symm.trans hf) (by simp)

/-- A FAILED unit whose fields are in range is sound. -/
theorem LzwSound.ofFailed {u : Lzw} {f : Failure} (hst : u.st = .failed f) (hf : f.sound)
    (hlit : u.lit ≤ 8) (hw : u.width ≤ 12) (hb : BitsBelow u 19) : LzwSound u := by
  refine ⟨hlit, hw, hb.count, hb.noStray, fun h => ?_, fun h => ?_, fun g h => ?_⟩
  · rw [hst] at h; cases h
  · rw [hst] at h; cases h
  · rw [hst] at h; cases h; exact hf

theorem pow_lit_le {lit : Nat} (h : lit ≤ 8) : 2 ^ lit ≤ 256 :=
  Nat.pow_le_pow_right (by decide) h

theorem eoiCode_toNat {lit : Nat} (h : lit ≤ 8) : (eoiCode lit).toNat = 2 ^ lit + 1 := by
  have := pow_lit_le h
  rw [eoiCode, BitVec.toNat_ofNat]
  exact Nat.mod_eq_of_lt (by omega)

theorem clearCode_toNat {lit : Nat} (h : lit ≤ 8) : (clearCode lit).toNat = 2 ^ lit := by
  have := pow_lit_le h
  rw [clearCode, BitVec.toNat_ofNat]
  exact Nat.mod_eq_of_lt (by omega)

theorem literalCode_toNat (b : Byte) : (literalCode b).toNat = b.toNat := by
  rw [literalCode, BitVec.toNat_setWidth]
  exact Nat.mod_eq_of_lt (by have := b.isLt; omega)

/-- A fresh unit, whatever its pending bits, is OPEN and sound (42_lzw.md R231, R236). -/
theorem LzwSound.ofFresh {u : Lzw} (hst : u.st = .opened) (hlo : 2 ≤ u.lit) (hhi : u.lit ≤ 8)
    (hw : u.width = u.lit + 1) (hh : u.hi = eoiCode u.lit) (hd : u.dict = [])
    (hb : BitsBelow u 7) (hs : ∀ c, u.saved = some c → c.toNat ≤ 2 ^ u.lit + 1) :
    LzwSound u := by
  have he := eoiCode_toNat hhi
  have hp := pow_lit_le hhi
  have hp2 : 2 ^ 2 ≤ 2 ^ u.lit := Nat.pow_le_pow_right (by decide) hlo
  have hc := hb.count
  refine ⟨hhi, by omega, by omega, hb.noStray, fun _ => ?_, fun h => ?_, fun g h => ?_⟩
  · refine ⟨hlo, ?_, ?_, by omega, ?_, ?_, hb.count, ?_, ?_, ?_⟩
    · exact Nat.le_of_eq (by rw [hh, he])
    · rw [hh, he]; omega
    · rw [hh, he, hw, Nat.pow_succ]; omega
    · intro w h1 _; omega
    · intro c h; rw [hh, he]; exact hs c h
    · rw [hd]; simp
    · rw [hd]; exact List.Pairwise.nil
  · rw [hst] at h; cases h
  · rw [hst] at h; cases h

theorem lzwOpen_sound {lit : Nat} (hlo : 2 ≤ lit) (hhi : lit ≤ 8) (s : State) :
    LzwSound (lzwOpen lit s).lzw :=
  .ofFresh rfl hlo hhi rfl rfl rfl ⟨by simp, by simp⟩ (fun c h => by simp at h)

/-- What IncHi leaves when the unit is in a round (42_lzw.md R234, R236): the next code number
with the least width that holds it; or, at 4095, a fresh code space; or a failure. -/
def Advanced (s : State) : HiRet → Prop
  | .ok t => OutSound t ∧ t.lzw.hi.toNat = s.lzw.hi.toNat + 1 ∧ t.lzw.lit = s.lzw.lit ∧
      t.lzw.dict = s.lzw.dict ∧ (∀ c : Code, c.toNat ≤ t.lzw.hi.toNat → LzwRound t.lzw c)
  | .outOfCodes t => OutSound t ∧ t.lzw.lit = s.lzw.lit ∧
      (∀ c : Code, c.toNat ≤ 2 ^ s.lzw.lit + 1 → LzwRound t.lzw c)
  | .fail f t => OutSound t ∧ f.sound ∧ LzwSound t.lzw

theorem tableFull_advanced {s : State} (h : OutSound s) (hst : s.lzw.st = .opened)
    (hlo : 2 ≤ s.lzw.lit) (hhi : s.lzw.lit ≤ 8) (hw : s.lzw.width = 12)
    (hb : BitsBelow s.lzw 7) :
    match tableFull s with
    | .ok _ => False
    | .outOfCodes t => Advanced s (.outOfCodes t)
    | .fail f t => Advanced s (.fail f t) := by
  have hp := pow_lit_le hhi
  have he := emitCode_emitted (clearCode s.lzw.lit) h hb (by omega)
    (by rw [clearCode_toNat hhi, hw]; omega)
  unfold tableFull
  cases hr : emitCode (clearCode s.lzw.lit) s with
  | ok t =>
    rw [hr] at he
    obtain ⟨ho, hbt, hl⟩ := he
    have hlit : t.lzw.lit = s.lzw.lit := by rw [hl]
    have hop : t.lzw.st = .opened := by rw [hl]; exact hst
    refine ⟨⟨ho.sbw, ho.txs⟩, hlit, fun c hc => ⟨hop, ?_⟩⟩
    refine .ofFresh hop ?_ ?_ rfl rfl rfl ⟨hbt.count, hbt.noStray⟩ ?_
    · simp only; omega
    · simp only; omega
    · intro d hd; cases hd; simp only [hlit]; exact hc
  | fail f t =>
    rw [hr] at he
    obtain ⟨ho, hf, hbt, hl⟩ := he
    exact ⟨ho, hf, .ofFailed (by rw [hl]) hf (by rw [hl]; exact hhi) (by rw [hl]; simp only; omega) hbt⟩

theorem toNat_succ {c : Code} (h : c.toNat ≤ 4094) : (c + 1).toNat = c.toNat + 1 := by
  have h1 : (1 : Code).toNat = 1 := rfl
  rw [BitVec.toNat_add, h1]
  omega

/-- A counter that is not yet full, advanced with the width rule, keeps the round's facts
(42_lzw.md R234). -/
theorem LzwRound.advance {u : Lzw} {code c : Code} (h : LzwRound u code)
    (hlt : u.hi.toNat + 1 ≤ 4094) (hc : c.toNat ≤ u.hi.toNat + 1) :
    LzwRound { u with
      hi := u.hi + 1
      width := if (u.hi + 1).toNat = 2 ^ u.width then u.width + 1 else u.width } c := by
  have ho := h.open
  have hs := toNat_succ (c := u.hi) (by omega)
  have h1 := ho.hiLow
  have h2 := ho.widthHolds
  have h3 := ho.widthLow
  have h4 := h.sound.widthHigh
  simp only at h1 h2 h3 h4
  have hgrow : (u.hi + 1).toNat = 2 ^ u.width → u.width ≤ 11 := by
    intro he
    rcases Nat.lt_or_ge u.width 12 with hlt' | hge
    · omega
    · exfalso
      have : u.width = 12 := by omega
      rw [this, hs] at he
      omega
  refine ⟨h.opened, ⟨h.sound.litHigh, ?_, h.sound.bitsHigh, h.sound.noStray,
    fun _ => ?_, fun hcl => ?_, fun f hf => ?_⟩⟩
  · simp only
    split
    · rename_i he; have := hgrow he; omega
    · exact h4
  · refine ⟨ho.litLow, ?_, ?_, ?_, ?_, ?_, ho.fewBits, ?_, ?_, ho.dictKeys⟩
    · simp only [hs]; omega
    · simp only [hs]; omega
    · simp only; split <;> omega
    · simp only
      split
      · rename_i he; rw [he, Nat.pow_succ]; have := Nat.two_pow_pos u.width; omega
      · rename_i he; rw [hs] at he ⊢; omega
    · intro w hw1 hw2
      simp only at hw1 hw2 ⊢
      have hw3 : u.width ≤ w := ho.widthLeast w hw1 (by simp only; omega)
      split
      · rename_i he
        rcases Nat.lt_or_ge u.width w with hlt' | hge
        · omega
        · have : w = u.width := by omega
          rw [this, he] at hw2
          omega
      · exact hw3
    · intro d hd; cases hd; simp only [hs]; exact hc
    · intro e he
      have := ho.dictCodes e he
      simp only [hs] at this ⊢
      omega
  · exact absurd (h.opened.symm.trans hcl) (by simp)
  · exact absurd (h.opened.symm.trans hf) (by simp)

theorem incHi_advanced {s : State} {code : Code} (h : OutSound s) (hr : LzwRound s.lzw code) :
    Advanced s (incHi s) := by
  have ho := hr.open
  have hhi := ho.hiHigh
  have hs := toNat_succ (c := s.lzw.hi) (by simpa using hhi)
  unfold incHi
  dsimp only
  split
  · rename_i hfull
    have h3 : s.lzw.hi.toNat = 4094 := by omega
    have hw : s.lzw.width = 12 := by
      have h1 := ho.widthHolds
      have h2 := hr.sound.widthHigh
      simp only at h1 h2
      rcases Nat.lt_or_ge s.lzw.width 12 with hlt | hge
      · have : 2 ^ s.lzw.width ≤ 2 ^ 11 := Nat.pow_le_pow_right (by decide) (by omega)
        omega
      · omega
    have hne : ¬ (s.lzw.hi + 1).toNat = 2 ^ s.lzw.width := by rw [hs, h3, hw]; decide
    have := tableFull_advanced
      (s := { s with
        lzw.hi := s.lzw.hi + 1
        lzw.width := if (s.lzw.hi + 1).toNat = 2 ^ s.lzw.width then s.lzw.width + 1
          else s.lzw.width })
      ⟨h.sbw, h.txs⟩ hr.opened ho.litLow hr.sound.litHigh (by simp only [if_neg hne]; exact hw)
      ⟨hr.bits.count, hr.bits.noStray⟩
    revert this
    generalize tableFull _ = r
    intro this
    cases r with
    | ok t => exact this.elim
    | outOfCodes t => exact this
    | fail f t => exact this
  · rename_i hnf
    have hlt : s.lzw.hi.toNat + 1 ≤ 4094 := by simp only at hhi; omega
    exact ⟨⟨h.sbw, h.txs⟩, hs, rfl, rfl, fun c hc => hr.advance hlt (by simp only [hs] at hc; exact hc)⟩

theorem dictFind_some {d : List DictEntry} {st : Code} {b : Byte} {c : Code}
    (h : dictFind d st b = some c) : ∃ e ∈ d, e.stem = st ∧ e.byte = b ∧ e.code = c := by
  unfold dictFind at h
  obtain ⟨e, he, rfl⟩ := Option.map_eq_some_iff.1 h
  have hp := List.find?_some he
  simp only [Bool.and_eq_true, beq_iff_eq] at hp
  exact ⟨e, List.mem_of_find?_eq_some he, hp.1, hp.2, rfl⟩

theorem dictFind_none {d : List DictEntry} {st : Code} {b : Byte} (h : dictFind d st b = none) :
    ∀ e ∈ d, ¬(e.stem = st ∧ e.byte = b) := by
  unfold dictFind at h
  rw [Option.map_eq_none_iff, List.find?_eq_none] at h
  intro e he hk
  exact h e he (by simp [hk.1, hk.2])

/-- Inserting the entry of the string just left (42_lzw.md R235) keeps the round's facts. -/
theorem LzwRound.insert {u : Lzw} {c : Code} (h : LzwRound u c) {stem : Code} {x : Byte}
    (hhi : 2 ^ u.lit + 2 ≤ u.hi.toNat) (hnew : ∀ e ∈ u.dict, ¬(e.stem = stem ∧ e.byte = x))
    (hlow : ∀ e ∈ u.dict, e.code.toNat < u.hi.toNat) :
    LzwRound { u with dict := { stem := stem, byte := x, code := u.hi } :: u.dict } c := by
  have ho := h.open
  refine ⟨h.opened, ⟨h.sound.litHigh, h.sound.widthHigh, h.sound.bitsHigh, h.sound.noStray,
    fun _ => ?_, fun hc => ?_, fun f hf => ?_⟩⟩
  · refine ⟨ho.litLow, ho.hiLow, ho.hiHigh, ho.widthLow, ho.widthHolds, ho.widthLeast,
      ho.fewBits, ho.savedCode, fun e he => ?_, ?_⟩
    · rcases List.mem_cons.1 he with rfl | he
      · exact ⟨hhi, Nat.le_refl _⟩
      · exact ho.dictCodes e he
    · exact List.pairwise_cons.2 ⟨fun e he => ⟨hlow e he, hnew e he⟩, ho.dictKeys⟩
  · exact absurd (h.opened.symm.trans hc) (by simp)
  · exact absurd (h.opened.symm.trans hf) (by simp)

/-- The result of an LZW operation on a sound unit: a sound unit, and a sound failure. -/
def LzwKept : Ret → Prop
  | .ok t => OutSound t ∧ LzwSound t.lzw
  | .fail f t => OutSound t ∧ LzwSound t.lzw ∧ f.sound

theorem LzwKept.ofFailedEmit {s : State} {c : Code} {f : Failure} {t : State}
    (hr : LzwRound s.lzw c) (he : Emitted s (.fail f t)) : LzwKept (.fail f t) := by
  obtain ⟨ho, hf, hb, hl⟩ := he
  exact ⟨ho, .ofFailed (by rw [hl]) hf (by rw [hl]; exact hr.sound.litHigh)
    (by rw [hl]; exact hr.sound.widthHigh) hb, hf⟩

theorem Emitted.round {s : State} {c : Code} {t : State} (hr : LzwRound s.lzw c)
    (he : Emitted s (.ok t)) : LzwRound t.lzw c := by
  obtain ⟨-, hb, hl⟩ := he
  rw [hl]
  exact hr.withBits (by rw [hl] at hb; exact hb)

/-- The LzwWrite loop keeps a sound unit (42_lzw.md R237). -/
theorem lzwLoop_kept (bs : List Byte) {c : Code} {s : State} (h : OutSound s)
    (hr : LzwRound s.lzw c) (hfit : ∀ b ∈ bs, b.toNat ≤ 2 ^ s.lzw.lit - 1) :
    LzwKept (lzwLoop bs c s) := by
  induction bs generalizing c s with
  | nil => exact ⟨⟨h.sbw, h.txs⟩, hr.sound⟩
  | cons x xs ih =>
    have hxs : ∀ b ∈ xs, b.toNat ≤ 2 ^ s.lzw.lit - 1 := fun b hb => hfit b (by simp [hb])
    have hx : x.toNat ≤ 2 ^ s.lzw.lit - 1 := hfit x (by simp)
    rw [lzwLoop]
    split
    · rename_i longer hfound
      obtain ⟨e, he, -, -, rfl⟩ := dictFind_some hfound
      exact ih h (hr.withCode (hr.open.dictCodes e he).2) hxs
    · rename_i hmiss
      have he := emitCode_emitted c h hr.bits hr.sound.widthHigh hr.codeFits
      cases hem : emitCode c s with
      | fail f t => rw [hem] at he; exact .ofFailedEmit hr he
      | ok t =>
        rw [hem] at he
        have hrt := he.round hr
        obtain ⟨hot, -, hl⟩ := he
        have hlit : t.lzw.lit = s.lzw.lit := by rw [hl]
        have hdict : t.lzw.dict = s.lzw.dict := by rw [hl]
        have hadv := incHi_advanced hot hrt
        rw [Ret.andThen_ok]
        have hxn := literalCode_toNat x
        cases hin : incHi t with
        | fail f u =>
          rw [hin] at hadv
          exact ⟨hadv.1, hadv.2.2, hadv.2.1⟩
        | outOfCodes u =>
          rw [hin] at hadv
          obtain ⟨hou, hul, hround⟩ := hadv
          refine ih hou (hround _ ?_) ?_
          · have := Nat.two_pow_pos s.lzw.lit
            rw [hxn, hlit]; omega
          · rw [hul, hlit]; exact hxs
        | ok u =>
          rw [hin] at hadv
          obtain ⟨hou, huh, hul, hud, hround⟩ := hadv
          have hlo := hrt.open.hiLow
          have hcodes := hrt.open.dictCodes
          simp only at hlo hcodes
          refine ih ⟨hou.sbw, hou.txs⟩ ((hround (literalCode x) ?_).insert ?_ ?_ ?_) ?_
          · rw [hxn, huh]; rw [← hlit] at hx; omega
          · rw [huh, hul]; omega
          · rw [hud, hdict]; exact dictFind_none hmiss
          · rw [hud, huh]
            intro e he
            have := (hcodes e he).2
            omega
          · simp only [hul, hlit]; exact hxs

theorem lzwCheckWrite_none {s : State} : lzwCheckWrite s = none ↔ s.lzw.st = .opened := by
  unfold lzwCheckWrite
  split <;> simp_all

theorem lzwCheckWrite_sound {s : State} (h : LzwSound s.lzw) {f : Failure}
    (hf : lzwCheckWrite s = some f) : f.sound := by
  unfold lzwCheckWrite at hf
  split at hf
  · cases hf
  · rename_i g hg; cases hf; exact h.whenFailed _ hg
  · cases hf; exact fun _ => rfl

theorem literalsFit_iff {lit : Nat} (h : lit ≤ 8) (bs : List Byte) :
    literalsFit lit bs = true ↔ ∀ b ∈ bs, b.toNat ≤ 2 ^ lit - 1 := by
  unfold literalsFit
  rcases Nat.lt_or_ge lit 8 with hlt | hge
  · simp only [Bool.or_eq_true, decide_eq_true_eq, List.all_eq_true]
    exact ⟨fun h => h.resolve_left (by omega), .inr⟩
  · have : lit = 8 := by omega
    subst this
    simp only [Nat.le_refl, decide_true, Bool.true_or, true_iff]
    intro b _
    have := b.isLt
    omega

/-- The unit between operations, as the start of a round with a code that is in use. -/
theorem LzwSound.round {u : Lzw} (h : LzwSound u) (ho : u.st = .opened) {c : Code}
    (hc : c.toNat ≤ u.hi.toNat) : LzwRound u c := by
  have hs := h.whileOpen ho
  refine ⟨ho, ⟨h.litHigh, h.widthHigh, h.bitsHigh, h.noStray, fun _ => ?_, fun hcl => ?_,
    fun f hf => ?_⟩⟩
  · exact ⟨hs.litLow, hs.hiLow, hs.hiHigh, hs.widthLow, hs.widthHolds, hs.widthLeast,
      hs.fewBits, fun d hd => by cases hd; exact hc, hs.dictCodes, hs.dictKeys⟩
  · exact absurd (ho.symm.trans hcl) (by simp)
  · exact absurd (ho.symm.trans hf) (by simp)

/-- LzwWrite keeps a sound unit (42_lzw.md R237, R238). -/
theorem lzwWrite_kept (bs : List Byte) {s : State} (h : OutSound s) (hl : LzwSound s.lzw) :
    LzwKept (lzwWrite bs s) := by
  unfold lzwWrite
  split
  · rename_i f hf
    exact ⟨h, hl, lzwCheckWrite_sound hl hf⟩
  · rename_i hop
    rw [lzwCheckWrite_none] at hop
    have hos := hl.whileOpen hop
    split
    · exact ⟨h, hl⟩
    · rename_i b rest
      split
      · rename_i hfit
        rw [literalsFit_iff hl.litHigh] at hfit
        split
        · rename_i c hsv
          exact lzwLoop_kept _ h (hl.round hop (hos.savedCode c hsv)) hfit
        · refine lzwLoop_kept _ h (hl.round hop ?_) fun x hx => hfit x (by simp [hx])
          have hb := hfit b (by simp)
          have := hos.hiLow
          rw [literalCode_toNat]
          omega
      · refine ⟨⟨h.sbw, h.txs⟩, ?_, fun _ => rfl⟩
        exact .ofFailed (f := .plain .lzwLiteral) rfl (fun _ => rfl) hl.litHigh hl.widthHigh
          ⟨hl.bitsHigh, hl.noStray⟩

/-- The result of the first part of LzwClose on a sound unit. -/
def FlushKept : Ret → Prop
  | .ok t => OutSound t ∧ LzwRound t.lzw (eoiCode t.lzw.lit)
  | .fail f t => OutSound t ∧ LzwSound t.lzw ∧ f.sound

/-- The first part of LzwClose leaves the unit OPEN and in a round, or fails soundly. -/
theorem lzwFlushSaved_kept {s : State} (h : OutSound s) (hl : LzwSound s.lzw)
    (hop : s.lzw.st = .opened) :
    FlushKept (lzwFlushSaved s) := by
  have hos := hl.whileOpen hop
  have heoi := eoiCode_toNat hl.litHigh
  unfold lzwFlushSaved
  split
  · exact ⟨h, hl.round hop (by rw [heoi]; exact hos.hiLow)⟩
  · rename_i c hsv
    have hr := hl.round hop (hos.savedCode c hsv)
    have he := emitCode_emitted c h hr.bits hr.sound.widthHigh hr.codeFits
    cases hem : emitCode c s with
    | fail f t => rw [hem] at he; exact LzwKept.ofFailedEmit hr he
    | ok t =>
      rw [hem] at he
      have hrt := he.round hr
      have hadv := incHi_advanced he.1 hrt
      have hlit : t.lzw.lit = s.lzw.lit := by rw [he.2.2]
      rw [Ret.andThen_ok]
      cases hin : incHi t with
      | fail f u => rw [hin] at hadv; exact ⟨hadv.1, hadv.2.2, hadv.2.1⟩
      | outOfCodes u =>
        rw [hin] at hadv
        obtain ⟨hou, hul, hround⟩ := hadv
        exact ⟨hou, hround _ (Nat.le_of_eq (by rw [hul, hlit, heoi]))⟩
      | ok u =>
        rw [hin] at hadv
        obtain ⟨hou, huh, hul, hud, hround⟩ := hadv
        refine ⟨hou, hround _ ?_⟩
        have hlo := hrt.open.hiLow
        simp only [hlit] at hlo
        rw [hul, hlit, heoi, huh]
        omega

/-- LzwClose keeps a sound unit, CLOSED with nothing pending on success (42_lzw.md R239). -/
theorem lzwClose_kept {s : State} (h : OutSound s) (hl : LzwSound s.lzw) :
    LzwKept (lzwClose s) := by
  unfold lzwClose
  split
  · rename_i f hf; exact ⟨h, hl, hl.whenFailed f hf⟩
  · exact ⟨h, hl⟩
  · rename_i hop
    have h1 := lzwFlushSaved_kept h hl hop
    cases hr1 : lzwFlushSaved s with
    | fail f t => rw [hr1] at h1; exact h1
    | ok s1 =>
      rw [hr1] at h1
      obtain ⟨ho1, hrd1⟩ := h1
      rw [Ret.andThen_ok]
      have he := emitCode_emitted (eoiCode s1.lzw.lit) ho1 hrd1.bits hrd1.sound.widthHigh
        hrd1.codeFits
      cases hr2 : emitCode (eoiCode s1.lzw.lit) s1 with
      | fail f t => rw [hr2] at he; exact LzwKept.ofFailedEmit hrd1 he
      | ok s2 =>
        rw [hr2] at he
        have hrd2 := he.round hrd1
        have ho2 := he.1
        rw [Ret.andThen_ok]
        have hshut : ∀ s3 : State, OutSound s3 → s3.lzw.lit ≤ 8 → s3.lzw.width ≤ 12 →
            LzwKept (.ok (lzwShut s3)) := by
          intro s3 ho3 hlit hw
          refine ⟨⟨ho3.sbw, ho3.txs⟩, hlit, hw, by simp, by simp, ?_, ?_, ?_⟩
          · intro hc; simp at hc
          · intro _; simp
          · intro f hf; simp at hf
        unfold lzwFlushBits
        split
        · have hs := lzwPut_sound (s2.lzw.bitbuf.setWidth 8) ho2
          have hlz := lzwPut_lzw (s2.lzw.bitbuf.setWidth 8) s2
          cases hr3 : lzwPut (s2.lzw.bitbuf.setWidth 8) s2 with
          | fail f t =>
            rw [hr3] at hs hlz
            have ht := hlz.2 f t rfl
            refine ⟨hs.1, ?_, hs.2 f t rfl⟩
            exact .ofFailed (by rw [ht]) (hs.2 f t rfl) (by rw [ht]; exact hrd2.sound.litHigh)
              (by rw [ht]; exact hrd2.sound.widthHigh)
              (by rw [ht]; exact ⟨hrd2.sound.bitsHigh, hrd2.sound.noStray⟩)
          | ok s3 =>
            rw [hr3] at hs hlz
            have ht := hlz.1 s3 rfl
            exact hshut s3 hs.1 (by rw [ht]; exact hrd2.sound.litHigh)
              (by rw [ht]; exact hrd2.sound.widthHigh)
        · exact hshut s2 ho2 hrd2.sound.litHigh hrd2.sound.widthHigh

/-! ### Success in front of a ready writer -/

theorem lzwPut_ready (b : Byte) {s : State} (h : OutReady s) :
    ∃ t, lzwPut b s = .ok t ∧ OutReady t ∧ t.lzw = s.lzw := by
  obtain ⟨t, ht, hr⟩ := sbwPut_ready b h
  have hl := (sbwPut_frame b s).lzw
  rw [ht] at hl
  unfold lzwPut
  rw [ht]
  exact ⟨_, rfl, ⟨hr.writable, hr.accepting⟩, hl⟩

/-- The loop of EmitCode succeeds, and changes only the pending bits of the unit. -/
theorem drainBits_ready (fuel : Nat) {s : State} (h : OutReady s) :
    ∃ t, drainBits fuel s = .ok t ∧ OutReady t ∧
      t.lzw = { s.lzw with bitbuf := t.lzw.bitbuf, nbits := t.lzw.nbits } := by
  induction fuel generalizing s with
  | zero => exact ⟨s, rfl, h, rfl⟩
  | succ n ih =>
    rw [drainBits]
    split
    · obtain ⟨t, ht, hr, hl⟩ := lzwPut_ready (s.lzw.bitbuf.setWidth 8) h
      rw [ht, Ret.andThen_ok]
      obtain ⟨u, hu, hru, hlu⟩ := ih (s := { t with
        lzw.bitbuf := t.lzw.bitbuf >>> 8, lzw.nbits := t.lzw.nbits - 8 })
        ⟨hr.writable, hr.accepting⟩
      exact ⟨u, hu, hru, by rw [hlu, hl]⟩
    · exact ⟨s, rfl, h, rfl⟩

theorem emitCode_ready (c : Code) {s : State} (h : OutReady s) :
    ∃ t, emitCode c s = .ok t ∧ OutReady t ∧
      t.lzw = { s.lzw with bitbuf := t.lzw.bitbuf, nbits := t.lzw.nbits } := by
  obtain ⟨t, ht, hr, hl⟩ := drainBits_ready (s.lzw.nbits + s.lzw.width)
    (s := { s with
      lzw.bitbuf := s.lzw.bitbuf ||| (c.setWidth 32 <<< s.lzw.nbits)
      lzw.nbits := s.lzw.nbits + s.lzw.width }) ⟨h.writable, h.accepting⟩
  exact ⟨t, ht, hr, hl⟩

/-- IncHi does not fail; the unit keeps its state and literal width. -/
theorem incHi_ready {s : State} (h : OutReady s) :
    (∃ t, incHi s = .ok t ∧ OutReady t ∧ t.lzw.st = s.lzw.st ∧ t.lzw.lit = s.lzw.lit) ∨
      ∃ t, incHi s = .outOfCodes t ∧ OutReady t ∧ t.lzw.st = s.lzw.st ∧
        t.lzw.lit = s.lzw.lit := by
  unfold incHi
  dsimp only
  split
  · right
    unfold tableFull
    obtain ⟨t, ht, hr, hl⟩ := emitCode_ready (clearCode s.lzw.lit)
      (s := { s with
        lzw.hi := s.lzw.hi + 1
        lzw.width := if (s.lzw.hi + 1).toNat = 2 ^ s.lzw.width then s.lzw.width + 1
          else s.lzw.width }) ⟨h.writable, h.accepting⟩
    dsimp only
    rw [ht]
    exact ⟨_, rfl, ⟨hr.writable, hr.accepting⟩, by simp only; rw [hl], by simp only; rw [hl]⟩
  · left
    exact ⟨_, rfl, ⟨h.writable, h.accepting⟩, rfl, rfl⟩

theorem lzwLoop_ready (bs : List Byte) (c : Code) {s : State} (h : OutReady s) :
    ∃ t, lzwLoop bs c s = .ok t ∧ OutReady t ∧ t.lzw.st = s.lzw.st ∧
      t.lzw.lit = s.lzw.lit ∧ t.lzw.saved.isSome := by
  induction bs generalizing c s with
  | nil => exact ⟨_, rfl, ⟨h.writable, h.accepting⟩, rfl, rfl, rfl⟩
  | cons x xs ih =>
    rw [lzwLoop]
    split
    · exact ih _ h
    · obtain ⟨t, ht, hr, hl⟩ := emitCode_ready c h
      rw [ht, Ret.andThen_ok]
      have hst : t.lzw.st = s.lzw.st := by rw [hl]
      have hlit : t.lzw.lit = s.lzw.lit := by rw [hl]
      rcases incHi_ready hr with ⟨u, hu, hru, h1, h2⟩ | ⟨u, hu, hru, h1, h2⟩
      · rw [hu]
        obtain ⟨v, hv, hrv, h3, h4, h5⟩ := ih (literalCode x)
          (s := { u with
            lzw.dict := { stem := c, byte := x, code := u.lzw.hi } :: u.lzw.dict })
          ⟨hru.writable, hru.accepting⟩
        exact ⟨v, hv, hrv, h3.trans (h1.trans hst), h4.trans (h2.trans hlit), h5⟩
      · rw [hu]
        obtain ⟨v, hv, hrv, h3, h4, h5⟩ := ih (literalCode x) hru
        exact ⟨v, hv, hrv, h3.trans (h1.trans hst), h4.trans (h2.trans hlit), h5⟩

/-- LzwWrite of literals by an OPEN unit succeeds. -/
theorem lzwWrite_ready {bs : List Byte} {s : State} (h : OutReady s) (hop : s.lzw.st = .opened)
    (hfit : literalsFit s.lzw.lit bs = true) :
    ∃ t, lzwWrite bs s = .ok t ∧ OutReady t ∧ t.lzw.st = .opened ∧ t.lzw.lit = s.lzw.lit ∧
      (bs ≠ [] → t.lzw.saved.isSome) := by
  unfold lzwWrite
  rw [lzwCheckWrite_none.2 hop]
  dsimp only
  cases bs with
  | nil => exact ⟨s, rfl, h, hop, rfl, fun h => absurd rfl h⟩
  | cons b rest =>
    dsimp only
    rw [if_pos hfit]
    split
    · obtain ⟨t, ht, hr, h1, h2, h3⟩ := lzwLoop_ready (b :: rest) _ h
      exact ⟨t, ht, hr, h1.trans hop, h2, fun _ => h3⟩
    · obtain ⟨t, ht, hr, h1, h2, h3⟩ := lzwLoop_ready rest (literalCode b) h
      exact ⟨t, ht, hr, h1.trans hop, h2, fun _ => h3⟩

/-- LzwClose of an OPEN unit succeeds. -/
theorem lzwClose_ready {s : State} (h : OutReady s) (hop : s.lzw.st = .opened) :
    ∃ t, lzwClose s = .ok t ∧ OutReady t ∧ t.lzw.st = .closed ∧ t.lzw.saved = none ∧
      t.lzw.nbits = 0 ∧ t.lzw.bitbuf = 0 ∧ t.lzw.lit = s.lzw.lit := by
  have h1 : ∃ t, lzwFlushSaved s = .ok t ∧ OutReady t ∧ t.lzw.lit = s.lzw.lit := by
    unfold lzwFlushSaved
    split
    · exact ⟨s, rfl, h, rfl⟩
    · obtain ⟨t, ht, hr, hl⟩ := emitCode_ready _ h
      rw [ht, Ret.andThen_ok]
      have hlit : t.lzw.lit = s.lzw.lit := by rw [hl]
      rcases incHi_ready hr with ⟨u, hu, hru, -, h2⟩ | ⟨u, hu, hru, -, h2⟩
      · rw [hu]; exact ⟨u, rfl, hru, h2.trans hlit⟩
      · rw [hu]; exact ⟨u, rfl, hru, h2.trans hlit⟩
  unfold lzwClose
  rw [hop]
  dsimp only
  obtain ⟨s1, hs1, hr1, hl1⟩ := h1
  rw [hs1, Ret.andThen_ok]
  obtain ⟨s2, hs2, hr2, hl2⟩ := emitCode_ready (eoiCode s1.lzw.lit) hr1
  have hlit2 : s2.lzw.lit = s.lzw.lit := by rw [hl2]; exact hl1
  rw [hs2, Ret.andThen_ok]
  unfold lzwFlushBits
  split
  · obtain ⟨s3, hs3, hr3, hl3⟩ := lzwPut_ready (s2.lzw.bitbuf.setWidth 8) hr2
    rw [hs3]
    exact ⟨_, rfl, ⟨hr3.writable, hr3.accepting⟩, rfl, rfl, rfl, rfl, by simp [hl3, hlit2]⟩
  · exact ⟨_, rfl, ⟨hr2.writable, hr2.accepting⟩, rfl, rfl, rfl, rfl, by simp [hlit2]⟩

end Sys2Proof.Machine
end

