-- ==== Sys2Proof/Laws/Pal.lean ====
section
/-!
SUPPORT. The bit-width function and the palette encoder: what they compute
(40_helpers.md R180–R188).
-/

namespace Sys2Proof.Machine

theorem leastPow_spec (n fuel k : Nat) (h : n ≤ 2 ^ (k + fuel)) :
    k ≤ leastPow n fuel k ∧ leastPow n fuel k ≤ k + fuel ∧ n ≤ 2 ^ leastPow n fuel k ∧
      ∀ j, k ≤ j → n ≤ 2 ^ j → leastPow n fuel k ≤ j := by
  induction fuel generalizing k with
  | zero => exact ⟨Nat.le_refl _, Nat.le_refl _, h, fun j hj _ => hj⟩
  | succ fuel ih =>
    rw [leastPow]
    split
    · rename_i hk
      exact ⟨Nat.le_refl _, by omega, hk, fun j hj _ => hj⟩
    · rename_i hk
      obtain ⟨h1, h2, h3, h4⟩ := ih (k + 1) (by rwa [show k + 1 + fuel = k + (fuel + 1) by omega])
      refine ⟨by omega, by omega, h3, fun j hj hn => h4 j ?_ hn⟩
      rcases Nat.lt_or_ge k j with hlt | hge
      · exact hlt
      · have : j = k := by omega
        subst this
        exact absurd hn hk

/-- The search finds the smallest k with `2^k ≥ n` (40_helpers.md R180). -/
theorem bitWidth_least {n : Nat} (h : n ≤ 2 ^ 32) :
    ∃ k, bitWidth n = max 1 k ∧ n ≤ 2 ^ k ∧ (∀ j, n ≤ 2 ^ j → k ≤ j) ∧ k ≤ 32 := by
  obtain ⟨-, h2, h3, h4⟩ := leastPow_spec n 32 0 (by simpa using h)
  exact ⟨leastPow n 32 0, rfl, h3, fun j hj => h4 j (Nat.zero_le j) hj, by simpa using h2⟩

theorem bitWidth_pos (n : Nat) : 1 ≤ bitWidth n := by
  unfold bitWidth; omega

/-- A table of `n` entries has `3 × n` bytes (40_helpers.md R185). -/
theorem rgbTable_length (n : Nat) (bs : List Byte) : (rgbTable n bs).length = 3 * n := by
  induction n generalizing bs with
  | zero => rfl
  | succ n ih =>
    match bs with
    | r :: g :: b :: _ :: rest => simp only [rgbTable, List.length_cons, ih]; omega
    | [] | [_] | [_, _] | [_, _, _] => simp only [rgbTable, List.length_cons, ih]; omega

/-- A palette that encodes: its table has `3 × 2^bits` bytes, bits 1..8
(40_helpers.md R183, R185). -/
theorem palEncode_table {p : Nat} {s : State} {bits : Nat} {bytes : List Byte}
    (h : palEncode p s = .table bits bytes) :
    1 ≤ bits ∧ bits ≤ 8 ∧ bytes.length = 3 * 2 ^ bits := by
  unfold palEncode at h
  split at h
  · cases h
  · dsimp only at h
    split at h
    · cases h
    · split at h
      · cases h
      · rename_i hb
        split at h
        · cases h
        · cases h
          exact ⟨bitWidth_pos _, by omega, rgbTable_length _ _⟩

theorem table_bytes_le {bits : Nat} (h : bits ≤ 8) : 3 * 2 ^ bits ≤ gctRamBytes := by
  have : 2 ^ bits ≤ 2 ^ 8 := Nat.pow_le_pow_right (by decide) h
  unfold gctRamBytes
  omega

theorem Gct.cleared_sound : GctSound .cleared :=
  ⟨List.length_replicate, by simp [Gct.cleared]⟩

/-- GctLoad of a PalEncode result leaves a sound table (40_helpers.md R186). -/
theorem gctLoad_sound (p : Nat) (s t : State) : GctSound (gctLoad (palEncode p s) t).gct := by
  cases h : palEncode p s with
  | fail k => exact Gct.cleared_sound
  | table bits bytes =>
    obtain ⟨h1, h2, h3⟩ := palEncode_table h
    have h4 := table_bytes_le h2
    refine ⟨?_, ?_⟩
    · simp only [gctLoad_table_gct_ram, List.length_append, List.length_replicate]; omega
    · simp only [gctLoad_table_gct_valid, if_true, gctLoad_table_gct_bits,
        gctLoad_table_gct_ram]
      refine ⟨h1, h2, fun j hj => ?_⟩
      rw [List.getD_eq_getElem?_getD, List.getElem?_append_right (by omega),
        List.getElem?_replicate]
      split <;> rfl

/-- The loaded table is the one encoded (40_helpers.md R186). -/
theorem gctLoad_gctTable {bits : Nat} {bytes : List Byte} {s : State}
    (h : bytes.length = 3 * 2 ^ bits) : (gctLoad (.table bits bytes) s).gctTable = bytes := by
  unfold State.gctTable
  rw [gctLoad_table_gct_ram, gctLoad_table_gct_bits, ← h, List.take_left]

/-- The global palette matches itself (43_frame_animation.md R280). -/
theorem palMismatch_self {p : Nat} {s : State} (h : palEncode p s = .table s.gct.bits s.gctTable)
    (hl : s.gctTable.length = 3 * 2 ^ s.gct.bits) : palMismatch p s = none := by
  unfold palMismatch
  rw [h]
  simp [hl]

end Sys2Proof.Machine
end

