-- ==== Sys2Proof/Laws/Ctrl.lean ====
section
/-!
SUPPORT. What the procedures of CTRL can do, said once: their frames, that they keep sound
units, and that a valid frame is encoded against an accepting sink
(43_frame_animation.md R270–R288).
-/

namespace Sys2Proof.Machine

/-! ### Frames -/

/-- What no procedure of the engine touches; transactions are only added. -/
structure CtrlFrame (s t : State) : Prop where
  csr      : t.csr = s.csr
  imem     : t.imem = s.imem
  imemSize : t.imemSize = s.imemSize
  host     : t.host = s.host
  inReset  : t.inReset = s.inReset
  draws    : t.draws = s.draws
  cmd      : t.seq.cmd = s.seq.cmd
  onward   : t.sink.onward = s.sink.onward
  grows    : ∃ new, t.sink.txs = s.sink.txs ++ new

theorem LzwFrame.toCtrl {s t : State} (h : LzwFrame s t) : CtrlFrame s t :=
  ⟨h.csr, h.imem, h.imemSize, h.host, h.inReset, h.draws, h.cmd, h.onward, h.grows⟩

theorem SbwFrame.toCtrl {s t : State} (h : SbwFrame s t) : CtrlFrame s t := h.toLzw.toCtrl

theorem CtrlFrame.refl (s : State) : CtrlFrame s s := (SbwFrame.refl s).toCtrl

theorem CtrlFrame.trans {a b c : State} (h : CtrlFrame a b) (k : CtrlFrame b c) :
    CtrlFrame a c := by
  obtain ⟨x, hx⟩ := h.grows
  obtain ⟨y, hy⟩ := k.grows
  exact ⟨k.csr.trans h.csr, k.imem.trans h.imem, k.imemSize.trans h.imemSize,
    k.host.trans h.host, k.inReset.trans h.inReset, k.draws.trans h.draws,
    k.cmd.trans h.cmd, k.onward.trans h.onward, x ++ y, by rw [hy, hx, List.append_assoc]⟩

theorem CtrlFrame.setGct (s : State) (g : Gct) : CtrlFrame s { s with gct := g } :=
  ⟨rfl, rfl, rfl, rfl, rfl, rfl, rfl, rfl, [], by simp⟩

theorem CtrlFrame.setFramesDone (s : State) (n : Nat) :
    CtrlFrame s { s with seq.framesDone := n } :=
  ⟨rfl, rfl, rfl, rfl, rfl, rfl, rfl, rfl, [], by simp⟩

theorem emit_frame (bs : List Byte) (s : State) : SbwFrame s (emit bs s).state :=
  sinkWrite_frame bs s

theorem encodeRows_frame (fd : FrameDesc) (n r : Nat) (s : State) :
    LzwFrame s (encodeRows fd n r s).state := by
  induction n generalizing r s with
  | zero => exact .refl s
  | succ n ih =>
    rw [encodeRows]
    split
    · exact .refl s
    · exact Ret.andThen_rel (R := LzwFrame) LzwFrame.trans (lzwWrite_frame _ s)
        fun s' _ => ih _ s'

theorem frameEncode_frame (fd : FrameDesc) (lit : Nat) (s : State) :
    LzwFrame s (frameEncode fd lit s).state := by
  refine Ret.andThen_rel (R := LzwFrame) LzwFrame.trans (emit_frame _ s).toLzw fun s1 _ => ?_
  refine Ret.andThen_rel (R := LzwFrame) LzwFrame.trans ?_ fun s2 _ => ?_
  · exact ((sbwOpen_frame s1).toLzw.trans (lzwOpen_frame lit _)).trans
      (encodeRows_frame fd _ _ _)
  · exact Ret.andThen_rel (R := LzwFrame) LzwFrame.trans (lzwClose_frame s2)
      fun s3 _ => (sbwClose_frame s3).toLzw

theorem emitGce_frame (delay : Nat) (s : State) : LzwFrame s (emitGce delay s).state := by
  unfold emitGce
  split
  · exact .refl s
  · exact (emit_frame _ s).toLzw

theorem emitLoopExt_frame (nf loop : Nat) (s : State) :
    LzwFrame s (emitLoopExt nf loop s).state := by
  unfold emitLoopExt
  split
  · exact (emit_frame _ s).toLzw
  · exact .refl s

theorem checkPalette_state (p : Nat) (s : State) : (checkPalette p s).state = s := by
  unfold checkPalette
  split <;> rfl

theorem checkPalette_ok {p : Nat} {s t : State} (h : checkPalette p s = .ok t) :
    t = s ∧ palMismatch p s = none := by
  unfold checkPalette at h
  split at h
  · rename_i hm; cases h; exact ⟨rfl, hm⟩
  · cases h

theorem encodeFrame_frame (a i lit : Nat) (s : State) :
    CtrlFrame s (encodeFrame a i lit s).state := by
  unfold encodeFrame
  split
  · exact .refl s
  · refine Ret.andThen_rel (R := CtrlFrame) CtrlFrame.trans (emitGce_frame _ s).toCtrl
      fun s1 _ => ?_
    refine Ret.andThen_rel (R := CtrlFrame) CtrlFrame.trans ?_ fun s2 _ => ?_
    · rw [checkPalette_state]; exact .refl s1
    · exact Ret.andThen_rel (R := CtrlFrame) CtrlFrame.trans
        (frameEncode_frame _ lit s2).toCtrl fun s3 _ => .setFramesDone s3 _

theorem encodeFrame_gct (a i lit : Nat) (s : State) :
    (encodeFrame a i lit s).state.gct = s.gct := by
  unfold encodeFrame
  split
  · rfl
  · refine Ret.andThen_rel (R := fun x y : State => y.gct = x.gct) (fun h k => k.trans h)
      (emitGce_frame _ s).gct fun s1 _ => ?_
    refine Ret.andThen_rel (R := fun x y : State => y.gct = x.gct) (fun h k => k.trans h) ?_
      fun s2 _ => ?_
    · rw [checkPalette_state]
    · exact Ret.andThen_rel (R := fun x y : State => y.gct = x.gct) (fun h k => k.trans h)
        (frameEncode_frame _ lit s2).gct fun s3 _ => rfl

theorem encodeFrames_frame (a lit n i : Nat) (s : State) :
    CtrlFrame s (encodeFrames a lit n i s).state := by
  induction n generalizing i s with
  | zero => exact .refl s
  | succ n ih =>
    exact Ret.andThen_rel (R := CtrlFrame) CtrlFrame.trans (encodeFrame_frame a i lit s)
      fun s' _ => ih _ s'

theorem emitAnimation_frame (a nf loop w h : Nat) (s : State) :
    CtrlFrame s (emitAnimation a nf loop w h s).state := by
  refine Ret.andThen_rel (R := CtrlFrame) CtrlFrame.trans (emit_frame _ s).toCtrl fun s1 _ => ?_
  refine Ret.andThen_rel (R := CtrlFrame) CtrlFrame.trans (emit_frame _ s1).toCtrl fun s2 _ => ?_
  refine Ret.andThen_rel (R := CtrlFrame) CtrlFrame.trans (emit_frame _ s2).toCtrl fun s3 _ => ?_
  refine Ret.andThen_rel (R := CtrlFrame) CtrlFrame.trans (emitLoopExt_frame nf loop s3).toCtrl
    fun s4 _ => ?_
  exact Ret.andThen_rel (R := CtrlFrame) CtrlFrame.trans (encodeFrames_frame a _ nf 0 s4)
    fun s5 _ => (emit_frame _ s5).toCtrl

theorem gctLoad_frame (r : PalResult) (s : State) : CtrlFrame s (gctLoad r s) := by
  cases r <;> exact .setGct s _

theorem loadGlobalPalette_frame (a : Nat) (s : State) :
    CtrlFrame s (loadGlobalPalette a s).state := by
  unfold loadGlobalPalette
  split
  · exact .refl s
  · split
    · rename_i k _; exact gctLoad_frame (.fail k) s
    · rename_i bits bytes _; exact gctLoad_frame (.table bits bytes) s

theorem encodeAnimation_frame (a : Nat) (s : State) :
    CtrlFrame s (encodeAnimation a s).state := by
  unfold encodeAnimation
  split
  · exact .refl s
  · split
    · exact .refl s
    · split
      · exact .refl s
      · split
        · exact .refl s
        · exact Ret.andThen_rel (R := CtrlFrame) CtrlFrame.trans (loadGlobalPalette_frame a s)
            fun s' _ => emitAnimation_frame a _ _ _ _ s'

/-! ### The units stay sound -/

/-- The three units and the transactions are sound. -/
structure UnitsSound (s : State) : Prop where
  out : OutSound s
  lzw : LzwSound s.lzw
  gct : GctSound s.gct

/-- The result of an engine procedure on sound units: sound units, and a sound failure. -/
def UnitsKept (r : Ret) : Prop := UnitsSound r.state ∧ ∀ f s, r = .fail f s → f.sound

theorem UnitsKept.ok {s : State} (h : UnitsSound s) : UnitsKept (.ok s) :=
  ⟨h, fun f t ht => by cases ht⟩

theorem UnitsKept.fail {f : Failure} {s : State} (h : UnitsSound s) (hf : f.sound) :
    UnitsKept (.fail f s) := ⟨h, fun g t ht => by cases ht; exact hf⟩

theorem UnitsKept.andThen {r : Ret} {k : State → Ret} (hr : UnitsKept r)
    (hk : ∀ s, r = .ok s → UnitsSound s → UnitsKept (k s)) : UnitsKept (r.andThen k) := by
  cases r with
  | ok s => exact hk s rfl hr.1
  | fail f s => exact hr

theorem LzwKept.units {s : State} {r : Ret} (h : LzwKept r) (hf : LzwFrame s r.state)
    (hg : GctSound s.gct) : UnitsKept r := by
  cases r with
  | ok t => exact .ok ⟨h.1, h.2, by rw [show t.gct = s.gct from hf.gct]; exact hg⟩
  | fail f t =>
    exact .fail ⟨h.1, h.2.1, by rw [show t.gct = s.gct from hf.gct]; exact hg⟩ h.2.2

theorem emit_kept {bs : List Byte} (hbs : bs ≠ []) {s : State} (h : UnitsSound s) :
    UnitsKept (emit bs s) := by
  have hf := emit_frame bs s
  have hs := sinkWrite_sbw bs s
  refine ⟨⟨⟨?_, sinkWrite_sound hbs h.out.txs⟩, ?_, ?_⟩, fun f t ht =>
    (sinkWrite_failure_sound ht).2⟩
  · exact hs ▸ h.out.sbw
  · rw [hf.lzw]; exact h.lzw
  · rw [hf.gct]; exact h.gct

theorem encodeRows_kept (fd : FrameDesc) (n r : Nat) {s : State} (h : UnitsSound s) :
    UnitsKept (encodeRows fd n r s) := by
  induction n generalizing r s with
  | zero => exact .ok h
  | succ n ih =>
    rw [encodeRows]
    split
    · exact .fail h fun _ => rfl
    · exact ((lzwWrite_kept _ h.out h.lzw).units (lzwWrite_frame _ s) h.gct).andThen
        fun s' _ hs' => ih _ hs'

theorem sbwClose_kept {s : State} (h : UnitsSound s) : UnitsKept (sbwClose s) := by
  have hk := sbwClose_sound h.out
  have hf := sbwClose_frame s
  exact ⟨⟨hk.1, by rw [hf.lzw]; exact h.lzw, by rw [hf.gct]; exact h.gct⟩, hk.2⟩

theorem frameEncode_kept (fd : FrameDesc) {lit : Nat} (hlo : 2 ≤ lit) (hhi : lit ≤ 8)
    {s : State} (h : UnitsSound s) : UnitsKept (frameEncode fd lit s) := by
  refine (emit_kept (by simp [imageItem]) h).andThen fun s1 _ h1 => ?_
  have hopen : UnitsSound (lzwOpen lit (sbwOpen s1)) :=
    ⟨⟨by simp [SbwSound], by simpa using h1.out.txs⟩, lzwOpen_sound hlo hhi _, by
      simpa using h1.gct⟩
  refine (encodeRows_kept fd _ _ hopen).andThen fun s2 _ h2 => ?_
  exact ((lzwClose_kept h2.out h2.lzw).units (lzwClose_frame s2) h2.gct).andThen
    fun s3 _ h3 => sbwClose_kept h3

theorem emitGce_kept (delay : Nat) {s : State} (h : UnitsSound s) :
    UnitsKept (emitGce delay s) := by
  unfold emitGce
  split
  · exact .ok h
  · exact emit_kept (by simp [gceItem]) h

theorem checkPalette_kept (p : Nat) {s : State} (h : UnitsSound s) :
    UnitsKept (checkPalette p s) := by
  unfold checkPalette
  split
  · exact .ok h
  · exact .fail h fun _ => rfl

theorem encodeFrame_kept (a i : Nat) {lit : Nat} (hlo : 2 ≤ lit) (hhi : lit ≤ 8) {s : State}
    (h : UnitsSound s) : UnitsKept (encodeFrame a i lit s) := by
  unfold encodeFrame
  split
  · exact .fail h fun _ => rfl
  · refine (emitGce_kept _ h).andThen fun s1 _ h1 => ?_
    refine (checkPalette_kept _ h1).andThen fun s2 _ h2 => ?_
    refine (frameEncode_kept _ hlo hhi h2).andThen fun s3 _ h3 => ?_
    exact .ok ⟨⟨h3.out.sbw, h3.out.txs⟩, h3.lzw, h3.gct⟩

theorem encodeFrames_kept (a : Nat) {lit : Nat} (hlo : 2 ≤ lit) (hhi : lit ≤ 8) (n i : Nat)
    {s : State} (h : UnitsSound s) : UnitsKept (encodeFrames a lit n i s) := by
  induction n generalizing i s with
  | zero => exact .ok h
  | succ n ih => exact (encodeFrame_kept a i hlo hhi h).andThen fun s' _ hs' => ih _ hs'

theorem gctTable_ne_nil {s : State} (h : GctSound s.gct) (hb : s.gct.bits ≤ 8) :
    s.gctTable ≠ [] := by
  have h1 := h.1
  have h2 := table_bytes_le hb
  intro he
  have : s.gctTable.length = 0 := by rw [he]; rfl
  unfold State.gctTable at this
  rw [List.length_take] at this
  have := Nat.two_pow_pos s.gct.bits
  unfold gctRamBytes at h1 h2
  omega

theorem emitAnimation_kept (a nf loop w h : Nat) {s : State} (hs : UnitsSound s)
    (hb : s.gct.bits ≤ 8) : UnitsKept (emitAnimation a nf loop w h s) := by
  have hlo : 2 ≤ literalWidth s.gct.bits := by unfold literalWidth; omega
  have hhi : literalWidth s.gct.bits ≤ 8 := by unfold literalWidth; omega
  refine (emit_kept (by simp [signatureItem]) hs).andThen fun s1 e1 h1 => ?_
  have f1 := (emit_frame signatureItem s).gct
  rw [e1] at f1
  refine (emit_kept (by simp [lsdItem]) h1).andThen fun s2 e2 h2 => ?_
  have f2 := (emit_frame (lsdItem w h s.gct.bits) s1).gct
  rw [e2] at f2
  have hb2 : s2.gct.bits ≤ 8 := by
    rw [show s2.gct = s.gct from f2.trans f1]; exact hb
  refine (emit_kept (gctTable_ne_nil h2.gct hb2) h2).andThen fun s3 _ h3 => ?_
  have hloop : UnitsKept (emitLoopExt nf loop s3) := by
    unfold emitLoopExt
    split
    · exact emit_kept (by simp [loopExtItem]) h3
    · exact .ok h3
  refine hloop.andThen fun s4 _ h4 => ?_
  exact (encodeFrames_kept a hlo hhi nf 0 h4).andThen fun s5 _ h5 =>
    emit_kept (by simp [trailerItem]) h5

theorem loadGlobalPalette_kept (a : Nat) {s : State} (h : UnitsSound s) :
    UnitsKept (loadGlobalPalette a s) ∧
      ∀ t, loadGlobalPalette a s = .ok t → t.gct.bits ≤ 8 := by
  unfold loadGlobalPalette
  split
  · exact ⟨.fail h fun _ => rfl, fun t ht => by cases ht⟩
  · rename_i fd _
    have hg := gctLoad_sound fd.palAddr s s
    split
    · rename_i k hk
      rw [hk] at hg
      exact ⟨.fail ⟨⟨by simpa using h.out.sbw, by simpa using h.out.txs⟩, by
        simpa using h.lzw, hg⟩ fun _ => rfl, fun t ht => by cases ht⟩
    · rename_i bits bytes hk
      rw [hk] at hg
      refine ⟨.ok ⟨⟨by simpa using h.out.sbw, by simpa using h.out.txs⟩, by
        simpa using h.lzw, hg⟩, fun t ht => ?_⟩
      cases ht
      exact (palEncode_table hk).2.1

theorem encodeAnimation_kept (a : Nat) {s : State} (h : UnitsSound s) :
    UnitsKept (encodeAnimation a s) := by
  unfold encodeAnimation
  split
  · exact .fail h fun _ => rfl
  · split
    · exact .fail h fun _ => rfl
    · split
      · exact .fail h fun _ => rfl
      · split
        · exact .fail h fun _ => rfl
        · have hp := loadGlobalPalette_kept a h
          exact hp.1.andThen fun s' e' h' => emitAnimation_kept a _ _ _ _ h' (hp.2 s' e')

/-! ### Success against an accepting sink -/

theorem emit_ready {s : State} (h : s.sink.accepting) (bs : List Byte) :
    emit bs s = .ok { s with
      sink := s.sink.record bs (bs.length, none), seq.accepted := s.seq.accepted + bs.length } :=
  sinkWrite_accepting h bs

/-- Rows that are in range and made of literals are compressed. -/
theorem encodeRows_ready (fd : FrameDesc) (n r : Nat) {s : State} (h : OutReady s)
    (hop : s.lzw.st = .opened)
    (hrow : ∀ q, r ≤ q → q < r + n → ∃ row, readRow fd q s = some row ∧
      literalsFit s.lzw.lit row = true) :
    ∃ t, encodeRows fd n r s = .ok t ∧ OutReady t ∧ t.lzw.st = .opened ∧
      t.lzw.lit = s.lzw.lit := by
  induction n generalizing r s with
  | zero => exact ⟨s, rfl, h, hop, rfl⟩
  | succ n ih =>
    obtain ⟨row, hrd, hfit⟩ := hrow r (Nat.le_refl r) (by omega)
    obtain ⟨t, ht, hr, ho, hl, -⟩ := lzwWrite_ready h hop hfit
    have hf := lzwWrite_frame row s
    rw [ht, Ret.state_ok] at hf
    obtain ⟨u, hu, hru, hou, hlu⟩ := ih (r + 1) hr ho fun q h1 h2 => by
      obtain ⟨row', h3, h4⟩ := hrow q (by omega) (by omega)
      exact ⟨row', by rw [readRow_congr hf.imem hf.imemSize]; exact h3, by rw [hl]; exact h4⟩
    refine ⟨u, ?_, hru, hou, hlu.trans hl⟩
    rw [encodeRows, hrd]
    dsimp only
    rw [ht, Ret.andThen_ok, hu]

/-- FrameEncode of a frame whose rows are in range and made of literals succeeds, with both
units CLOSED. -/
theorem frameEncode_ready (fd : FrameDesc) (lit : Nat) {s : State} (h : s.sink.accepting)
    (hrow : ∀ q < fd.height, ∃ row, readRow fd q s = some row ∧ literalsFit lit row = true) :
    ∃ t, frameEncode fd lit s = .ok t ∧ t.sink.accepting ∧ t.sbw.st = .closed ∧
      t.lzw.st = .closed := by
  unfold frameEncode
  rw [emit_ready h, Ret.andThen_ok]
  obtain ⟨t, ht, hr, ho, -⟩ := encodeRows_ready fd fd.height 0
    (s := lzwOpen lit (sbwOpen { s with
      sink := s.sink.record (imageItem fd lit) ((imageItem fd lit).length, none)
      seq.accepted := s.seq.accepted + (imageItem fd lit).length }))
    ⟨rfl, Sink.record_accepting h _ _⟩ rfl fun q _ h2 => hrow q (by omega)
  rw [ht, Ret.andThen_ok]
  obtain ⟨u, hu, hru, hcl, -⟩ := lzwClose_ready hr ho
  rw [hu, Ret.andThen_ok, sbwClose_ready hru]
  exact ⟨_, rfl, Sink.record_accepting hru.accepting _ _, rfl, hcl⟩

end Sys2Proof.Machine
end

