-- ==== Sys2Proof/Laws/Host.lean ====
section
/-!
SUPPORT. The CSR map (10_state.md R33), the moves of the host, and a step, each as equations:
what is cited instead of unfolding them.
-/

namespace Sys2Proof.Machine

/-! ### The CSR map -/

/-- Offsets of one word are one register (20_memory.md R86). -/
theorem csrAt_congr {x y : BitVec 11} (h : x.toNat / 4 = y.toNat / 4) : csrAt x = csrAt y := by
  simp only [csrAt, h]

/-- The register at each word number (10_state.md R33). -/
theorem csrAt_word {off : BitVec 11} :
    (off.toNat / 4 = 0 ∧ csrAt off = .cmd) ∨
    (off.toNat / 4 = 1 ∧ csrAt off = .status) ∨
    (off.toNat / 4 = 2 ∧ csrAt off = .arg0) ∨
    (off.toNat / 4 = 3 ∧ csrAt off = .arg1) ∨
    (off.toNat / 4 = 4 ∧ csrAt off = .res0) ∨
    (off.toNat / 4 = 5 ∧ csrAt off = .res1) ∨
    (off.toNat / 4 = 6 ∧ csrAt off = .sbwInfo) ∨
    (off.toNat / 4 = 7 ∧ csrAt off = .lzwInfo0) ∨
    (off.toNat / 4 = 8 ∧ csrAt off = .lzwInfo1) ∨
    (off.toNat / 4 = 9 ∧ csrAt off = .lzwInfo2) ∨
    (off.toNat / 4 = 10 ∧ csrAt off = .gctInfo) ∨
    (∃ j < 192, off.toNat / 4 = 256 + j ∧ csrAt off = .gctWindow j) ∨
    (11 ≤ off.toNat / 4 ∧ ¬(256 ≤ off.toNat / 4 ∧ off.toNat / 4 < 448) ∧
      csrAt off = .reserved) := by
  generalize hm : off.toNat / 4 = m
  have : m = 0 ∨ m = 1 ∨ m = 2 ∨ m = 3 ∨ m = 4 ∨ m = 5 ∨ m = 6 ∨ m = 7 ∨ m = 8 ∨ m = 9 ∨
      m = 10 ∨ 11 ≤ m := by omega
  rcases this with rfl | rfl | rfl | rfl | rfl | rfl | rfl | rfl | rfl | rfl | rfl | h11
  · exact .inl ⟨rfl, by simp only [csrAt, hm]⟩
  · exact .inr <| .inl ⟨rfl, by simp only [csrAt, hm]⟩
  · exact .inr <| .inr <| .inl ⟨rfl, by simp only [csrAt, hm]⟩
  · exact .inr <| .inr <| .inr <| .inl ⟨rfl, by simp only [csrAt, hm]⟩
  · exact .inr <| .inr <| .inr <| .inr <| .inl ⟨rfl, by simp only [csrAt, hm]⟩
  · exact .inr <| .inr <| .inr <| .inr <| .inr <| .inl ⟨rfl, by simp only [csrAt, hm]⟩
  · exact .inr <| .inr <| .inr <| .inr <| .inr <| .inr <| .inl ⟨rfl, by simp only [csrAt, hm]⟩
  · exact .inr <| .inr <| .inr <| .inr <| .inr <| .inr <| .inr <| .inl ⟨rfl, by simp only [csrAt, hm]⟩
  · exact .inr <| .inr <| .inr <| .inr <| .inr <| .inr <| .inr <| .inr <| .inl ⟨rfl, by simp only [csrAt, hm]⟩
  · exact .inr <| .inr <| .inr <| .inr <| .inr <| .inr <| .inr <| .inr <| .inr <| .inl ⟨rfl, by simp only [csrAt, hm]⟩
  · exact .inr <| .inr <| .inr <| .inr <| .inr <| .inr <| .inr <| .inr <| .inr <| .inr <| .inl ⟨rfl, by simp only [csrAt, hm]⟩
  · obtain ⟨k, rfl⟩ := Nat.exists_eq_add_of_le' h11
    have h : csrAt off = if 256 ≤ k + 11 ∧ k + 11 < 448 then .gctWindow (k + 11 - 256)
        else .reserved := by
      simp only [csrAt, hm]
    iterate 11 right
    by_cases hk : 256 ≤ k + 11 ∧ k + 11 < 448
    · exact .inl ⟨k + 11 - 256, by omega, by omega, by rw [h, if_pos hk]⟩
    · exact .inr ⟨h11, hk, by rw [h, if_neg hk]⟩

theorem csrAt_eq_cmd {off : BitVec 11} : csrAt off = .cmd ↔ off.toNat < 4 := by
  rcases csrAt_word (off := off) with
    ⟨h, e⟩ | ⟨h, e⟩ | ⟨h, e⟩ | ⟨h, e⟩ | ⟨h, e⟩ | ⟨h, e⟩ | ⟨h, e⟩ | ⟨h, e⟩ | ⟨h, e⟩ | ⟨h, e⟩ | ⟨h, e⟩ | ⟨k, hk, h, e⟩ | ⟨h, hk, e⟩
  all_goals rw [e]; simp; omega

theorem csrAt_eq_status {off : BitVec 11} : csrAt off = .status ↔ off.toNat / 4 = 1 := by
  rcases csrAt_word (off := off) with
    ⟨h, e⟩ | ⟨h, e⟩ | ⟨h, e⟩ | ⟨h, e⟩ | ⟨h, e⟩ | ⟨h, e⟩ | ⟨h, e⟩ | ⟨h, e⟩ | ⟨h, e⟩ | ⟨h, e⟩ | ⟨h, e⟩ | ⟨k, hk, h, e⟩ | ⟨h, hk, e⟩
  all_goals rw [e]; simp; omega

theorem csrAt_eq_arg0 {off : BitVec 11} : csrAt off = .arg0 ↔ off.toNat / 4 = 2 := by
  rcases csrAt_word (off := off) with
    ⟨h, e⟩ | ⟨h, e⟩ | ⟨h, e⟩ | ⟨h, e⟩ | ⟨h, e⟩ | ⟨h, e⟩ | ⟨h, e⟩ | ⟨h, e⟩ | ⟨h, e⟩ | ⟨h, e⟩ | ⟨h, e⟩ | ⟨k, hk, h, e⟩ | ⟨h, hk, e⟩
  all_goals rw [e]; simp; omega

theorem csrAt_eq_arg1 {off : BitVec 11} : csrAt off = .arg1 ↔ off.toNat / 4 = 3 := by
  rcases csrAt_word (off := off) with
    ⟨h, e⟩ | ⟨h, e⟩ | ⟨h, e⟩ | ⟨h, e⟩ | ⟨h, e⟩ | ⟨h, e⟩ | ⟨h, e⟩ | ⟨h, e⟩ | ⟨h, e⟩ | ⟨h, e⟩ | ⟨h, e⟩ | ⟨k, hk, h, e⟩ | ⟨h, hk, e⟩
  all_goals rw [e]; simp; omega

theorem csrAt_eq_gctWindow {off : BitVec 11} {j : Nat} : csrAt off = .gctWindow j ↔ off.toNat / 4 = 256 + j ∧ j < 192 := by
  rcases csrAt_word (off := off) with
    ⟨h, e⟩ | ⟨h, e⟩ | ⟨h, e⟩ | ⟨h, e⟩ | ⟨h, e⟩ | ⟨h, e⟩ | ⟨h, e⟩ | ⟨h, e⟩ | ⟨h, e⟩ | ⟨h, e⟩ | ⟨h, e⟩ | ⟨k, hk, h, e⟩ | ⟨h, hk, e⟩
  all_goals rw [e]; simp; omega

theorem csrAt_eq_reserved {off : BitVec 11} : csrAt off = .reserved ↔ 11 ≤ off.toNat / 4 ∧ ¬(256 ≤ off.toNat / 4 ∧ off.toNat / 4 < 448) := by
  rcases csrAt_word (off := off) with
    ⟨h, e⟩ | ⟨h, e⟩ | ⟨h, e⟩ | ⟨h, e⟩ | ⟨h, e⟩ | ⟨h, e⟩ | ⟨h, e⟩ | ⟨h, e⟩ | ⟨h, e⟩ | ⟨h, e⟩ | ⟨h, e⟩ | ⟨k, hk, h, e⟩ | ⟨h, hk, e⟩
  all_goals rw [e]; simp; omega

/-! ### Moves of the host -/

theorem hostMove_csrRead {s : State} (h : s.inReset = false) (off : BitVec 11) :
    hostMove (.csrRead .w32 off) s = .next (hostCsrRead off s) := by
  simp [hostMove, outsideReset, wholeWord, h]

theorem hostMove_csrWrite {s : State} (h : s.inReset = false) (off : BitVec 11) (v : Word) :
    hostMove (.csrWrite .w32 off v) s = .next (hostCsrWrite off v s) := by
  simp [hostMove, outsideReset, wholeWord, h]

theorem hostMove_imemWrite {s : State} (h : s.inReset = false) (a : Word) (v : Byte) :
    hostMove (.imemWrite a v) s = hostImemWrite a v s := by
  simp [hostMove, outsideReset, h]

/-- A store changes the accepted command or an operand register, or nothing. -/
theorem csrStore_cases (s : State) (v : Word) (n : CsrName) :
    (n = .cmd ∧ s.csrStore v n = { s with seq := { Sequencer.idle with cmd := some v } }) ∨
    (n = .arg0 ∧ s.csrStore v n = { s with csr.arg0 := v }) ∨
    (n = .arg1 ∧ s.csrStore v n = { s with csr.arg1 := v }) ∨
    (n ≠ .cmd ∧ n ≠ .arg0 ∧ n ≠ .arg1 ∧ s.csrStore v n = s) := by
  cases n <;> simp [State.csrStore]

/-- What an abandoned command leaves in the sink: some of its transactions whole, and a prefix
of the next (70_reset_and_hazards.md R341). -/
theorem abandonTxs_stream (p : AbandonPoint) (txs : List Tx) :
    ∃ pre, streamOf (abandonTxs p txs) = streamOf (txs.take p.completed) ++ pre ∧
      (pre = [] ∨ ∃ x, txs[p.completed]? = some x ∧ pre <+: x.offered) := by
  unfold abandonTxs
  split
  · rename_i k t _ ht
    exact ⟨t.offered.take (k % (t.offered.length + 1)),
      by simp [streamOf, Tx.accepted], .inr ⟨t, ht, List.take_prefix _ _⟩⟩
  · exact ⟨[], by simp, .inl rfl⟩

/-! ### Steps -/

/-- A command that can run, with the host waiting or done, is what the step runs. -/
theorem step_engine {s : State} {w : Word} (hr : s.inReset = false) (hw : s.seq.cmd = some w)
    (ha : s.host.agenda = [] ∨ ∃ rest, s.host.agenda = .wait :: rest) :
    step s = runWord w s := by
  have hrun : s.runnable = some w := by simp [State.runnable, hr, hw]
  rcases ha with h | ⟨rest, h⟩ <;> simp [step, turn, h, hrun]

end Sys2Proof.Machine
end

