-- ==== Sys2Proof/Laws/PerInstr.lean ====
section
/-!
SUPPORT. Statements made per command, about the command as syntax: the family Encoding.
-/

namespace Sys2Proof.Laws.Encoding

/-- The command is well formed, its word is well formed, and the decoder reads the command back
from its word, as a word and as a row of the opcode table (30_encoding.md R120, R121). -/
def Statement (i : Instr) : Prop :=
  i.wellFormed = true ∧ wordWellFormed (encode i) = true ∧ decode (encode i) = .command i ∧
    decodeTableWord 32 (encode i).toNat = some i

theorem bitwidth : Statement .bitwidth := ⟨rfl, rfl, rfl, rfl⟩
theorem palEncode : Statement .palEncode := ⟨rfl, rfl, rfl, rfl⟩
theorem sbwOpen : Statement .sbwOpen := ⟨rfl, rfl, rfl, rfl⟩
theorem sbwAppend : Statement .sbwAppend := ⟨rfl, rfl, rfl, rfl⟩
theorem sbwClose : Statement .sbwClose := ⟨rfl, rfl, rfl, rfl⟩
theorem lzwOpen : Statement .lzwOpen := ⟨rfl, rfl, rfl, rfl⟩
theorem lzwWrite : Statement .lzwWrite := ⟨rfl, rfl, rfl, rfl⟩
theorem lzwClose : Statement .lzwClose := ⟨rfl, rfl, rfl, rfl⟩
theorem encAnim : Statement .encAnim := ⟨rfl, rfl, rfl, rfl⟩

end Sys2Proof.Laws.Encoding
end

