-- ==== Sys2Proof/Tests/Slice0.lean ====
section
/-!
SUPPORT. The model's own tests. Expected values come from the worked vectors of
95_test_vectors.md, each named, or from the rule cited; a `witness_` theorem shows states and
operands that meet the hypotheses of the statement it is named after.
-/

set_option maxRecDepth 20000

namespace Sys2Proof.Tests

open Sys2Proof Sys2Proof.Machine

/-! ### Command words -/

theorem test_reserved_set_is_ill_formed :
    reservedClear 0x00000101 = false ∧ reservedClear 0x80000009 = false ∧
      reservedClear 0x00000009 = true ∧ wordWellFormed 0x00000101 = false := by decide

theorem test_opcode_unassigned_is_ill_formed :
    opcodeAssigned 0x00000000 = false ∧ opcodeAssigned 0x0000000A = false ∧
      opcodeAssigned 0x000000FF = false ∧ wordWellFormed 0x00000009 = true := by decide

/-- X1–X5 of 95_test_vectors.md §2.1. -/
theorem test_decode_illegal_by_name :
    decode 0x00000000 = .illegal (.unassignedOpcode 0x00) ∧
    decode 0x0000000A = .illegal (.unassignedOpcode 0x0A) ∧
    decode 0x000000FF = .illegal (.unassignedOpcode 0xFF) ∧
    decode 0x00000101 = .illegal (.reservedBits 0x000001) ∧
    decode 0x80000009 = .illegal (.reservedBits 0x800000) := by decide

/-- The PAL words, bit by bit: CMD[31:8] = 0, OPC in CMD[7:0] (R120, R121). -/
theorem test_decode_pal :
    decode (0b000000000000000000000000#24 ++ 0b00000001#8) = .command .bitwidth ∧
    decode (0b000000000000000000000000#24 ++ 0b00000010#8) = .command .palEncode := by decide

/-- The SBW words, bit by bit (R120, R121). -/
theorem test_decode_sbw :
    decode (0b000000000000000000000000#24 ++ 0b00000011#8) = .command .sbwOpen ∧
    decode (0b000000000000000000000000#24 ++ 0b00000100#8) = .command .sbwAppend ∧
    decode (0b000000000000000000000000#24 ++ 0b00000101#8) = .command .sbwClose := by decide

/-- The LZW words, bit by bit (R120, R121). -/
theorem test_decode_lzw :
    decode (0b000000000000000000000000#24 ++ 0b00000110#8) = .command .lzwOpen ∧
    decode (0b000000000000000000000000#24 ++ 0b00000111#8) = .command .lzwWrite ∧
    decode (0b000000000000000000000000#24 ++ 0b00001000#8) = .command .lzwClose := by decide

/-- The CTRL word, bit by bit (R120, R121). -/
theorem test_decode_ctrl :
    decode (0b000000000000000000000000#24 ++ 0b00001001#8) = .command .encAnim ∧
    decodeTableWord 32 9 = some .encAnim ∧ decodeTableWord 32 0x109 = none := by decide

/-! ### States to test on -/

/-- The reset state with an accept-all sink, some IMEM and the operands set. -/
def base (size : Nat) (mem : Memory) (a0 a1 : Word) : State :=
  { State.reset with
    csr := { State.reset.csr with arg0 := a0, arg1 := a1 }
    imem := mem, imemSize := size
    sink := { txs := [], script := [], onward := .acceptAll } }

/-- The state a command leaves; the state itself where it leaves none. -/
def after (i : Instr) (s : State) : State :=
  match exec i s with
  | .next t => t
  | .fault _ => s
  | .refused _ => s

/-- The state a step leaves; the state itself where it leaves none. -/
def stepped (s : State) : State :=
  match step s with
  | .next t => t
  | .fault _ => s
  | .refused _ => s

/-- The sink's coming answers set. -/
def scripted (script : List SinkAnswer) (s : State) : State :=
  { s with sink := { s.sink with script := script } }

/-- AA BB CC at 0, and 00 01 at 8. -/
def bytesMem : Memory := [(0, 0xAA), (1, 0xBB), (2, 0xCC), (9, 0x01)]

/-- A state with a WRITABLE writer. -/
def writer (a0 a1 : Word) : State := sbwOpen (base 16 bytesMem a0 a1)

/-- A state with both units open, lit 2. -/
def units (a0 a1 : Word) : State := lzwOpen 2 (writer a0 a1)

/-- P1 of 95_test_vectors.md §4 (IMEM_SIZE 128). -/
def p1 : State :=
  base 128 [(0x00, 1), (0x0C, 1), (0x0E, 1), (0x10, 1), (0x14, 0x40), (0x18, 0x30), (0x30, 1),
    (0x37, 0xFF)] 0 0

/-- P2 of 95_test_vectors.md §4 (IMEM_SIZE 256). -/
def p2 : State :=
  base 256 ([(0x00, 2), (0x04, 0xFE), (0x05, 0xCA)] ++
    [(0x0C, 2), (0x0E, 1), (0x10, 2), (0x14, 0x80), (0x18, 0x60), (0x1C, 0x0A)] ++
    [(0x24, 2), (0x26, 1), (0x28, 2), (0x2C, 0x90), (0x30, 0x60), (0x34, 0x14)] ++
    [(0x60, 2), (0x67, 0xFF), (0x68, 0xFF), (0x69, 0xFF), (0x6A, 0xFF), (0x6B, 0xFF)] ++
    [(0x81, 1), (0x90, 1)]) 0 0

/-- The palette of five colours of PE1, 95_test_vectors.md §2.3. -/
def fiveColours : State :=
  base 24 [(0, 5), (4, 0x10), (5, 0x20), (6, 0x30), (7, 0xFF), (8, 0x40), (9, 0x50), (10, 0x60),
    (12, 0x70), (13, 0x80), (14, 0x90), (15, 1), (16, 0xA0), (17, 0xB0), (18, 0xC0), (19, 2),
    (20, 0xD0), (21, 0xE0), (22, 0xF0), (23, 3)] 0 0

/-- P1 against a sink that refuses the GCT (A18). -/
def a18 : State := scripted [⟨6, none⟩, ⟨7, none⟩, ⟨2, some 0x42⟩] p1

/-- P1 against a sink that cuts the writer's close short (A19). -/
def a19 : State := scripted [⟨6, none⟩, ⟨7, none⟩, ⟨6, none⟩, ⟨11, none⟩, ⟨1, none⟩] p1

/-- P1 against a sink that refuses the trailer (A20). -/
def a20 : State :=
  scripted [⟨6, none⟩, ⟨7, none⟩, ⟨6, none⟩, ⟨11, none⟩, ⟨3, none⟩, ⟨0, some 7⟩] p1

/-- The A8 layout: two frames, the palette of the second at `pal`: another one at 0x70 (A8), out
of range at 0xFE (A11). -/
def a8 (pal : Byte) : State :=
  base 256 ([(0x00, 2)] ++
    [(0x0C, 1), (0x0E, 1), (0x10, 1), (0x14, 0x80), (0x18, 0x60)] ++
    [(0x24, 1), (0x26, 1), (0x28, 1), (0x2C, 0x80), (0x30, pal), (0x34, 5)] ++
    [(0x60, 2), (0x67, 0xFF), (0x68, 0xFF), (0x69, 0xFF), (0x6A, 0xFF), (0x6B, 0xFF)] ++
    [(0x70, 2), (0x77, 0xFF), (0x78, 0xFF), (0x7B, 0xFF), (0x80, 1)]) 0 0

/-- The A12 layout with a frame of `w` × `h`, given the bytes of STRIDE and of the pixels. -/
def a12 (size : Nat) (w h : Byte) (stride : Memory) (pixels : Memory) : State :=
  base size ([(0x00, 1), (0x0C, w), (0x0E, h)] ++ stride ++ [(0x14, 0x40), (0x18, 0x30)] ++
    [(0x30, 2), (0x37, 0xFF), (0x38, 0xFF), (0x39, 0xFF), (0x3A, 0xFF), (0x3B, 0xFF)] ++
    pixels) 0 0

/-- LE8: ten literals for a CLOSED writer. -/
def le8 : State := lzwOpen 2 (base 16 [] 0 10)

/-- The same state while a command word is accepted and not yet completed. -/
def running (w : Word) (s : State) : State :=
  { s with seq := { Sequencer.idle with cmd := some w } }

/-- The same state with the host's moves. -/
def hosted (moves : List HostMove) (s : State) : State :=
  { s with host := { s.host with agenda := moves } }

/-- The same state with reset asserted. -/
def heldInReset (s : State) : State := { s with inReset := true }

/-! ### Vectors -/

/-- The reset row of 10_state.md R33. -/
theorem test_reset_status :
    State.reset.statusWord = 0x0000FF14 ∧ State.reset.csrValue (csrAt 0x7FF) = 0 := by decide

/-- BW6, BW8, BW9. -/
theorem test_bitwidth_5_9_16 :
    (after .bitwidth (base 1 [] 5 0)).csr.res0 = 3 ∧
    (after .bitwidth (base 1 [] 9 0)).csr.res0 = 4 ∧
    (after .bitwidth (base 1 [] 16 0)).csr.res0 = 4 := by decide

/-- BW1, BW16, BW17: the ends of the range. -/
theorem test_bitwidth_ends :
    (after .bitwidth (base 1 [] 0 0)).csr.res0 = 1 ∧
    (after .bitwidth (base 1 [] 0x80000001 0)).csr.res0 = 32 ∧
    (after .bitwidth (base 1 [] 0xFFFFFFFF 0)).statusWord = 0x00000014 := by decide

/-- PE1: RES0, RES1, GCT_INFO and words 0, 3 and 4 of the GCT window. -/
theorem test_pal_encode_five :
    (after .palEncode fiveColours).csr.res0 = 3 ∧ (after .palEncode fiveColours).csr.res1 = 24 ∧
    (after .palEncode fiveColours).gctInfo = 0x00000183 ∧
    (after .palEncode fiveColours).gctWord 0 = 0x40302010 ∧
    (after .palEncode fiveColours).gctWord 3 = 0x00F0E0D0 ∧
    (after .palEncode fiveColours).gctWord 4 = 0 := by decide

/-- PE4, PE9: 257 colours fail although no entry is in range, and clear a loaded GCT. -/
theorem test_pal_encode_too_large :
    (after .palEncode { after .palEncode fiveColours with
      imem := [(0, 1), (1, 1)], imemSize := 4 }).statusWord = 0x00000314 ∧
    (after .palEncode { after .palEncode fiveColours with
      imem := [(0, 1), (1, 1)], imemSize := 4 }).gctInfo = 0 := by decide

/-- S3, S11d: SBW_OPEN, also of a FAILED writer. -/
theorem test_sbw_open :
    (after .sbwOpen (base 1 [] 0 0)).statusWord = 0x00000010 ∧
    (after .sbwOpen (base 1 [] 0 0)).sbwInfo = 0 ∧
    (after .sbwOpen { base 1 [] 0 0 with
      sbw := { st := .failed { kind := .shortWrite, code := 0 }, data := [1] } }).sbwInfo = 0 := by
  decide

/-- S4: the append of AA BB CC. -/
theorem test_sbw_append :
    (after .sbwAppend (writer 0 3)).csr.res0 = 3 ∧
    (after .sbwAppend (writer 0 3)).sbwInfo = 0x00000003 ∧
    (after .sbwAppend (writer 0 3)).stream = [] := by decide

/-- S14, S15, S1: the edge of IMEM, and a CLOSED writer. -/
theorem test_sbw_append_edges :
    (after .sbwAppend (writer 16 0)).statusWord = 0x00000010 ∧
    (after .sbwAppend (writer 17 0)).statusWord = 0x00000B10 ∧
    (after .sbwAppend (base 16 bytesMem 0 3)).statusWord = 0x00000814 := by decide

/-- S4: the close after AA BB CC; S4b: the second close. -/
theorem test_sbw_close :
    (after .sbwClose (after .sbwAppend (writer 0 3))).stream = [0x03, 0xAA, 0xBB, 0xCC, 0x00] ∧
    (after .sbwClose (after .sbwAppend (writer 0 3))).csr.res0 = 5 ∧
    (after .sbwClose (after .sbwClose (after .sbwAppend (writer 0 3)))).statusWord = 0x00000814 ∧
    (after .sbwClose (after .sbwClose (after .sbwAppend (writer 0 3)))).csr.res0 = 0 := by decide

/-- S12: the sink takes all five bytes of the close and reports error 0x99; S7: fill 0. -/
theorem test_sbw_close_sink_error :
    (after .sbwClose (scripted [⟨5, some 0x99⟩] (after .sbwAppend (writer 0 3)))).statusWord =
      0x00990612 ∧
    (after .sbwClose (scripted [⟨5, some 0x99⟩] (after .sbwAppend (writer 0 3)))).sbwInfo =
      0x00990603 ∧
    (after .sbwClose (scripted [⟨5, some 0x99⟩] (after .sbwAppend (writer 0 3)))).csr.res0 = 5 ∧
    (after .sbwClose (writer 0 0)).stream = [0x00] := by decide

/-- LC1, and LE2: lit 9 is no literal width. -/
theorem test_lzw_open :
    (after .lzwOpen (writer 2 0)).statusWord = 0x00000000 ∧
    (after .lzwOpen (writer 2 0)).lzwInfo0 = 0x00050032 ∧
    (after .lzwOpen (base 1 [] 9 0)).statusWord = 0x00000D14 ∧
    (after .lzwOpen (base 1 [] 9 0)).lzwInfo0 = 0 := by decide

/-- LC2: LZW_WRITE of 00 01. LE13, its first write: 00 00 00 00 is a miss, a hit and a miss. -/
theorem test_lzw_write :
    (after .lzwWrite (units 8 2)).csr.res0 = 0 ∧
    (after .lzwWrite (units 8 2)).lzwInfo0 = 0x00060332 ∧
    (after .lzwWrite (units 8 2)).lzwInfo1 = 0x00001001 ∧
    (after .lzwWrite (units 8 2)).lzwInfo2 = 0 ∧
    (after .lzwWrite { units 0 4 with imem := [] }).lzwInfo0 = 0x00070632 ∧
    (after .lzwWrite { units 0 4 with imem := [] }).lzwInfo1 = 0x00001000 ∧
    (after .lzwWrite { units 0 4 with imem := [] }).lzwInfo2 = 0x00000030 := by decide

/-- LE5: a byte above 2^lit − 1; LE3: a CLOSED unit; LE8: a CLOSED writer. -/
theorem test_lzw_write_failures :
    (after .lzwWrite { units 0 1 with imem := [(0, 4)] }).statusWord = 0x00000908 ∧
    (after .lzwWrite { units 0 1 with imem := [(0, 4)] }).lzwInfo1 = 0x00090000 ∧
    (after .lzwWrite (base 16 bytesMem 0 1)).statusWord = 0x00000A14 ∧
    (after .lzwWrite le8).statusWord = 0x0000080C ∧ (after .lzwWrite le8).csr.res0 = 0 ∧
    (after .lzwWrite le8).lzwInfo0 = 0x00070932 ∧
    (after .lzwWrite le8).lzwInfo2 = 0x000001F0 := by decide

/-- LC3: LZW_CLOSE after 00 01. -/
theorem test_lzw_close :
    (after .lzwClose (after .lzwWrite (units 8 2))).csr.res0 = 2 ∧
    (after .lzwClose (after .lzwWrite (units 8 2))).statusWord = 0x00000010 ∧
    (after .lzwClose (after .lzwWrite (units 8 2))).lzwInfo0 = 0x00070032 ∧
    (after .lzwClose (after .lzwWrite (units 8 2))).sbw.data = [0x48, 0x01] := by decide

/-- LE10: LZW_CLOSE after SBW_CLOSE. -/
theorem test_lzw_close_after_sbw_close :
    (after .lzwClose (after .sbwClose (after .lzwWrite (units 8 2)))).statusWord = 0x0000080C ∧
    (after .lzwClose (after .sbwClose (after .lzwWrite (units 8 2)))).lzwInfo0 = 0x00070932 ∧
    (after .lzwClose (after .sbwClose (after .lzwWrite (units 8 2)))).lzwInfo1 = 0x00081001 ∧
    (after .lzwClose (after .sbwClose (after .lzwWrite (units 8 2)))).lzwInfo2 = 0x00000148 := by
  decide

/-- P1 (W1, Scenario A): the 34 bytes. -/
theorem test_enc_anim_scenario_a :
    (after .encAnim p1).stream =
      [0x47, 0x49, 0x46, 0x38, 0x39, 0x61, 0x01, 0x00, 0x01, 0x00, 0xF0, 0x00, 0x00, 0x00, 0x00,
       0x00, 0x00, 0x00, 0x00, 0x2C, 0x00, 0x00, 0x00, 0x00, 0x01, 0x00, 0x01, 0x00, 0x00, 0x02,
       0x01, 0x28, 0x00, 0x3B] ∧
    (after .encAnim p1).statusWord = 0x00000034 ∧ (after .encAnim p1).csr.res0 = 34 ∧
    (after .encAnim p1).csr.res1 = 1 ∧ (after .encAnim p1).lzwInfo0 = 0x00060032 := by decide

/-- A8, A12, A14, A18, A19, A20: another palette, a byte that is no literal, a row out of range,
and a sink failure of the GCT, of the writer's close and of the trailer. -/
theorem test_enc_anim_failures :
    (after .encAnim (a8 0x70)).statusWord = 0x00000434 ∧
    (after .encAnim (a8 0x70)).stream.drop 49 = [0x01, 0x29, 0x00, 0x21, 0xF9, 4, 0, 5, 0, 0, 0] ∧
    (after .encAnim (a12 128 1 1 [(0x10, 1)] [(0x40, 4)])).statusWord = 0x00000928 ∧
    (after .encAnim (a12 256 2 2 [(0x10, 0x2C), (0x11, 1)] [(0x41, 1)])).statusWord =
      0x00000B20 ∧
    (after .encAnim a18).statusWord = 0x00420634 ∧
    (after .encAnim a19).statusWord = 0x00000732 ∧ (after .encAnim a19).csr.res0 = 31 ∧
    (after .encAnim a19).sbwInfo = 0x00000701 ∧
    (after .encAnim a20).statusWord = 0x00070634 ∧ (after .encAnim a20).csr.res1 = 1 := by decide

/-- The host's side (R34, R127): ARG0 = 5, BITWIDTH, WAIT, read RES0; the word runs as the
first step after withFetchWord. -/
theorem test_host_program :
    (stepped (stepped (stepped (stepped (stepped (hosted
      [.csrWrite .w32 0x008 5, .csrWrite .w32 0x000 1, .wait, .csrRead .w32 0x010]
      (base 1 [] 0 0))))))).host.rdata = 3 ∧
    (stepped (State.reset.withFetchWord 32 1)).csr.result = .ok := by decide

/-- LC2 and PE1 through the CSR port (R33): RES0, STATUS, LZW_INFO0, LZW_INFO1, GCT_INFO. -/
theorem test_host_reads :
    (stepped (hosted [.csrRead .w32 0x010] (after .palEncode fiveColours))).host.rdata = 3 ∧
    (stepped (hosted [.csrRead .w32 0x004] (after .palEncode fiveColours))).host.rdata = 0x34 ∧
    (stepped (hosted [.csrRead .w32 0x01C] (after .lzwWrite (units 8 2)))).host.rdata =
      0x00060332 ∧
    (stepped (hosted [.csrRead .w32 0x020] (after .lzwWrite (units 8 2)))).host.rdata =
      0x00001001 ∧
    (stepped (hosted [.csrRead .w32 0x028] (after .palEncode fiveColours))).host.rdata =
      0x00000183 := by decide

/-- The whole P2 stream decodes (W8): each frame's data bytes give back its pixels. -/
theorem test_gif_decode :
    gifDecode 2 [0x48, 0x01] = some [0, 1] ∧ gifDecode 2 [0x41, 0x01] = some [1, 0] ∧
      gifDecode 2 [0xF0, 0xB1, 0x00] = some (List.replicate 10 0) ∧ gifDecode 2 [0x48] = none := by
  decide

/-! ### Witnesses: steps, the host and reset -/

/-- The ends of each illegal range, R123: 0x00; 0x0A and 0xFF; RSVD = 1 and its top bit. -/
theorem witness_illegal_word_completes :
    (0x00000000#32).toNat % 256 = 0 ∧ 10 ≤ (0x0000000A#32).toNat % 256 ∧
    10 ≤ (0x000000FF#32).toNat % 256 ∧ (0x00000101#32).toNat / 256 ≠ 0 ∧
    (0x80000009#32).toNat / 256 ≠ 0 ∧
    ¬((0x00000009#32).toNat % 256 = 0 ∨ 10 ≤ (0x00000009#32).toNat % 256 ∨
      (0x00000009#32).toNat / 256 ≠ 0) ∧
    ∀ w, (running w p1).inReset = false ∧ (running w p1).seq.cmd = some w ∧
      (running w p1).host.agenda = [] :=
  ⟨by decide, by decide, by decide, by decide, by decide, by decide, fun _ => ⟨rfl, rfl, rfl⟩⟩

theorem witness_step_runs_decoded :
    (running 9 p1).inReset = false ∧ (running 9 p1).seq.cmd = some 9 ∧
    decode 9 = .command .encAnim ∧ Instr.encAnim.wellFormed = true ∧
    (running 9 p1).host.agenda = [] ∧
    (hosted [.wait, .resetAssert] (running 9 p1)).seq.cmd = some 9 ∧
    (hosted [.wait, .resetAssert] (running 9 p1)).host.agenda = .wait :: [.resetAssert] := by decide

theorem witness_step_takes_host_move :
    (hosted [.resetAssert] (running 9 p1)).host.agenda = [.resetAssert] ∧
    HostMove.resetAssert ≠ .wait ∧ (hosted [.wait] p1).host.agenda = [.wait] ∧
    (hosted [.wait] p1).seq.cmd = none ∧ p1.host.agenda = [] ∧ p1.inReset = false := by decide

theorem witness_cmd_write_sets_busy :
    p1.inReset = false ∧ p1.busy = false ∧ p1.seq = .idle ∧ (0 : BitVec 11).toNat < 4 ∧
    (3 : BitVec 11).toNat < 4 ∧ ¬(4 : BitVec 11).toNat < 4 := by decide

theorem witness_busy_writes_dropped :
    (running 9 p1).inReset = false ∧ (running 9 p1).busy = true := by decide

/-- The four offsets of STATUS end at 7; 3 and 8 are other registers. -/
theorem witness_busy_reads :
    (running 9 p1).inReset = false ∧ (running 9 p1).busy = true ∧
    (4 : BitVec 11).toNat / 4 = 1 ∧ (7 : BitVec 11).toNat / 4 = 1 ∧
    (3 : BitVec 11).toNat / 4 ≠ 1 ∧ (8 : BitVec 11).toNat / 4 ≠ 1 := by decide

theorem witness_arg_registers_hold :
    p1.inReset = false ∧ p1.busy = false ∧ ∃ t, exec .bitwidth p1 = .next t :=
  ⟨by decide, by decide, after .bitwidth p1, rfl⟩

theorem witness_csr_access_rules :
    (0x3FC : BitVec 11).toNat / 4 = (0x3FF : BitVec 11).toNat / 4 ∧
    AccessWidth.w8 ≠ .w32 ∧ AccessWidth.w16 ≠ .w32 ∧ p1.inReset = false ∧ p1.busy = false ∧
    4 ≤ (4 : BitVec 11).toNat ∧ 4 ≤ (0x7FF : BitVec 11).toNat ∧
    (0x000 : BitVec 11).toNat / 4 = 0 ∧ (0x003 : BitVec 11).toNat / 4 = 0 ∧
    (0x008 : BitVec 11).toNat / 4 = 2 ∧ (0x00F : BitVec 11).toNat / 4 = 3 ∧
    (0x010 : BitVec 11).toNat / 4 = 4 ∧ (0x017 : BitVec 11).toNat / 4 = 5 := by decide

/-- The reads of StatusFields and InfoRegisterFields: both ends of STATUS and of the INFO
registers, and each of those. -/
theorem witness_register_reads :
    p1.inReset = false ∧ p1.busy = false ∧
    (0x004 : BitVec 11).toNat / 4 = 1 ∧ (0x007 : BitVec 11).toNat / 4 = 1 ∧
    (0x018 : BitVec 11).toNat / 4 = 6 ∧ (0x01C : BitVec 11).toNat / 4 = 7 ∧
    (0x020 : BitVec 11).toNat / 4 = 8 ∧ (0x024 : BitVec 11).toNat / 4 = 9 ∧
    (0x028 : BitVec 11).toNat / 4 = 10 ∧ (0x02B : BitVec 11).toNat / 4 = 10 := by decide

/-- The first and the last word of the window, and the ends of the reserved ranges. -/
theorem witness_gct_window_and_reserved :
    p1.inReset = false ∧ p1.busy = false ∧
    (0x400 : BitVec 11).toNat = 0x400 + 4 * 0 ∧ (0x6FC : BitVec 11).toNat = 0x400 + 4 * 191 ∧
    0x02C ≤ (0x02C : BitVec 11).toNat ∧ (0x3FF : BitVec 11).toNat ≤ 0x3FF ∧
    0x700 ≤ (0x700 : BitVec 11).toNat ∧ 0x700 ≤ (0x7FF : BitVec 11).toNat ∧
    4 ≤ (4 : BitVec 11).toNat ∧ (7 : BitVec 11).toNat < 8 ∧ ¬(8 : BitVec 11).toNat < 8 ∧
    ¬0x010 ≤ (0x00F : BitVec 11).toNat ∧ 0x010 ≤ (0x010 : BitVec 11).toNat := by decide

/-- The LZW unit of LC2 with `code` saved: one dictionary entry and three pending bits. -/
def lc2Lzw (code : Code) : Lzw :=
  { st := .opened, lit := 2, width := 3, hi := 6, saved := some code, bitbuf := 0, nbits := 3,
    dict := [{ stem := 0, byte := 1, code := 6 }] }

/-- It is sound with any code up to HI as the saved one. -/
theorem lc2Lzw_sound (code : Code) (low : code.toNat ≤ 6) : LzwSound (lc2Lzw code) where
  litHigh := show 2 ≤ 8 by decide
  widthHigh := show 3 ≤ 12 by decide
  bitsHigh := show 3 ≤ 19 by decide
  noStray := show (0 : BitVec 32).toNat < 2 ^ 3 by decide
  whenFailed f h := by cases h
  whileShut h := by cases h
  whileOpen _ :=
    { litLow := show 2 ≤ 2 by decide
      hiLow := show 2 ^ 2 + 1 ≤ (6 : Code).toNat by decide
      hiHigh := show (6 : Code).toNat ≤ 4094 by decide
      widthLow := show 2 + 1 ≤ 3 by decide
      widthHolds := show (6 : Code).toNat < 2 ^ 3 by decide
      widthLeast := fun _ h _ => h
      fewBits := show 3 ≤ 7 by decide
      savedCode := by intro c h; cases h; exact low
      dictCodes := show ∀ e ∈ [({ stem := 0, byte := 1, code := 6 } : DictEntry)],
        2 ^ 2 + 2 ≤ e.code.toNat ∧ e.code.toNat ≤ (6 : Code).toNat by decide
      dictKeys := List.pairwise_singleton _ _ }

/-- It is what LC2 leaves, with 01 saved. -/
theorem lc2_lzw_sound : LzwSound (after .lzwWrite (units 8 2)).lzw :=
  (show (after .lzwWrite (units 8 2)).lzw = lc2Lzw 1 by decide) ▸ lc2Lzw_sound 1 (by decide)

/-- A sound state with both units open and IMEM not empty (LC2). -/
theorem witness_sound : Inv (after .lzwWrite (units 8 2)) where
  csr := by unfold CsrSound; decide
  sbw := by
    have : (after .lzwWrite (units 8 2)).sbw = { st := .writable, data := [] } := by decide
    rw [this]; unfold SbwSound; decide
  lzw := lc2_lzw_sound
  gct := by
    have : (after .lzwWrite (units 8 2)).gct = .cleared := by decide
    rw [this]; exact ⟨by decide, by simp [Gct.cleared]⟩
  imem := ⟨by decide, by decide, by decide, by decide⟩
  txs := by
    have : (after .lzwWrite (units 8 2)).sink.txs = [] := by decide
    rw [this]; intro t h; cases h
  seq := by decide
  reset := by decide

/-- StatusFields, InfoRegisterFields and StepKeepsSoundState. -/
theorem witness_step_keeps_sound_state :
    Inv (after .lzwWrite (units 8 2)) ∧
      (after .lzwWrite (units 8 2)).csr.result ≠ .failed .sink ∧
      ∃ t, step (after .lzwWrite (units 8 2)) = .next t :=
  ⟨witness_sound, by decide, _, rfl⟩

theorem witness_reset_release :
    (heldInReset (after .lzwWrite (units 8 2))).inReset = true := by decide

/-- A reset while ENC_ANIM runs, whose six transactions are all still to come. -/
theorem witness_reset_during_command :
    (running 9 p1).inReset = false ∧ (running 9 p1).seq.cmd = some 9 ∧
      (pendingTxs (running 9 p1)).length = 6 := by decide

theorem witness_access_in_reset_refused :
    (heldInReset p1).inReset = true ∧ (heldInReset p1).host.agenda = [] := by decide

/-- The last IMEM byte and the first address beyond it. -/
theorem witness_host_imem_write :
    p1.inReset = false ∧ p1.busy = false ∧ (running 9 p1).busy = true ∧
    (running 9 p1).inReset = false ∧ p1.imemSize ≤ (128 : Word).toNat ∧
    (127 : Word).toNat < p1.imemSize ∧ Memory.wf p1.imem := by decide

/-! ### Witnesses: all commands -/

/-- Every command has a next state: CommandsLeaveInputs, UnitFrames, ArgRegistersHold. -/
theorem witness_unit_frames :
    (∃ t, exec .bitwidth p1 = .next t) ∧ (∃ t, exec .palEncode p1 = .next t) ∧
    (∃ t, exec .sbwOpen p1 = .next t) ∧ (∃ t, exec .sbwAppend p1 = .next t) ∧
    (∃ t, exec .sbwClose p1 = .next t) ∧ (∃ t, exec .lzwOpen p1 = .next t) ∧
    (∃ t, exec .lzwWrite (units 8 2) = .next t) ∧
    (∃ t, exec .lzwClose (units 8 2) = .next t) ∧ Instr.encAnim ≠ .sbwAppend ∧
    (∃ t, exec .encAnim p1 = .next t) :=
  ⟨⟨_, rfl⟩, ⟨_, rfl⟩, ⟨_, rfl⟩, ⟨after .sbwAppend p1, rfl⟩, ⟨_, rfl⟩, ⟨after .lzwOpen p1, rfl⟩,
    ⟨after .lzwWrite (units 8 2), rfl⟩, ⟨_, rfl⟩, by decide, ⟨_, rfl⟩⟩

/-- With a sink that refuses the LSD, and with one that accepts everything. -/
theorem witness_appended_bytes_are_prefix :
    ∃ t u, exec .encAnim (scripted [⟨6, none⟩, ⟨2, some 7⟩] p1) = .next t ∧
      exec .encAnim (scripted [⟨6, none⟩, ⟨2, some 7⟩] p1).withAcceptAll = .next u :=
  ⟨_, _, rfl, rfl⟩

/-- A transaction answered with an error, one cut short, and one taken whole. -/
theorem witness_sink_transaction :
    [0x47#8, 0x49#8] ≠ [] ∧ (scripted [⟨2, some 7⟩] p1).sink.answer 2 = (2, some 7) ∧
    (scripted [⟨1, none⟩] p1).sink.answer 2 = (1, none) ∧ p1.sink.answer 2 = (2, none) := by decide

/-- Both sides of the edge of IMEM, with no byte and with some. -/
theorem witness_imem_reads :
    memBytes 128 0 p1 = some [] ∧ memBytes 129 0 p1 = none ∧ p1.imemSize < 129 + 0 ∧
    (memRead 124 4 p1).isSome = true ∧ memRead 125 4 p1 = none ∧ p1.imemSize < 125 + 4 := by decide

/-- Both sides of the edge of IMEM, for a header and for frame descriptor 1. -/
theorem witness_descriptor_fields :
    (∃ u16 u32 : Nat → Nat,
      (∀ x, u16 x = (Memory.read p2.imem x).toNat + 256 * (Memory.read p2.imem (x + 1)).toNat) ∧
      ∀ x, u32 x = u16 x + 65536 * u16 (x + 2)) ∧
    0 + 8 ≤ { p2 with imemSize := 8 }.imemSize ∧ { p2 with imemSize := 7 }.imemSize < 0 + 8 ∧
    32 = 0 + 8 + 24 * 1 ∧ 32 + 24 ≤ { p2 with imemSize := 56 }.imemSize ∧
    { p2 with imemSize := 55 }.imemSize < 0 + 8 + 24 * 1 + 24 :=
  ⟨⟨_, _, fun _ => rfl, fun _ => rfl⟩, by decide, by decide, by decide, by decide, by decide⟩

/-! ### Witnesses: PAL_ENCODE and the palette check -/

/-- Five colours in just enough IMEM, and the ends of the range of COUNT. -/
theorem witness_pal_encode_loads_table :
    fiveColours.argA + 4 ≤ fiveColours.imemSize ∧
    5 = (Memory.read fiveColours.imem fiveColours.argA).toNat +
      256 * (Memory.read fiveColours.imem (fiveColours.argA + 1)).toNat ∧
    fiveColours.argA + 4 + 4 * 5 ≤ fiveColours.imemSize ∧
    256 = (Memory.read (base 1028 [(1, 1)] 0 0).imem 0).toNat +
      256 * (Memory.read (base 1028 [(1, 1)] 0 0).imem 1).toNat ∧
    0 + 4 + 4 * 256 ≤ (base 1028 [(1, 1)] 0 0).imemSize ∧
    1 = (Memory.read (base 8 [(0, 1)] 0 0).imem 0).toNat +
      256 * (Memory.read (base 8 [(0, 1)] 0 0).imem 1).toNat ∧
    0 + 4 + 4 * 1 ≤ (base 8 [(0, 1)] 0 0).imemSize := by decide

/-- Each failure of PAL_ENCODE: header, COUNT 0, COUNT 257, entries. -/
theorem witness_pal_encode_failures :
    ∀ x ∈ [((3 : Nat), ([] : Memory), (0 : Nat), FailKind.imemRange),
        (4, [], 0, .paletteEmpty), (4, [(0, 1), (1, 1)], 257, .paletteTooLarge),
        (7, [(0, 1)], 1, .imemRange)],
      x.2.2.1 = (Memory.read (base x.1 x.2.1 0 0).imem 0).toNat +
        256 * (Memory.read (base x.1 x.2.1 0 0).imem 1).toNat ∧
      (if x.1 < 0 + 4 then some FailKind.imemRange
        else if x.2.2.1 = 0 then some .paletteEmpty
        else if 256 < x.2.2.1 then some .paletteTooLarge
        else if x.1 < 0 + 4 + 4 * x.2.2.1 then some .imemRange
        else none) = some x.2.2.2 := by decide

/-- The loaded palette against itself, another one against it, and a palette out of range. -/
theorem witness_palette_check :
    palEncode 0 (after .palEncode fiveColours) = .table 3
      [0x10, 0x20, 0x30, 0x40, 0x50, 0x60, 0x70, 0x80, 0x90, 0xA0, 0xB0, 0xC0, 0xD0, 0xE0, 0xF0,
       0, 0, 0, 0, 0, 0, 0, 0, 0] ∧
    (after .palEncode fiveColours).gctTable =
      [0x10, 0x20, 0x30, 0x40, 0x50, 0x60, 0x70, 0x80, 0x90, 0xA0, 0xB0, 0xC0, 0xD0, 0xE0, 0xF0,
       0, 0, 0, 0, 0, 0, 0, 0, 0] ∧
    palEncode 0x30 p1 = .table 1 [0, 0, 0, 0, 0, 0] ∧
    p1.gctTable ≠ [0, 0, 0, 0, 0, 0] ∧ palEncode 126 p1 = .fail .imemRange ∧
    palEncode 0x40 p1 = .fail .paletteEmpty := by decide

/-! ### Witnesses: the sub-block writer -/

/-- An append that fills the writer to 254, and an empty one at the end of IMEM. -/
theorem witness_sbw_append_buffers :
    (writer 0 3).sbw.st = .writable ∧ (writer 0 3).argA + (writer 0 3).argB ≤ (writer 0 3).imemSize ∧
    { writer 0 3 with sbw := ⟨.writable, List.replicate 251 0⟩ }.sbw.data.length + 3 ≤ 254 ∧
    (writer 16 0).argA + (writer 16 0).argB ≤ (writer 16 0).imemSize := by decide

/-- An append that completes a unit of 255 bytes. -/
theorem witness_sbw_append_flushes_units :
    (writer 0 1).sbw.st = .writable ∧
    { writer 0 1 with sbw := ⟨.writable, List.replicate 254 0⟩ }.sbw.data.length ≤ 254 ∧
    (writer 0 1).argA + (writer 0 1).argB ≤ (writer 0 1).imemSize ∧
    ((writer 0 1).sink.script = [] ∧ (writer 0 1).sink.onward = .acceptAll) ∧
    ∃ all : List Byte, all = List.replicate 254 0 ++
      ((List.range (writer 0 1).argB).map fun i =>
        Memory.read (writer 0 1).imem ((writer 0 1).argA + i)) ∧ all.length / 255 = 1 :=
  ⟨rfl, by decide, by decide, ⟨rfl, rfl⟩, _, rfl, by decide⟩

theorem witness_sbw_append_rejections :
    (writer 17 0).imemSize < (writer 17 0).argA + (writer 17 0).argB ∧
    (writer 16 0).argA + (writer 16 0).argB ≤ (writer 16 0).imemSize ∧
    { writer 16 0 with sbw := ⟨.failed ⟨.sink, 7⟩, []⟩ }.sbw.st = .failed ⟨.sink, 7⟩ ∧
    (base 16 bytesMem 16 0).sbw.st = .closed := by decide

/-- A writer one byte short of a full unit, and a sink that takes 100 bytes of that unit. -/
def shortUnit : State :=
  scripted [⟨100, none⟩] { writer 0 1 with sbw := ⟨.writable, List.replicate 254 0⟩ }

/-- The sink of `shortUnit` fails at the one unit, as in S11. -/
theorem shortUnit_sink_fails :
    SinkFailsAt shortUnit.sink [255 :: (List.replicate 254 0 ++ [0xAA])] 0
      (255 :: (List.replicate 254 0 ++ [0xAA])) shortUnit.sink 100 none :=
  ⟨rfl, rfl, by decide, .inr (by decide)⟩

/-- S11 with one byte: an append whose only unit the sink cuts short. -/
theorem witness_sbw_append_fail_count :
    (exec .sbwAppend shortUnit = .next (after .sbwAppend shortUnit) ∧
      (after .sbwAppend shortUnit).csr.result ≠ .ok) ∧
    shortUnit.sbw.st = .writable ∧ shortUnit.sbw.data.length ≤ 254 ∧
    shortUnit.argA + shortUnit.argB ≤ shortUnit.imemSize ∧
    (∃ all : List Byte, all = shortUnit.sbw.data ++
      ((List.range shortUnit.argB).map fun i =>
        Memory.read shortUnit.imem (shortUnit.argA + i)) ∧
      SinkFailsAt shortUnit.sink (fullUnits all) 0 (255 :: (List.replicate 254 0 ++ [0xAA]))
        shortUnit.sink 100 none) :=
  ⟨⟨rfl, by decide⟩, by decide, by decide, by decide, _, rfl, shortUnit_sink_fails⟩

/-- A close of a full 254-byte block and a close of an empty one. -/
theorem witness_sbw_close_result :
    (writer 0 0).sbw.st = .writable ∧ (writer 0 0).sbw.data = [] ∧
    { writer 0 0 with sbw := ⟨.writable, List.replicate 254 0⟩ }.sbw.data.length ≤ 254 ∧
    (writer 0 0).sink.script = [] ∧ (writer 0 0).sink.onward = .acceptAll := by decide

/-- S12: an error with every byte taken; and a close cut short. -/
theorem witness_sbw_close_sink_failure :
    (scripted [⟨5, some 0x99⟩] (after .sbwAppend (writer 0 3))).sbw.st = .writable ∧
    (scripted [⟨5, some 0x99⟩] (after .sbwAppend (writer 0 3))).sbw.data.length ≤ 254 ∧
    (closeBytes (scripted [⟨5, some 0x99⟩] (after .sbwAppend (writer 0 3)))).length = 5 ∧
    (scripted [⟨5, some 0x99⟩] (after .sbwAppend (writer 0 3))).sink.answer 5 = (5, some 0x99) ∧
    (scripted [⟨4, none⟩] (after .sbwAppend (writer 0 3))).sink.answer 5 = (4, none) := by decide

theorem witness_sbw_close_rejections :
    { writer 0 0 with sbw := ⟨.failed ⟨.shortWrite, 0⟩, []⟩ }.sbw.st = .failed ⟨.shortWrite, 0⟩ ∧
    (base 16 bytesMem 0 0).sbw.st = .closed := by decide

theorem witness_sbw_framing :
    ∃ t u, sbwAppendEach [[0xAA], [], [0xBB, 0xCC]] (sbwOpen (writer 0 0)) = .ok t ∧
      sbwClose t = .ok u :=
  ⟨_, _, rfl, rfl⟩

/-! ### Witnesses: the LZW unit -/

theorem witness_lzw_open_result :
    2 ≤ (base 1 [] 2 0).argA ∧ (base 1 [] 8 0).argA ≤ 8 ∧ (base 1 [] 1 0).argA < 2 ∧
      8 < (base 1 [] 9 0).argA := by decide

/-- Two literals, and the empty write. -/
theorem witness_lzw_write_result :
    (units 8 2).lzw.st = .opened ∧ (units 8 2).sbw.st = .writable ∧
    ((units 8 2).sink.script = [] ∧ (units 8 2).sink.onward = .acceptAll) ∧
    (units 8 2).argA + (units 8 2).argB ≤ (units 8 2).imemSize ∧
    [0#8, 1#8] = ((List.range (units 8 2).argB).map fun i =>
      Memory.read (units 8 2).imem ((units 8 2).argA + i)) ∧
    (∀ b ∈ [0#8, 1#8], (units 8 2).lzw.lit < 8 → b.toNat < 2 ^ (units 8 2).lzw.lit) ∧
    (units 16 0).argA + (units 16 0).argB ≤ (units 16 0).imemSize ∧
    [] = ((List.range (units 16 0).argB).map fun i =>
      Memory.read (units 16 0).imem ((units 16 0).argA + i)) := by decide

/-- LC2 with other operands and another saved code. -/
def lc2 (a0 a1 : Word) (code : Code) : State := { writer a0 a1 with lzw := lc2Lzw code }

/-- One byte after a saved code: 00 then 01 is an entry of LC2, 01 then 01 is none. -/
theorem witness_lzw_write_one_byte (code : Code) :
    (lc2 9 1 code).lzw.st = .opened ∧ (lc2 9 1 code).lzw.saved = some code ∧
    (lc2 9 1 code).argB = 1 ∧ (lc2 9 1 code).argA + 1 ≤ (lc2 9 1 code).imemSize ∧
    1 = Memory.read (lc2 9 1 code).imem (lc2 9 1 code).argA ∧
    (1 : Byte).toNat < 2 ^ (lc2 9 1 code).lzw.lit ∧ (lc2 9 1 code).sbw.st = .writable ∧
    (lc2 9 1 code).sink.accepting ∧ (lc2 9 1 code).lzw.hi.toNat ≤ 4093 ∧
    LzwSound (lc2 9 1 0).lzw ∧ LzwSound (lc2 9 1 1).lzw ∧
    { stem := 0, byte := 1, code := 6 } ∈ (lc2 9 1 0).lzw.dict ∧
    ∀ d ∈ (lc2 9 1 1).lzw.dict, d.stem = 1 → d.byte ≠ 1 :=
  ⟨rfl, rfl, rfl, (by decide : 9 + 1 ≤ 16), rfl, (by decide : 1 < 2 ^ 2), rfl, ⟨rfl, rfl⟩,
    (by decide : (6 : Code).toNat ≤ 4093), lc2Lzw_sound _ (by decide), lc2Lzw_sound _ (by decide),
    by decide, by decide⟩

theorem witness_lzw_write_first_byte :
    (units 9 1).lzw.st = .opened ∧ (units 9 1).lzw.saved = none ∧ (units 9 1).argB = 1 ∧
    (units 9 1).argA + 1 ≤ (units 9 1).imemSize ∧
    ((units 9 1).lzw.lit < 8 →
      (Memory.read (units 9 1).imem (units 9 1).argA).toNat < 2 ^ (units 9 1).lzw.lit) := by decide

/-- Each rejection of LZW_WRITE; 4 is the least byte that is no literal of lit 2. -/
theorem witness_lzw_write_rejections :
    (units 17 0).imemSize < (units 17 0).argA + (units 17 0).argB ∧
    (units 9 1).byteOperand = some [1] ∧
    { units 9 1 with lzw.st := .failed ⟨.sink, 7⟩ }.lzw.st = .failed ⟨.sink, 7⟩ ∧
    (writer 9 1).byteOperand = some [1] ∧ (writer 9 1).lzw.st = .closed ∧
    (units 16 0).byteOperand = some [] ∧ (units 16 0).lzw.st = .opened ∧
    { units 0 1 with imem := [(0, 4)] }.byteOperand = some [4] ∧
    (units 0 1).lzw.lit < 8 ∧ ∃ b ∈ [4#8], 2 ^ (units 0 1).lzw.lit ≤ b.toNat := by decide

/-- Fresh units of the least and the greatest lit, with 252 bytes buffered. -/
theorem witness_lzw_close_fresh :
    ∀ lit ∈ [2, 8], 2 ≤ lit ∧ lit ≤ 8 ∧
      { lzwOpen lit (writer 0 0) with sbw := ⟨.writable, List.replicate 252 0⟩ }.sbw.data.length
        ≤ 252 ∧
      (lzwOpen lit (writer 0 0)).sbw.st = .writable ∧
      (lzwOpen lit (writer 0 0)).lzw =
        { st := .opened, lit := lit, width := lit + 1, hi := BitVec.ofNat 12 (2 ^ lit + 1),
          saved := none, bitbuf := 0, nbits := 0, dict := [] } := by decide

theorem witness_lzw_close_not_open :
    { units 0 0 with lzw.st := .failed ⟨.lzwLiteral, 0⟩ }.lzw.st = .failed ⟨.lzwLiteral, 0⟩ ∧
      (writer 0 0).lzw.st = .closed := by decide

/-- Seven bits pending and a code of 12 bits: the most that can be, two bytes delivered. -/
theorem witness_emit_code_appends_bits :
    ∃ t, emitCode 0xFFF { units 0 0 with
        lzw.nbits := 7, lzw.bitbuf := 127, lzw.width := 12 } = .ok t ∧
      (7 ≤ 7 ∧ (127 : BitVec 32).toNat < 2 ^ 7 ∧ 12 ≤ 12 ∧ (0xFFF : Code).toNat < 2 ^ 12) :=
  ⟨_, rfl, by decide⟩

/-- An OPEN unit in 12-bit codes, with the counter at `n`. -/
def lzwAt (n : Code) : Lzw :=
  { st := .opened, lit := 8, width := 12, hi := n, saved := some 0, bitbuf := 0, nbits := 0,
    dict := [] }

/-- Such a unit is sound for every counter from 2048 to 4094. -/
theorem lzwAt_sound (n : Code) (low : 2048 ≤ n.toNat) (high : n.toNat ≤ 4094) :
    LzwSound (lzwAt n) where
  litHigh := Nat.le_refl 8
  widthHigh := Nat.le_refl 12
  bitsHigh := Nat.zero_le 19
  noStray := Nat.zero_lt_one
  whenFailed f h := by cases h
  whileShut h := by cases h
  whileOpen _ :=
    { litLow := show 2 ≤ 8 by omega
      hiLow := show 2 ^ 8 + 1 ≤ n.toNat by omega
      hiHigh := high
      widthLow := show 8 + 1 ≤ 12 by omega
      widthHolds := show n.toNat < 2 ^ 12 by omega
      widthLeast := by
        intro w _ h
        have h' : n.toNat < 2 ^ w := h
        rcases Nat.lt_or_ge w 12 with hw | hw
        · have : 2 ^ w ≤ 2 ^ 11 := Nat.pow_le_pow_right (by omega) (by omega)
          omega
        · exact hw
      fewBits := Nat.zero_le 7
      savedCode := by intro c h; cases h; exact Nat.zero_le _
      dictCodes := by intro e h; cases h
      dictKeys := List.Pairwise.nil }

/-- The counter at 4093, which still grows, and at 4094, where the table is full. -/
theorem witness_next_code_rule :
    LzwSound (lzwAt 4093) ∧ LzwSound (lzwAt 4094) ∧ (lzwAt 4093).hi.toNat ≤ 4093 ∧
    (lzwAt 4094).hi.toNat = 4094 ∧ (lzwAt 4094).st = .opened ∧ (units 0 0).sbw.st = .writable ∧
    (units 0 0).sink.script = [] ∧ (units 0 0).sink.onward = .acceptAll :=
  ⟨lzwAt_sound _ (by decide) (by decide), lzwAt_sound _ (by decide) (by decide), by decide⟩

/-- LzwWriteResult with the table full: an OPEN unit at 4094, with a saved code and no entry. -/
theorem witness_lzw_write_table_full :
    LzwSound { writer 9 1 with lzw := lzwAt 4094 }.lzw ∧
    { writer 9 1 with lzw := lzwAt 4094 }.lzw.hi.toNat = 4094 ∧
    { writer 9 1 with lzw := lzwAt 4094 }.lzw.st = .opened ∧
    { writer 9 1 with lzw := lzwAt 4094 }.lzw.saved = some 0 ∧
    { writer 9 1 with lzw := lzwAt 4094 }.argB = 1 ∧
    { writer 9 1 with lzw := lzwAt 4094 }.lzw.dict = [] ∧
    { writer 9 1 with lzw := lzwAt 4094 }.sbw.st = .writable :=
  ⟨lzwAt_sound _ (by decide) (by decide), by decide⟩

/-- OPEN units to close, with a writer and a sink that take their bytes: LC2, the same with no
saved code, and one whose saved code fills the table. -/
theorem witness_lzw_close_result (code : Code) :
    LzwSound (lc2 0 0 1).lzw ∧ (lc2 0 0 1).lzw.saved = some 1 ∧
    LzwSound { lc2Lzw 1 with saved := none } ∧
    LzwSound (lzwAt 4094) ∧ (lzwAt 4094).saved = some 0 ∧ (lzwAt 4094).hi.toNat = 4094 ∧
    (lc2Lzw code).st = .opened ∧ (lzwAt code).st = .opened ∧
    (lc2 0 0 code).sbw.st = .writable ∧ (lc2 0 0 code).sink.accepting :=
  have h := lc2Lzw_sound 1 (by decide)
  have o := h.whileOpen rfl
  ⟨h, rfl,
    { h with
      whileOpen := fun _ => { o with savedCode := fun _ hc => nomatch hc }
      whileShut := fun hs => nomatch hs },
    lzwAt_sound _ (by decide) (by decide), rfl, by decide, rfl, rfl, rfl, rfl, rfl⟩

/-- LE13: L5 split in two, with an empty write between, at the ends of the range of lit. -/
theorem witness_lzw_split_independence :
    (2 ≤ 2 ∧ 8 ≤ 8) ∧
    (∃ t, lzwWriteEach [[0, 0, 0, 0], [], [0, 0, 0, 0, 0, 0]] (lzwOpen 2 (writer 0 0)) = .ok t) ∧
    ∃ t, lzwWriteEach [[0xFF], [0xFF]] (lzwOpen 8 (writer 0 0)) = .ok t :=
  ⟨by decide, ⟨_, rfl⟩, ⟨_, rfl⟩⟩

theorem witness_lzw_round_trip :
    (writer 0 0).sbw.st = .writable ∧ (writer 0 0).sbw.data = [] ∧
    (∃ t u, lzwWriteEach [[0, 1], [1]] (lzwOpen 2 (writer 0 0)) = .ok t ∧ lzwClose t = .ok u) ∧
    ∃ t u, lzwWriteEach [[0xFF], [0]] (lzwOpen 8 (writer 0 0)) = .ok t ∧ lzwClose t = .ok u :=
  ⟨rfl, rfl, ⟨_, _, rfl, rfl⟩, ⟨_, _, rfl, rfl⟩⟩

/-- LE10: the writer closed before the OPEN unit of LC2. -/
theorem witness_finish_before_close :
    LzwSound (after .sbwClose (after .lzwWrite (units 8 2))).lzw ∧
    (after .sbwClose (after .lzwWrite (units 8 2))).lzw.st = .opened ∧
    (after .sbwClose (after .lzwWrite (units 8 2))).sbw.st = .closed := by
  have h : (after .sbwClose (after .lzwWrite (units 8 2))).lzw =
      (after .lzwWrite (units 8 2)).lzw := by decide
  exact ⟨h ▸ lc2_lzw_sound, by decide, by decide⟩

/-- LC2 with a writer one byte short of a full unit, and a sink that takes 100 bytes of it. -/
def lc2Short : State := { lc2 8 2 1 with sbw := shortUnit.sbw, sink := shortUnit.sink }

/-- The unit its LZW_CLOSE completes. -/
def lc2Unit : List Byte := 255 :: (List.replicate 254 0 ++ [0x48])

/-- A CLOSED writer (LE8), a FAILED one, and a sink that fails a full unit of LZW_CLOSE. -/
theorem witness_lzw_stores_writer_failure :
    (∃ f t, sbwPut 0 (base 1 [] 0 0) = .fail f t) ∧
    (le8.sbw.st = .closed ∧
      sbwPayload (sbwOpen le8.withAcceptAll) (after .lzwWrite (sbwOpen le8.withAcceptAll)) ≠ []) ∧
    ({ le8 with sbw := ⟨.failed ⟨.sink, 7⟩, []⟩ }.sbw.st = .failed ⟨.sink, 7⟩ ∧
      sbwPayload (sbwOpen le8.withAcceptAll) (after .lzwClose (sbwOpen le8.withAcceptAll)) ≠ []) ∧
    (lc2Short.sbw.st = .writable ∧ lc2Short.sbw.data.length ≤ 254 ∧
      ∃ new, (after .lzwClose lc2Short.withAcceptAll).sink.txs = lc2Short.sink.txs ++ new ∧
        SinkFailsAt lc2Short.sink (new.map Tx.offered) 0 lc2Unit lc2Short.sink 100 none) ∧
    LzwSound (lc2 8 2 1).lzw ∧ (lc2 8 2 1).lzw.st = .opened :=
  ⟨⟨_, _, rfl⟩, by decide, by decide,
    ⟨by decide, by decide, [{ offered := lc2Unit, taken := 256, err := none }], rfl,
      rfl, rfl, by decide, .inr (by decide)⟩, lc2Lzw_sound _ (by decide), by decide⟩

/-! ### Witnesses: ENC_ANIM -/

/-- Each failure before any output: A15, A3, A16, A4, A5 at its edge, and A17. -/
theorem witness_enc_anim_preflight :
    readHeader 252 { p1 with imemSize := 256 } = none ∧
    readHeader 0 (base 8 [] 0 0) = some (0, 0) ∧
    readHeader 0 { p2 with imemSize := 48 } = some (2, 0xCAFE) ∧ 1 < 2 ∧
    readFrame 0 1 { p2 with imemSize := 48 } = none ∧
    readHeader 0 p1 = some (1, 0) ∧
    readFrame 0 0 p1 = some ⟨0, 0, 1, 1, 1, 0x40, 0x30, 0⟩ ∧
    readFrame 0 0 { p1 with imem := Memory.write (Memory.write p1.imem 8 0xFF) 9 0xFF } =
      some ⟨65535, 0, 1, 1, 1, 0x40, 0x30, 0⟩ ∧
    65536 ≤ 65535 + 1 ∧ 65534 + 1 < 65536 ∧
    readFrame 0 0 { p1 with imem := Memory.write p1.imem 0x18 126 } =
      some ⟨0, 0, 1, 1, 1, 0x40, 126, 0⟩ ∧
    palEncode 126 { p1 with imem := Memory.write p1.imem 0x18 126 } = .fail .imemRange := by decide

/-- P1 is a valid animation of one frame, and its sink accepts everything. -/
theorem witness_one_frame_animation :
    AnimationValid p1 [⟨0, 0, 1, 1, 1, 0x40, 0x30, 0⟩] 0 1 1 1 [0, 0, 0, 0, 0, 0] ∧
      p1.sink.accepting := by
  refine ⟨⟨⟨by decide, by decide, ?_, by decide, by decide, by decide, ?_⟩, ?_⟩, by
    unfold Sink.accepting; decide⟩
  · intro i fd h
    match i, h with
    | 0, h => cases h; decide
  · intro fd h; cases h; decide
  · intro fd h
    simp only [List.mem_cons, List.not_mem_nil, or_false] at h
    subst h
    exact ⟨by decide, by unfold RowsFit; decide⟩

/-- EncAnimWritesStream, EncAnimLength and EncAnimRoundTrip: P2 is a valid animation of two
frames with delays, and its sink accepts everything. -/
theorem witness_two_frame_animation :
    AnimationValid p2 [⟨0, 0, 2, 1, 2, 0x80, 0x60, 10⟩, ⟨0, 0, 2, 1, 2, 0x90, 0x60, 20⟩] 0xCAFE
      2 1 1 [0, 0, 0, 0xFF, 0xFF, 0xFF] ∧ p2.sink.accepting := by
  refine ⟨⟨⟨by decide, by decide, ?_, by decide, by decide, by decide, ?_⟩, ?_⟩, by
    unfold Sink.accepting; decide⟩
  · intro i fd h
    match i, h with
    | 0, h => cases h; decide
    | 1, h => cases h; decide
  · intro fd h; cases h; decide
  · intro fd h
    simp only [List.mem_cons, List.not_mem_nil, or_false] at h
    rcases h with rfl | rfl
    · exact ⟨by decide, by
        intro r hr
        have : r = 0 := by have : r < 1 := hr; omega
        subst this; exact ⟨[0, 1], by decide, by decide⟩⟩
    · exact ⟨by decide, by
        intro r hr
        have : r = 0 := by have : r < 1 := hr; omega
        subst this; exact ⟨[1, 0], by decide, by decide⟩⟩

/-- EncAnimCounts and EncAnimClosesUnits: P1 succeeds, and its header can be read. -/
theorem witness_enc_anim_counts :
    (∃ t, exec .encAnim p1 = .next t) ∧ (after .encAnim p1).csr.result = .ok ∧
      readHeader p1.argA p1 = some (1, 0) := ⟨⟨_, rfl⟩, by decide, by decide⟩

/-- The frames of the A8 layout. -/
def a8Frames (pal : Nat) : List FrameDesc :=
  [⟨0, 0, 1, 1, 1, 0x80, 0x60, 0⟩, ⟨0, 0, 1, 1, 1, 0x80, pal, 5⟩]

/-- EncAnimStepFailures, palettes: A8 and A11 pass the checks before any output, their frame 0 is
valid, and the palette of their frame 1 is another one, or cannot be read. -/
theorem witness_enc_anim_other_palette :
    (∀ pal ∈ [(0x70 : Byte), 0xFE],
      AnimationRead (a8 pal) (a8Frames pal.toNat) 0 1 1 1 [0, 0, 0, 0xFF, 0xFF, 0xFF] ∧
      (a8 pal).sink.accepting ∧ ∀ fd ∈ (a8Frames pal.toNat).take 1,
        FrameValid (a8 pal) 1 [0, 0, 0, 0xFF, 0xFF, 0xFF] fd) ∧
    palEncode 0x70 (a8 0x70) = .table 1 [0, 0, 0, 0xFF, 0, 0] ∧
    palEncode 0xFE (a8 0xFE) = .fail .imemRange := by
  refine ⟨?_, by decide, by decide⟩
  intro pal hp
  simp only [List.mem_cons, List.not_mem_nil, or_false] at hp
  rcases hp with rfl | rfl
  all_goals
    refine ⟨⟨by decide, by decide, ?_, by decide, by decide, by decide, ?_⟩, ⟨rfl, rfl⟩, ?_⟩
    · intro i fd h
      match i, h with
      | 0, h => cases h; decide
      | 1, h => cases h; decide
    · intro fd h; cases h; decide
    · intro fd h
      rw [List.mem_singleton.mp h]
      refine ⟨by decide, fun r hr => ?_⟩
      have : r = 0 := by have : r < 1 := hr; omega
      subst this; exact ⟨[1], by decide, by decide⟩

/-- EncAnimStepFailures, rows: A12, whose row 0 has a byte that is no literal, and A14, whose row
0 fits and whose row 1 is out of range. -/
theorem witness_enc_anim_bad_rows :
    AnimationRead (a12 128 1 1 [(0x10, 1)] [(0x40, 4)]) [⟨0, 0, 1, 1, 1, 0x40, 0x30, 0⟩] 0 1 1 1
      [0, 0, 0, 0xFF, 0xFF, 0xFF] ∧
    (0 < 1 ∧ readRow ⟨0, 0, 1, 1, 1, 0x40, 0x30, 0⟩ 0 (a12 128 1 1 [(0x10, 1)] [(0x40, 4)]) =
      some [4] ∧ literalsFit (literalWidth 1) [4] = false) ∧
    AnimationRead (a12 256 2 2 [(0x10, 0x2C), (0x11, 1)] [(0x41, 1)])
      [⟨0, 0, 2, 2, 300, 0x40, 0x30, 0⟩] 0 2 2 1 [0, 0, 0, 0xFF, 0xFF, 0xFF] ∧
    (1 < 2 ∧ RowsFit (a12 256 2 2 [(0x10, 0x2C), (0x11, 1)] [(0x41, 1)]) 1
      ⟨0, 0, 2, 2, 300, 0x40, 0x30, 0⟩ 1 ∧
      readRow ⟨0, 0, 2, 2, 300, 0x40, 0x30, 0⟩ 1
        (a12 256 2 2 [(0x10, 0x2C), (0x11, 1)] [(0x41, 1)]) = none) := by
  refine ⟨⟨by decide, by decide, ?_, by decide, by decide, by decide, ?_⟩, by decide,
    ⟨by decide, by decide, ?_, by decide, by decide, by decide, ?_⟩, by decide, ?_, by decide⟩
  · intro i fd h
    match i, h with
    | 0, h => cases h; decide
  · intro fd h; cases h; decide
  · intro i fd h
    match i, h with
    | 0, h => cases h; decide
  · intro fd h; cases h; decide
  · intro r hr
    have : r = 0 := by omega
    subst this; exact ⟨[0, 1], by decide, by decide⟩

/-- P1 is a valid animation whatever its sink answers. -/
theorem p1_valid (script : List SinkAnswer) :
    AnimationValid (scripted script p1) [⟨0, 0, 1, 1, 1, 0x40, 0x30, 0⟩] 0 1 1 1
      [0, 0, 0, 0, 0, 0] :=
  have h := witness_one_frame_animation.1
  ⟨⟨h.header, h.nonempty, h.read, h.width, h.height, h.small, h.first⟩, fun fd hfd =>
    ⟨(h.valid fd hfd).palette, (h.valid fd hfd).rows⟩⟩

/-- The transactions of P1. -/
def p1Items : List SinkItem :=
  animationItems [⟨0, 0, 1, 1, 1, 0x40, 0x30, 0⟩] 0 1 1 1 [0, 0, 0, 0, 0, 0]
    (animationDatas [⟨0, 0, 1, 1, 1, 0x40, 0x30, 0⟩] 1 p1)

/-- EncAnimStepFailures, the sink: it fails at a direct write before the first frame is complete
(A18), at the writer's close (A19), and at a direct write after it (A20). -/
theorem witness_enc_anim_sink_failures :
    (∃ k, p1Items[2]? = some ⟨[0, 0, 0, 0, 0, 0], .direct, 0⟩ ∧
      SinkFailsAt a18.sink (p1Items.map SinkItem.bytes) 2 [0, 0, 0, 0, 0, 0] k 2 (some 0x42)) ∧
    (∃ k, p1Items[4]? = some ⟨[1, 0x28, 0], .closing, 0⟩ ∧
      SinkFailsAt a19.sink (p1Items.map SinkItem.bytes) 4 [1, 0x28, 0] k 1 none) ∧
    ∃ k, p1Items[5]? = some ⟨[0x3B], .direct, 1⟩ ∧
      SinkFailsAt a20.sink (p1Items.map SinkItem.bytes) 5 [0x3B] k 0 (some 7) :=
  ⟨⟨_, by decide, rfl, by decide, by decide, by decide⟩,
    ⟨_, by decide, rfl, by decide, by decide, by decide⟩,
    _, by decide, rfl, by decide, by decide, by decide⟩

/-- EncAnimNoRollback: P1 against a sink that refuses the GCT (A18), its transactions with a sink
that takes everything, and the one that fails. -/
theorem witness_enc_anim_no_rollback :
    (∃ t, exec .encAnim a18 = .next t) ∧ (∃ u, exec .encAnim a18.withAcceptAll = .next u) ∧
    (after .encAnim p1).csr.result = .ok ∧
    ∃ new k, (after .encAnim a18.withAcceptAll).sink.txs = a18.sink.txs ++ new ∧
      SinkFailsAt a18.sink (new.map Tx.offered) 2 [0, 0, 0, 0, 0, 0] k 2 (some 0x42) :=
  ⟨⟨_, rfl⟩, ⟨_, rfl⟩, by decide, (after .encAnim a18.withAcceptAll).sink.txs, _, rfl,
    rfl, by decide, by decide, by decide⟩

end Sys2Proof.Tests
end

section
/-!
SUPPORT. The commands as completions: every command runs one engine procedure, `commandRet`, and
completes with what it returned. Its frame, and that it keeps sound units, are said here once.
-/

namespace Sys2Proof.Machine

/-- The engine procedure a command runs before it completes (30_encoding.md R121); `exec_eq` ties
it to `exec`. -/
def commandRet (i : Instr) (s : State) : Ret :=
  match i with
  | .bitwidth => .ok s
  | .palEncode =>
    match palEncode s.argA s with
    | .table bits bytes => .ok (gctLoad (.table bits bytes) s)
    | .fail k => .fail (.plain k) (gctLoad (.fail k) s)
  | .sbwOpen => .ok (sbwOpen s)
  | .sbwAppend =>
    match s.byteOperand with
    | none => .fail (.plain .imemRange) s
    | some bs => (sbwAppendBytes bs s).2
  | .sbwClose => sbwClose { s with seq.accepted := 0 }
  | .lzwOpen =>
    if s.argA < 2 ∨ 8 < s.argA then .fail (.plain .badArg) s else .ok (lzwOpen s.argA s)
  | .lzwWrite =>
    match s.byteOperand with
    | none => .fail (.plain .imemRange) s
    | some bs => lzwWrite bs { s with seq.delivered := 0 }
  | .lzwClose => lzwClose { s with seq.delivered := 0 }
  | .encAnim => encodeAnimation s.argA { s with seq.accepted := 0, seq.framesDone := 0 }

/-- Every command is the completion of its procedure. -/
theorem exec_eq (i : Instr) (s : State) : ∃ a b,
    exec i s = .next ((commandRet i s).state.complete (commandRet i s).failure a b) := by
  cases i with
  | palEncode =>
    simp only [exec, execPalEncode, commandRet]
    cases palEncode s.argA s <;> exact ⟨_, _, rfl⟩
  | sbwAppend =>
    simp only [exec, execSbwAppend, commandRet]
    cases s.byteOperand <;> exact ⟨_, _, rfl⟩
  | lzwOpen =>
    simp only [exec, execLzwOpen, commandRet]
    split <;> exact ⟨_, _, rfl⟩
  | lzwWrite =>
    simp only [exec, execLzwWrite, commandRet]
    cases s.byteOperand <;> exact ⟨_, _, rfl⟩
  | bitwidth | sbwOpen | sbwClose | lzwClose | encAnim => exact ⟨_, _, rfl⟩

/-- What a command answers, taken apart. -/
theorem exec_next {i : Instr} {s t : State} (h : exec i s = .next t) :
    ∃ a b, t = (commandRet i s).state.complete (commandRet i s).failure a b := by
  obtain ⟨a, b, e⟩ := exec_eq i s
  rw [e] at h
  cases h
  exact ⟨a, b, rfl⟩

/-! ### Frames -/

/-- The frame of the writer says nothing of which draw is next. -/
theorem SbwFrame.withDraws {s t : State} (h : SbwFrame s t) (n : Nat) :
    SbwFrame { s with draws := n } { t with draws := n } :=
  ⟨h.csr, h.lzw, h.gct, h.imem, h.imemSize, h.host, h.inReset, rfl, h.cmd, h.delivered,
    h.framesDone, h.onward, h.grows⟩

/-- SbwAppendBytes stays inside the writer's frame, but for the draw of a failed append
(41_subblock_writer.md R209). -/
theorem sbwAppendBytes_frame (bs : List Byte) (s : State) :
    SbwFrame { s with draws := (sbwAppendBytes bs s).2.state.draws }
      (sbwAppendBytes bs s).2.state := by
  have h := sbwPutAll_frame bs s
  unfold sbwAppendBytes
  split
  · exact .refl s
  · cases hr : sbwPutAll bs s with
    | ok u => rw [hr] at h; exact h.withDraws u.draws
    | fail f u => rw [hr] at h; exact h.withDraws (u.draws + 1)

/-- Setting the hidden counts is inside the frame of CTRL. -/
theorem CtrlFrame.setCounts (s : State) (m n k : Nat) :
    CtrlFrame s { s with seq :=
      { cmd := s.seq.cmd, accepted := m, delivered := n, framesDone := k } } :=
  ⟨rfl, rfl, rfl, rfl, rfl, rfl, rfl, rfl, [], by simp⟩

/-- The frame of CTRL says nothing of which draw is next. -/
theorem CtrlFrame.withDraws {s t : State} (h : CtrlFrame s t) (n : Nat) :
    CtrlFrame { s with draws := n } { t with draws := n } :=
  ⟨h.csr, h.imem, h.imemSize, h.host, h.inReset, rfl, h.cmd, h.onward, h.grows⟩

/-- No command but SBW_APPEND takes a draw, and none leaves the frame of CTRL. -/
theorem commandRet_frame {i : Instr} (hi : i ≠ .sbwAppend) (s : State) :
    CtrlFrame s (commandRet i s).state := by
  cases i with
  | bitwidth => exact .refl s
  | palEncode =>
    simp only [commandRet]
    cases palEncode s.argA s with
    | table bits bytes => exact gctLoad_frame (.table bits bytes) s
    | fail k => exact gctLoad_frame (.fail k) s
  | sbwOpen => exact (sbwOpen_frame s).toCtrl
  | sbwAppend => exact absurd rfl hi
  | sbwClose => exact (CtrlFrame.setCounts s _ _ _).trans (sbwClose_frame _).toCtrl
  | lzwOpen =>
    simp only [commandRet]
    split
    · exact .refl s
    · exact (lzwOpen_frame _ s).toCtrl
  | lzwWrite =>
    simp only [commandRet]
    cases s.byteOperand with
    | none => exact .refl s
    | some bs => exact (CtrlFrame.setCounts s _ _ _).trans (lzwWrite_frame bs _).toCtrl
  | lzwClose => exact (CtrlFrame.setCounts s _ _ _).trans (lzwClose_frame _).toCtrl
  | encAnim => exact (CtrlFrame.setCounts s _ _ _).trans (encodeAnimation_frame _ _)

/-- Every command stays inside the frame of CTRL, but for the draw counter
(10_state.md R36, R49, 20_memory.md R81). -/
theorem commandRet_frame_withDraws (i : Instr) (s : State) :
    CtrlFrame { s with draws := (commandRet i s).state.draws } (commandRet i s).state := by
  by_cases hi : i = .sbwAppend
  · subst hi
    simp only [commandRet]
    cases s.byteOperand with
    | none => exact .refl s
    | some bs => exact (sbwAppendBytes_frame bs s).toCtrl
  · exact (commandRet_frame hi s).withDraws _

/-! ### The units stay sound -/

/-- The soundness of the units depends on nothing else. -/
theorem UnitsSound.congr {s t : State} (h : UnitsSound s) (hb : t.sbw = s.sbw)
    (hl : t.lzw = s.lzw) (hg : t.gct = s.gct) (hx : t.sink.txs = s.sink.txs) : UnitsSound t :=
  ⟨⟨hb ▸ h.out.sbw, hx ▸ h.out.txs⟩, hl ▸ h.lzw, hg ▸ h.gct⟩

/-- A failure value without a sink code is sound (00_scope.md R18). -/
theorem Failure.plain_sound (k : FailKind) : (Failure.plain k).sound := fun _ => rfl

/-- SbwAppendBytes keeps sound units (41_subblock_writer.md R209). -/
theorem sbwAppendBytes_kept (bs : List Byte) {s : State} (h : UnitsSound s) :
    UnitsKept (sbwAppendBytes bs s).2 := by
  have hk := sbwPutAll_sound bs h.out
  have hf := sbwPutAll_frame bs s
  unfold sbwAppendBytes
  split
  · rename_i f hc
    exact .fail h (sbwCheck_sound h.out.sbw hc)
  · cases hr : sbwPutAll bs s with
    | ok u =>
      rw [hr] at hk hf
      exact .ok ⟨hk.1, hf.lzw ▸ h.lzw, hf.gct ▸ h.gct⟩
    | fail f u =>
      rw [hr] at hk hf
      exact .fail ⟨⟨hk.1.sbw, hk.1.txs⟩, hf.lzw ▸ h.lzw, hf.gct ▸ h.gct⟩ (hk.2 f u rfl)

/-- LzwWrite keeps sound units. -/
theorem lzwWrite_unitsKept (bs : List Byte) {s : State} (h : UnitsSound s) :
    UnitsKept (lzwWrite bs s) :=
  (lzwWrite_kept bs h.out h.lzw).units (lzwWrite_frame bs s) h.gct

/-- LzwClose keeps sound units. -/
theorem lzwClose_unitsKept {s : State} (h : UnitsSound s) : UnitsKept (lzwClose s) :=
  (lzwClose_kept h.out h.lzw).units (lzwClose_frame s) h.gct

/-- GctLoad of an encoded palette keeps sound units. -/
theorem gctLoad_kept (p : Nat) {s : State} (h : UnitsSound s) :
    UnitsSound (gctLoad (palEncode p s) s) :=
  ⟨⟨by simpa using h.out.sbw, by simpa using h.out.txs⟩, by simpa using h.lzw,
    gctLoad_sound p s s⟩

/-- Every command keeps sound units, and its failure is sound. -/
theorem commandRet_kept (i : Instr) {s : State} (h : UnitsSound s) :
    UnitsKept (commandRet i s) := by
  have counts : ∀ q : Sequencer, UnitsSound { s with seq := q } := fun _ => h.congr rfl rfl rfl rfl
  cases i with
  | bitwidth => exact .ok h
  | palEncode =>
    have hg := gctLoad_kept s.argA h
    simp only [commandRet]
    cases hp : palEncode s.argA s with
    | table bits bytes => rw [hp] at hg; exact .ok hg
    | fail k => rw [hp] at hg; exact .fail hg (Failure.plain_sound k)
  | sbwOpen => exact .ok ⟨⟨by simp [SbwSound], h.out.txs⟩, h.lzw, h.gct⟩
  | sbwAppend =>
    simp only [commandRet]
    cases s.byteOperand with
    | none => exact .fail h (Failure.plain_sound _)
    | some bs => exact sbwAppendBytes_kept bs h
  | sbwClose => exact sbwClose_kept (counts _)
  | lzwOpen =>
    simp only [commandRet]
    split
    · exact .fail h (Failure.plain_sound _)
    · exact .ok ⟨⟨h.out.sbw, h.out.txs⟩, lzwOpen_sound (by omega) (by omega) s, h.gct⟩
  | lzwWrite =>
    simp only [commandRet]
    cases s.byteOperand with
    | none => exact .fail h (Failure.plain_sound _)
    | some bs => exact lzwWrite_unitsKept bs (counts _)
  | lzwClose => exact lzwClose_unitsKept (counts _)
  | encAnim => exact encodeAnimation_kept _ (counts _)

end Sys2Proof.Machine
end

section
/-!
SUPPORT. The sound states: every engine command, every move of the host and every step keeps
`Inv` (10_state.md R51).
-/

namespace Sys2Proof.Machine

theorem Inv.units {s : State} (h : Inv s) : UnitsSound s := ⟨⟨h.sbw, h.txs⟩, h.lzw, h.gct⟩

/-- A completion shows a sink code with E_SINK alone (10_state.md R35). -/
theorem csrSound_complete {f : Option Failure} (hf : ∀ g, f = some g → g.sound) (s : State)
    (a b : Word) : CsrSound (s.complete f a b).csr := by
  cases f with
  | none => exact fun _ => rfl
  | some g => exact fun hk => hf g rfl fun h => hk (congrArg Result.failed h)

theorem Ret.failure_eq_some {r : Ret} {f : Failure} :
    r.failure = some f ↔ ∃ s, r = .fail f s := by
  cases r <;> simp

/-- The completion of a procedure that keeps its frame and the units is a sound state. -/
theorem Inv.complete {s : State} {r : Ret} (h : Inv s)
    (hf : CtrlFrame { s with draws := r.state.draws } r.state) (hk : UnitsKept r) (a b : Word) :
    Inv (r.state.complete r.failure a b) := by
  obtain ⟨hu, hfail⟩ := hk
  refine ⟨csrSound_complete (fun g hg => ?_) _ _ _, hu.out.sbw, hu.lzw, hu.gct, ?_, hu.out.txs,
    rfl, fun _ => rfl⟩
  · obtain ⟨t, ht⟩ := Ret.failure_eq_some.1 hg
    exact hfail g t ht
  · rw [complete_imem, complete_imemSize, hf.imem, hf.imemSize]
    exact h.imem

/-- A command word, legal or not, leaves a sound state. -/
theorem Inv.runWord {s t : State} {w : Word} (h : Inv s) (hr : runWord w s = .next t) : Inv t := by
  unfold Machine.runWord at hr
  split at hr
  · rename_i i _
    obtain ⟨a, b, rfl⟩ := exec_next hr
    exact h.complete (commandRet_frame_withDraws i s) (commandRet_kept i h.units) a b
  · cases hr
    exact h.complete (r := .fail (.plain .badCommand) s) (.refl s)
      (.fail h.units (Failure.plain_sound _)) 0 0

/-- The agenda and the value read are no part of a sound state's facts. -/
theorem Inv.setHost {s : State} (h : Inv s) (p : HostSide) : Inv { s with host := p } :=
  ⟨h.csr, h.sbw, h.lzw, h.gct, h.imem, h.txs, h.seq, h.reset⟩

theorem Inv.drawn {s : State} (h : Inv s) : Inv s.drawn :=
  ⟨h.csr, h.sbw, h.lzw, h.gct, h.imem, h.txs, h.seq, h.reset⟩

theorem Inv.hostCsrRead {s : State} (h : Inv s) (off : BitVec 11) : Inv (hostCsrRead off s) := by
  unfold Machine.hostCsrRead
  split
  · exact h.drawn.setHost _
  · exact h.setHost _

/-- A CSR write outside reset keeps a sound state. -/
theorem Inv.hostCsrWrite {s : State} (h : Inv s) (hr : s.inReset = false) (off : BitVec 11)
    (v : Word) : Inv (hostCsrWrite off v s) := by
  unfold Machine.hostCsrWrite
  split
  · exact h
  · rcases csrStore_cases s v (csrAt off) with ⟨-, e⟩ | ⟨-, e⟩ | ⟨-, e⟩ | ⟨-, -, -, e⟩ <;> rw [e]
    · exact ⟨h.csr, h.sbw, h.lzw, h.gct, h.imem, h.txs, rfl, fun hi => by simp [hr] at hi⟩
    · exact ⟨h.csr, h.sbw, h.lzw, h.gct, h.imem, h.txs, h.seq, h.reset⟩
    · exact ⟨h.csr, h.sbw, h.lzw, h.gct, h.imem, h.txs, h.seq, h.reset⟩
    · exact h

/-- A host write of an existing byte keeps IMEM sound (20_memory.md R81). -/
theorem ImemSound.write {m : Memory} {size : Nat} (h : ImemSound m size) {a : Nat}
    (ha : a < size) (v : Byte) : ImemSound (Memory.write m a v) size := by
  refine ⟨Memory.write_wf h.canonical a v, fun c hc => ?_, h.positive, h.small⟩
  rcases Memory.mem_write hc with hc | ⟨rfl, -⟩
  · exact h.inside c hc
  · exact ha

theorem Inv.hostImemWrite {s t : State} (h : Inv s) {a : Word} {v : Byte}
    (hw : hostImemWrite a v s = .next t) : Inv t := by
  unfold Machine.hostImemWrite at hw
  split at hw
  · cases hw
  · split at hw
    · rename_i ha
      cases hw
      exact ⟨h.csr, h.sbw, h.lzw, h.gct, h.imem.write ha v, h.txs, h.seq, h.reset⟩
    · cases hw

/-- The transactions a running command would issue are sound. -/
theorem Inv.pendingTxs {s : State} (h : Inv s) : ∀ t ∈ pendingTxs s, t.sound := by
  unfold Machine.pendingTxs
  split
  · simp
  · split
    · rename_i t ht
      exact fun x hx => (h.runWord ht).txs x (List.mem_of_mem_drop hx)
    · simp
    · simp

/-- Of sound transactions, those an abandoned command leaves in the sink are sound: the one in
flight was offered as it would have been, and at most its bytes are taken. -/
theorem abandonTxs_sound (p : AbandonPoint) {txs : List Tx} (h : ∀ t ∈ txs, t.sound) :
    ∀ t ∈ abandonTxs p txs, t.sound := by
  intro t ht
  unfold abandonTxs at ht
  rcases List.mem_append.1 ht with ht | ht
  · exact h t (List.mem_of_mem_take ht)
  · split at ht
    · rename_i k x _ hx
      rw [List.mem_singleton.1 ht]
      exact ⟨(h x (List.mem_of_getElem? hx)).1,
        Nat.le_of_lt_succ (Nat.mod_lt _ (Nat.succ_pos _))⟩
    · simp at ht

/-- Abandoning the running command keeps a sound state (70_reset_and_hazards.md R341). -/
theorem Inv.abandonCommand {s : State} (h : Inv s) : Inv (abandonCommand s) := by
  refine ⟨h.csr, h.sbw, h.lzw, h.gct, h.imem, fun t ht => ?_, rfl, fun _ => rfl⟩
  rcases List.mem_append.1 ht with ht | ht
  · exact h.txs t ht
  · exact abandonTxs_sound _ h.pendingTxs t ht

/-- Asserting reset over an idle block keeps a sound state. -/
theorem Inv.setInReset {s : State} (h : Inv s) (hc : s.seq.cmd = none) :
    Inv { s with inReset := true } :=
  ⟨h.csr, h.sbw, h.lzw, h.gct, h.imem, h.txs, h.seq, fun _ => hc⟩

/-- BUSY is 0 exactly while no command is accepted (10_state.md R50). -/
theorem busy_eq_false {s : State} : s.busy = false ↔ s.seq.cmd = none := by
  simp [State.busy]

theorem Inv.assertReset {s : State} (h : Inv s) : Inv (assertReset s) := by
  unfold Machine.assertReset
  split
  · exact h
  · split
    · exact h.abandonCommand.setInReset rfl
    · rename_i hb
      exact h.setInReset (busy_eq_false.1 (eq_false_of_ne_true hb))

/-- The LZW unit after reset is sound. -/
theorem Lzw.afterReset_sound : LzwSound .afterReset :=
  ⟨by decide, by decide, by decide, by decide, fun h => by simp [Lzw.afterReset] at h,
    fun _ => ⟨rfl, rfl⟩, fun f h => by simp [Lzw.afterReset] at h⟩

/-- The reset values are sound whatever the block held, with IMEM and the sink as they are
(10_state.md R53). -/
theorem inv_blockReset {s : State} (hm : ImemSound s.imem s.imemSize)
    (ht : ∀ t ∈ s.sink.txs, t.sound) : Inv s.blockReset :=
  ⟨fun _ => rfl, rfl, Lzw.afterReset_sound, Gct.cleared_sound, hm, ht, rfl, fun _ => rfl⟩

theorem Inv.releaseReset {s : State} (h : Inv s) : Inv (releaseReset s) := by
  unfold Machine.releaseReset
  split
  · exact inv_blockReset h.imem h.txs
  · exact h

/-- What is not refused in reset happens outside it. -/
theorem outsideReset_next {s t : State} {o : Host.Outcome State Fault Refusal} :
    outsideReset s o = .next t ↔ s.inReset = false ∧ o = .next t := by
  unfold outsideReset
  cases s.inReset <;> simp

/-- What is not refused as narrow is a 32-bit access. -/
theorem wholeWord_next {width : AccessWidth} {s t : State} :
    wholeWord width s = .next t ↔ width = .w32 ∧ s = t := by
  cases width <;> simp [wholeWord]

/-- Every move of the host keeps a sound state. -/
theorem Inv.hostMove {s t : State} {m : HostMove} (h : Inv s) (hm : hostMove m s = .next t) :
    Inv t := by
  cases m with
  | csrRead width off =>
    obtain ⟨-, ht⟩ := outsideReset_next.1 hm
    obtain ⟨-, rfl⟩ := wholeWord_next.1 ht
    exact h.hostCsrRead off
  | csrWrite width off v =>
    obtain ⟨hr, ht⟩ := outsideReset_next.1 hm
    obtain ⟨-, rfl⟩ := wholeWord_next.1 ht
    exact h.hostCsrWrite hr off v
  | imemWrite a v =>
    obtain ⟨-, ht⟩ := outsideReset_next.1 hm
    exact h.hostImemWrite ht
  | wait =>
    obtain ⟨-, ht⟩ := outsideReset_next.1 hm
    cases ht
    exact h
  | resetAssert => cases hm; exact h.assertReset
  | resetRelease => cases hm; exact h.releaseReset

/-- Whose turn it is: the engine's, with a command word; the host's, with the head of its agenda
taken off; or no one's. -/
theorem turn_cases (s : State) :
    (∃ w, turn s = .engine w) ∨
    (∃ m rest, s.host.agenda = m :: rest ∧
      turn s = .host m { s with host.agenda := rest }) ∨
    turn s = .idle := by
  unfold turn
  split
  · exact .inr (.inr rfl)
  · exact .inl ⟨_, rfl⟩
  · exact .inl ⟨_, rfl⟩
  · rename_i he _
    exact .inr (.inl ⟨_, _, he, rfl⟩)

/-- Settles O22: a step is a command word, a move of the host, or nothing, and each keeps a sound
state. -/
theorem stepKeepsSoundState : Obligations.StepKeepsSoundState := by
  intro s t h hs
  unfold step at hs
  rcases turn_cases s with ⟨w, e⟩ | ⟨m, rest, -, e⟩ | e <;> rw [e] at hs
  · exact h.runWord hs
  · exact (h.setHost _).hostMove hs
  · cases hs
    exact h

/-- Settles O23: the reset state holds the reset values, and its IMEM and sink are empty. -/
theorem resetStateSound : Obligations.ResetStateSound := by
  have hm : ImemSound State.reset.imem State.reset.imemSize :=
    ⟨⟨List.Pairwise.nil, by simp [State.reset]⟩, by simp [State.reset], by decide, by decide⟩
  exact inv_blockReset (s := State.reset) hm (by simp [State.reset])

end Sys2Proof.Machine
end

section
/-!
SUPPORT. The CSR window as the host sees it: a read and a write of an idle and of a busy block as
equations, and the views STATUS and INFO field by field (10_state.md R33–R43, R52).
-/

namespace Sys2Proof.Machine

/-! ### Accesses -/

/-- A read of an idle block gives the register's value and changes nothing else
(20_memory.md R86). -/
theorem hostMove_csrRead_idle {s : State} (hr : s.inReset = false) (hb : s.busy = false)
    (off : BitVec 11) :
    hostMove (.csrRead .w32 off) s = .next { s with host.rdata := s.csrValue (csrAt off) } := by
  rw [hostMove_csrRead hr, hostCsrRead, if_neg (by simp [hb])]

/-- A read of a busy block gives a free value and takes a draw (10_state.md R52). -/
theorem hostMove_csrRead_busy {s : State} (hr : s.inReset = false) (hb : s.busy = true)
    (off : BitVec 11) :
    hostMove (.csrRead .w32 off) s =
      .next { s.drawn with host.rdata := s.csrValueBusy (csrAt off) } := by
  rw [hostMove_csrRead hr, hostCsrRead, if_pos hb]

/-- A write of an idle block is the register's store. -/
theorem hostMove_csrWrite_idle {s : State} (hr : s.inReset = false) (hb : s.busy = false)
    (off : BitVec 11) (v : Word) :
    hostMove (.csrWrite .w32 off v) s = .next (s.csrStore v (csrAt off)) := by
  rw [hostMove_csrWrite hr, hostCsrWrite, if_neg (by simp [hb])]

/-- A write of a busy block is dropped (70_reset_and_hazards.md R352). -/
theorem hostMove_csrWrite_busy {s : State} (hr : s.inReset = false) (hb : s.busy = true)
    (off : BitVec 11) (v : Word) : hostMove (.csrWrite .w32 off v) s = .next s := by
  rw [hostMove_csrWrite hr, hostCsrWrite, if_pos hb]

/-- A store to any register but CMD, ARG0 and ARG1 is ignored (10_state.md R43). -/
theorem csrStore_ignored (s : State) (v : Word) {n : CsrName} (hc : n ≠ .cmd) (h0 : n ≠ .arg0)
    (h1 : n ≠ .arg1) : s.csrStore v n = s := by
  rcases csrStore_cases s v n with ⟨e, -⟩ | ⟨e, -⟩ | ⟨e, -⟩ | ⟨-, -, -, e⟩
  · exact absurd e hc
  · exact absurd e h0
  · exact absurd e h1
  · exact e

/-- Setting bit 0 makes a word odd. -/
theorem or_one_toNat_mod_two (w : Word) : (w ||| 1).toNat % 2 = 1 := by
  simp

/-- Setting bit 0 leaves the other bits. -/
theorem or_one_getLsbD (w : Word) {j : Nat} (hj : 0 < j) :
    (w ||| 1).getLsbD j = w.getLsbD j := by
  have : (1 : Word).getLsbD j = false := by simp; omega
  rw [BitVec.getLsbD_or, this, Bool.or_false]

/-- A busy read of any register but STATUS is the free value (10_state.md R52). -/
theorem csrValueBusy_other (s : State) {n : CsrName} (h : n ≠ .status) :
    s.csrValueBusy n = Config.busyRead s.draws := by
  cases n with
  | status => exact absurd rfl h
  | _ => rfl

/-- Settles O8: a busy read takes a draw and a busy write is dropped; STATUS sets bit 0 of the
free value. -/
theorem busyReads : Obligations.BusyReads := by
  intro s off hr hb
  refine ⟨⟨_, hostMove_csrRead_busy hr hb off, rfl, fun h1 => ?_, fun h1 => ?_⟩,
    hostMove_csrWrite_busy hr hb off⟩
  · rw [csrAt_eq_status.2 h1]
    exact ⟨or_one_toNat_mod_two _, fun j hj => or_one_getLsbD _ hj⟩
  · exact csrValueBusy_other s fun h => h1 (csrAt_eq_status.1 h)

/-- Settles O6: offsets 0..3 are CMD, whose store accepts the word. -/
theorem cmdWriteSetsBusy : Obligations.CmdWriteSetsBusy := by
  intro s off w hr hb hs ho
  refine ⟨_, hostMove_csrWrite_idle hr hb off w, ?_⟩
  rw [csrAt_eq_cmd.2 ho, hs]
  exact ⟨rfl, rfl, rfl⟩

/-- No command writes ARG0 or ARG1 (10_state.md R36). -/
theorem exec_args {i : Instr} {s t : State} (h : exec i s = .next t) :
    t.csr.arg0 = s.csr.arg0 ∧ t.csr.arg1 = s.csr.arg1 := by
  obtain ⟨a, b, rfl⟩ := exec_next h
  have hc := (commandRet_frame_withDraws i s).csr
  rw [complete_csr_arg0, complete_csr_arg1, hc]
  exact ⟨rfl, rfl⟩

/-- Settles O9: ARG0 and ARG1 store and show what is written, and lie in every command's
frame. -/
theorem argRegistersHold : Obligations.ArgRegistersHold := by
  refine ⟨fun s v hr hb => ⟨?_, ?_⟩, rfl, rfl, fun i s t h => exec_args h⟩
  · exact ⟨{ s with csr.arg0 := v }, _, hostMove_csrWrite_idle hr hb 0x008 v, rfl,
      hostMove_csrRead_idle (s := { s with csr.arg0 := v }) hr hb 0x008, rfl⟩
  · exact ⟨{ s with csr.arg1 := v }, _, hostMove_csrWrite_idle hr hb 0x00C v, rfl,
      hostMove_csrRead_idle (s := { s with csr.arg1 := v }) hr hb 0x00C, rfl⟩

/-! ### Words as sums of fields -/

/-- A concatenation as a number: the upper part above the lower one. -/
theorem toNat_append_add {m n : Nat} (x : BitVec m) (y : BitVec n) :
    (x ++ y).toNat = x.toNat * 2 ^ n + y.toNat := by
  rw [BitVec.toNat_append, ← Nat.shiftLeft_add_eq_or_of_lt y.isLt, Nat.shiftLeft_eq]

/-- A word of the GCT window as the sum of its bytes (10_state.md R43). -/
theorem gctWord_toNat (s : State) (j : Nat) : (s.gctWord j).toNat =
    (s.gct.ram.getD (4 * j) 0).toNat + (s.gct.ram.getD (4 * j + 1) 0).toNat * 2 ^ 8 +
      (s.gct.ram.getD (4 * j + 2) 0).toNat * 2 ^ 16 +
      (s.gct.ram.getD (4 * j + 3) 0).toNat * 2 ^ 24 := by
  simp only [State.gctWord, toNat_append_add]
  omega

/-- Settles O11: the CSR map sends 0x400..0x6FF to the window words and the reserved offsets to
reads of 0, and only CMD and the operands store. -/
theorem gctWindowAndReserved : Obligations.GctWindowAndReserved := by
  intro s off hr hb
  refine ⟨fun j hj ho => ⟨_, hostMove_csrRead_idle hr hb off, ?_⟩,
    fun ho => ⟨_, hostMove_csrRead_idle hr hb off, ?_⟩, fun ho v => ?_⟩
  · rw [csrAt_eq_gctWindow.2 ⟨by omega, hj⟩]
    exact gctWord_toNat s j
  · rw [csrAt_eq_reserved.2 (by omega)]
    rfl
  · rw [hostMove_csrWrite_idle hr hb, csrStore_ignored]
    · rw [Ne, csrAt_eq_cmd]; omega
    · rw [Ne, csrAt_eq_arg0]; omega
    · rw [Ne, csrAt_eq_arg1]; omega

/-! ### STATUS -/

/-- The fields of STATUS (10_state.md R35). -/
theorem statusWord_fields (s : State) :
    s.statusWord.extractLsb' 0 1 = BitVec.ofBool s.busy ∧
    s.statusWord.extractLsb' 1 2 = s.sbw.st.num ∧
    s.statusWord.extractLsb' 3 2 = s.lzw.st.num ∧
    s.statusWord.extractLsb' 5 1 = BitVec.ofBool s.gct.valid ∧
    s.statusWord.extractLsb' 6 2 = 0 ∧
    s.statusWord.extractLsb' 8 8 = s.csr.result.num ∧
    s.statusWord.extractLsb' 16 8 = s.csr.sinkCode ∧
    s.statusWord.extractLsb' 24 8 = 0 := by
  unfold State.statusWord
  simp (disch := decide) only [BitVec.extractLsb'_append_eq_of_le,
    BitVec.extractLsb'_append_eq_of_add_le, Nat.reduceSub, BitVec.extractLsb'_eq_self, and_self]

/-- Settles O12: STATUS is a concatenation of its fields, and a sound state shows a sink code
with E_SINK alone. -/
theorem statusFields : Obligations.StatusFields := by
  refine ⟨fun s x hr hb hx => ?_, fun s => ?_, rfl, fun s h => h.csr⟩
  · rw [hostMove_csrRead_idle hr hb, csrAt_eq_status.2 hx]
    rfl
  · obtain ⟨busy, sbw, lzw, valid, low, result, code, high⟩ := statusWord_fields s
    refine ⟨busy, sbw.trans ?_, lzw.trans ?_, valid, low, result.trans ?_, code, high⟩
    · cases s.sbw.st <;> rfl
    · cases s.lzw.st <;> rfl
    · rcases s.csr.result with _ | k | _
      · rfl
      · cases k <;> rfl
      · rfl

/-! ### INFO -/

/-- A sound writer buffers at most 255 bytes (10_state.md R44). -/
theorem SbwSound.length_le {u : Sbw} (h : SbwSound u) : u.data.length ≤ 255 := by
  unfold SbwSound at h
  split at h
  · omega
  · simp [h]
  · exact h.1

/-- SBW_INFO as the sum of its fields (10_state.md R38). -/
theorem sbwInfo_toNat {s : State} (h : s.sbw.data.length ≤ 255) : s.sbwInfo.toNat =
    s.sbw.data.length + 2 ^ 8 * (failKindField s.sbw.st.failure).toNat +
      2 ^ 16 * (failCodeField s.sbw.st.failure).toNat := by
  simp only [State.sbwInfo, toNat_append_add, BitVec.ofNat_eq_ofNat,
    BitVec.toNat_ofNat]
  omega

/-- LZW_INFO0 as the sum of its fields (10_state.md R39). -/
theorem lzwInfo0_toNat {s : State} (h : LzwSound s.lzw) : s.lzwInfo0.toNat =
    s.lzw.lit + 2 ^ 4 * s.lzw.width + 2 ^ 8 * s.lzw.nbits + 2 ^ 16 * s.lzw.hi.toNat := by
  have hlit := h.litHigh
  have hwidth := h.widthHigh
  have hbits := h.bitsHigh
  simp only [State.lzwInfo0, toNat_append_add, BitVec.ofNat_eq_ofNat,
    BitVec.toNat_ofNat]
  omega

/-- LZW_INFO1 as the sum of its fields (10_state.md R40). -/
theorem lzwInfo1_toNat (s : State) : s.lzwInfo1.toNat =
    (match s.lzw.saved with | some c => c.toNat + 2 ^ 12 | none => 0) +
      2 ^ 16 * (failKindField s.lzw.st.failure).toNat +
      2 ^ 24 * (failCodeField s.lzw.st.failure).toNat := by
  simp only [State.lzwInfo1, toNat_append_add]
  cases s.lzw.saved with
  | none => simp; omega
  | some c => simp; omega

/-- GCT_INFO as the sum of its fields (10_state.md R42). -/
theorem gctInfo_toNat {s : State} (h : GctSound s.gct) : s.gctInfo.toNat =
    if s.gct.valid then s.gct.bits + 2 ^ 4 * (3 * 2 ^ s.gct.bits) else 0 := by
  obtain ⟨-, h⟩ := h
  simp only [State.gctInfo, Gct.len, Gct.shownBits, toNat_append_add, BitVec.ofNat_eq_ofNat,
    BitVec.toNat_ofNat]
  split
  · rename_i hv
    rw [if_pos hv] at h
    have hlen := table_bytes_le h.2.1
    unfold gctRamBytes at hlen
    omega
  · rfl

/-- Settles O13: each INFO register is a concatenation of its fields, which a sound state keeps
inside their widths. -/
theorem infoRegisterFields : Obligations.InfoRegisterFields := by
  refine ⟨fun s x hr hb _ _ => ⟨_, hostMove_csrRead_idle hr hb x, ?_⟩, fun s h => ?_, rfl, rfl,
    rfl, rfl, rfl, rfl⟩
  · refine ⟨fun hx => ?_, fun hx => ?_, fun hx => ?_, fun hx => ?_, fun hx => ?_⟩ <;>
      simp only [csrAt, hx, State.csrValue]
  · refine ⟨?_, lzwInfo0_toNat h.lzw, ?_, rfl, gctInfo_toNat h.gct⟩
    · rw [sbwInfo_toNat h.sbw.length_le]
      cases s.sbw.st <;> rfl
    · rw [lzwInfo1_toNat]
      cases s.lzw.st <;> rfl

end Sys2Proof.Machine
end

section
/-!
SUPPORT. The values after reset (10_state.md R53), and the units each command leaves alone.
-/

namespace Sys2Proof.Machine

/-- The block's reset gives the reset values, whatever the block held. -/
theorem resetValues_blockReset (s : State) : ResetValues s.blockReset where
  released := rfl
  cmdRead := rfl
  status := by
    simp only [State.statusWord, State.busy, blockReset_csr, blockReset_gct, blockReset_lzw,
      blockReset_sbw, blockReset_seq]
    decide
  csr := rfl
  info := by
    simp only [State.sbwInfo, State.lzwInfo0, State.lzwInfo1, State.lzwInfo2, State.gctInfo,
      blockReset_sbw, blockReset_lzw, blockReset_gct]
    decide
  sbw := rfl
  lzw := rfl
  gct := ⟨List.length_replicate, fun _ hb => List.eq_of_mem_replicate hb, rfl, rfl⟩
  idle := ⟨rfl, rfl⟩

/-- Settles O14: releasing an asserted reset is the block's reset, of which the reset state is a
fixed point. -/
theorem resetRelease : Obligations.ResetRelease := by
  refine ⟨resetValues_blockReset State.reset, fun s hr => ⟨s.blockReset, ?_,
    resetValues_blockReset s, rfl, rfl, rfl, rfl, rfl⟩⟩
  rw [hostMove, releaseReset, if_pos hr]

/-- PAL_ENCODE touches the GCT alone of the units (40_helpers.md R187). -/
theorem palEncode_ret_units (s : State) : (commandRet .palEncode s).state.sbw = s.sbw ∧
    (commandRet .palEncode s).state.lzw = s.lzw ∧
    (commandRet .palEncode s).state.sink = s.sink := by
  simp only [commandRet]
  cases palEncode s.argA s <;> simp

/-- SBW_APPEND stays inside the writer's frame, but for the draw counter
(41_subblock_writer.md R205). -/
theorem sbwAppend_ret_frame (s : State) :
    SbwFrame { s with draws := (commandRet .sbwAppend s).state.draws }
      (commandRet .sbwAppend s).state := by
  simp only [commandRet]
  cases s.byteOperand with
  | none => exact .refl s
  | some bs => exact sbwAppendBytes_frame bs s

/-- LZW_OPEN touches the LZW unit alone of the units (42_lzw.md R240). -/
theorem lzwOpen_ret_units (s : State) : (commandRet .lzwOpen s).state.sbw = s.sbw ∧
    (commandRet .lzwOpen s).state.gct = s.gct ∧
    (commandRet .lzwOpen s).state.sink = s.sink := by
  simp only [commandRet]
  split <;> simp

/-- LZW_WRITE leaves the GCT (42_lzw.md R242). -/
theorem lzwWrite_ret_gct (s : State) : (commandRet .lzwWrite s).state.gct = s.gct := by
  simp only [commandRet]
  cases s.byteOperand with
  | none => rfl
  | some bs => exact (lzwWrite_frame bs _).gct

/-- Settles O20: a completion touches no unit, so each clause is the frame of the command's
procedure. -/
theorem unitFrames : Obligations.UnitFrames := by
  intro s t
  refine ⟨fun h => ?_, fun h => ?_, fun h => ?_, fun h => ?_, fun h => ?_, fun h => ?_,
    fun h => ?_, fun h => ?_⟩ <;> obtain ⟨a, b, rfl⟩ := exec_next h
  · exact ⟨rfl, rfl, rfl, rfl⟩
  · exact palEncode_ret_units s
  · exact ⟨rfl, rfl, rfl⟩
  · exact ⟨(sbwAppend_ret_frame s).lzw, (sbwAppend_ret_frame s).gct⟩
  · exact ⟨(sbwClose_frame _).lzw, (sbwClose_frame _).gct⟩
  · exact lzwOpen_ret_units s
  · exact lzwWrite_ret_gct s
  · exact (lzwClose_frame _).gct

end Sys2Proof.Machine
end

section
/-!
SUPPORT. Every command against the sink it has and against one that accepts everything: the same
transactions are offered, up to the first the sink refuses or cuts short, which ends the command
(20_memory.md R90, R92, 60_exceptions.md R312).
-/

namespace Sys2Proof.Machine

/-! ### Offers taken one list after another -/

theorem Sink.takes_append (xs ys : List (List Byte)) (k : Sink) :
    k.takes (xs ++ ys) = (k.takes xs).bind (Sink.takes ys) := by
  induction xs generalizing k with
  | nil => rfl
  | cons bs xs ih =>
    simp only [List.cons_append, Sink.takes]
    split
    · exact ih _
    · rfl

theorem Sink.takes_append_of {xs ys : List (List Byte)} {k k' : Sink}
    (h : k.takes xs = some k') : k.takes (xs ++ ys) = k'.takes ys := by
  rw [Sink.takes_append, h]
  rfl

/-- Offers that would have come later do not change where the sink fails. -/
theorem SinkFailsAt.append {start k : Sink} {offers : List (List Byte)} {j n : Nat}
    {bs : List Byte} {e : Option Byte} (h : SinkFailsAt start offers j bs k n e)
    (later : List (List Byte)) : SinkFailsAt start (offers ++ later) j bs k n e := by
  have hj : j < offers.length := (List.getElem?_eq_some_iff.1 h.offer).1
  refine ⟨?_, ?_, h.answer, h.fails⟩
  · rw [List.take_append_of_le_length (Nat.le_of_lt hj), h.before]
  · rw [List.getElem?_append_left hj, h.offer]

/-- Offers taken whole before only move the place where the sink fails. -/
theorem SinkFailsAt.prepend {first start k : Sink} {before offers : List (List Byte)} {j n : Nat}
    {bs : List Byte} {e : Option Byte} (hb : first.takes before = some start)
    (h : SinkFailsAt start offers j bs k n e) :
    SinkFailsAt first (before ++ offers) (before.length + j) bs k n e := by
  refine ⟨?_, ?_, h.answer, h.fails⟩
  · rw [List.take_length_add_append, Sink.takes_append_of hb, h.before]
  · rw [List.getElem?_append_right (Nat.le_add_right _ _), Nat.add_sub_cancel_left, h.offer]

/-- The stream once a transaction is recorded: the bytes taken are new (20_memory.md R90). -/
theorem streamOf_record (k : Sink) (bs : List Byte) (a : Nat × Option Byte) :
    streamOf (k.record bs a).txs = streamOf k.txs ++ bs.take a.1 := by
  simp [streamOf, Tx.accepted]

/-! ### A result beside its result before an accepting sink -/

/-- The same result with a sink that accepts everything. -/
def Ret.withAcceptAll : Ret → Ret
  | .ok s => .ok s.withAcceptAll
  | .fail f s => .fail f s.withAcceptAll

/-- How the sink `k` answers the offers of a procedure that gives `r` before it, and `a` before a
sink that accepts everything: it takes all, and the results differ in the sink alone; or it fails
at one of them, which is the last and whose failure is the result. -/
inductive Answered (k : Sink) (offers : List (List Byte)) (r a : Ret) : Prop
  | whole (takes : k.takes offers = some r.state.sink) (same : a = r.withAcceptAll)
  | broken {j n : Nat} {bs : List Byte} {k' : Sink} {e : Option Byte} {t : State}
      (fails : SinkFailsAt k offers j bs k' n e) (result : r = .fail (answerFailure e) t)
      (last : t.sink = k'.record bs (n, e))

/-- `r` and `a` are what one procedure gives from `s` and from `s.withAcceptAll`: some offers, all
taken there, answer for both. -/
def Mirrored (s : State) (r a : Ret) : Prop :=
  ∃ offers, s.withAcceptAll.sink.takes offers = some a.state.sink ∧
    Answered s.sink offers r a

/-- A procedure whose results from every state are mirrored. -/
def Mirrors (p : State → Ret) : Prop := ∀ s, Mirrored s (p s) (p s.withAcceptAll)

/-- What has offered nothing is mirrored. -/
theorem Mirrored.silent {s : State} {r : Ret} (h : r.state.sink = s.sink) :
    Mirrored s r r.withAcceptAll := by
  refine ⟨[], ?_, .whole (by rw [h]; rfl) rfl⟩
  cases r <;> simp_all [Ret.withAcceptAll, State.withAcceptAll, Sink.takes]

/-- Before an accepting sink a procedure leaves an accepting sink. -/
theorem withAcceptAll_of_takes {s t : State} {offers : List (List Byte)}
    (h : s.withAcceptAll.sink.takes offers = some t.sink) : t.withAcceptAll = t := by
  obtain ⟨-, hscript, honward⟩ := Sink.takes_sink h
  obtain ⟨csr, sbw, lzw, gct, seq, imem, size, ⟨txs, script, onward⟩, host, inReset, draws⟩ := t
  simp_all [State.withAcceptAll]

/-- A sequence of mirrored procedures is mirrored: the offers of the second follow. -/
theorem Mirrored.andThen {s : State} {r a : Ret} {next : State → Ret} (h : Mirrored s r a)
    (hn : Mirrors next) : Mirrored s (r.andThen next) (a.andThen next) := by
  obtain ⟨first, hall, ans⟩ := h
  cases ans with
  | whole takes same =>
    subst same
    cases r with
    | fail f t => exact ⟨first, hall, .whole takes rfl⟩
    | ok t =>
      obtain ⟨second, hall', ans'⟩ := hn t
      refine ⟨first ++ second, (Sink.takes_append_of hall).trans hall', ?_⟩
      cases ans' with
      | whole takes' same' => exact .whole ((Sink.takes_append_of takes).trans takes') same'
      | broken fails result last => exact .broken (.prepend takes fails) result last
  | broken fails result last =>
    subst result
    cases a with
    | fail f u => exact ⟨first, hall, .broken fails rfl last⟩
    | ok u =>
      obtain ⟨second, hall', -⟩ := hn u
      have hu : u.withAcceptAll = u := withAcceptAll_of_takes hall
      rw [hu] at hall'
      exact ⟨first ++ second, (Sink.takes_append_of hall).trans hall',
        .broken (fails.append second) rfl last⟩

/-- A result with its state changed, on success by `good` and on failure by `bad`. -/
def Ret.leaving (r : Ret) (good : State → State) (bad : Failure → State → State) : Ret :=
  match r with
  | .ok s => .ok (good s)
  | .fail f s => .fail f (bad f s)

/-- A change of state that neither looks at the sink nor touches it. -/
def SinkFree (g : State → State) : Prop :=
  ∀ s, (g s).sink = s.sink ∧ g s.withAcceptAll = (g s).withAcceptAll

/-- Changing the state a procedure leaves, but for the sink, leaves its offers. -/
theorem Mirrored.leaving {s : State} {r a : Ret} {good : State → State}
    {bad : Failure → State → State} (h : Mirrored s r a) (hg : SinkFree good)
    (hb : ∀ f, SinkFree (bad f)) : Mirrored s (r.leaving good bad) (a.leaving good bad) := by
  have keeps : ∀ x : Ret, (x.leaving good bad).state.sink = x.state.sink
    | .ok x => (hg x).1
    | .fail f x => (hb f x).1
  obtain ⟨offers, hall, ans⟩ := h
  refine ⟨offers, by rw [keeps, hall], ?_⟩
  cases ans with
  | whole takes same =>
    subst same
    refine .whole (by rw [keeps, takes]) ?_
    cases r with
    | ok t => exact congrArg Ret.ok (hg t).2
    | fail f t => exact congrArg (Ret.fail f) (hb f t).2
  | broken fails result last =>
    subst result
    exact .broken fails rfl ((hb _ _).1.trans last)

/-- A branch on what is not the sink is taken the same way before both sinks. -/
theorem Mirrored.ite {s : State} {c : Prop} {d d' : Decidable c} {r r' a a' : Ret}
    (ht : c → Mirrored s r a) (hf : ¬c → Mirrored s r' a') :
    Mirrored s (@ite _ c d r r') (@ite _ c d' a a') := by
  by_cases hc : c
  · simpa only [if_pos hc] using ht hc
  · simpa only [if_neg hc] using hf hc

/-- The streams of mirrored results: both go on from the one before, and what the second adds
begins with what the first adds (20_memory.md R92). -/
theorem Mirrored.streams {s : State} {r a : Ret} (h : Mirrored s r a) :
    ∃ x y, r.state.stream = s.stream ++ x ∧ a.state.stream = s.stream ++ y ∧ x <+: y := by
  obtain ⟨offers, hall, ans⟩ := h
  have ha : a.state.stream = s.stream ++ offers.flatten :=
    Sink.takes_stream (k := s.withAcceptAll.sink) hall
  cases ans with
  | whole takes same =>
    exact ⟨offers.flatten, offers.flatten, Sink.takes_stream takes, ha, List.prefix_rfl⟩
  | @broken j n bs k' e t fails result last =>
    refine ⟨(offers.take j).flatten ++ bs.take n, offers.flatten, ?_, ha, ?_⟩
    · rw [result, Ret.state_fail, State.stream, last, streamOf_record,
        Sink.takes_stream fails.before, List.append_assoc]
      rfl
    · obtain ⟨hj, hbs⟩ := List.getElem?_eq_some_iff.1 fails.offer
      have cut : offers.flatten =
          (offers.take j).flatten ++ (bs ++ (offers.drop (j + 1)).flatten) := by
        rw [← List.flatten_cons, ← hbs, List.getElem_cons_drop, ← List.flatten_append,
          List.take_append_drop]
      rw [cut]
      exact (List.prefix_append_right_inj _).2
        ((List.take_prefix n bs).trans (List.prefix_append _ _))

/-! ### What does not look at the sink -/

@[simp] theorem sbwCheck_withAcceptAll (s : State) :
    sbwCheck s.withAcceptAll = sbwCheck s := rfl
@[simp] theorem lzwCheckWrite_withAcceptAll (s : State) :
    lzwCheckWrite s.withAcceptAll = lzwCheckWrite s := rfl
@[simp] theorem closeBytes_withAcceptAll (s : State) :
    closeBytes s.withAcceptAll = closeBytes s := rfl
@[simp] theorem argA_withAcceptAll (s : State) : s.withAcceptAll.argA = s.argA := rfl
@[simp] theorem byteOperand_withAcceptAll (s : State) :
    s.withAcceptAll.byteOperand = s.byteOperand := rfl
@[simp] theorem readHeader_withAcceptAll (a : Nat) (s : State) :
    readHeader a s.withAcceptAll = readHeader a s := rfl
@[simp] theorem readFrame_withAcceptAll (a i : Nat) (s : State) :
    readFrame a i s.withAcceptAll = readFrame a i s := rfl
@[simp] theorem readRow_withAcceptAll (fd : FrameDesc) (r : Nat) (s : State) :
    readRow fd r s.withAcceptAll = readRow fd r s := rfl
@[simp] theorem palEncode_withAcceptAll (p : Nat) (s : State) :
    palEncode p s.withAcceptAll = palEncode p s := rfl
@[simp] theorem palMismatch_withAcceptAll (p : Nat) (s : State) :
    palMismatch p s.withAcceptAll = palMismatch p s := rfl
@[simp] theorem gctTable_withAcceptAll (s : State) :
    s.withAcceptAll.gctTable = s.gctTable := rfl

/-- The canvas reads descriptors alone. -/
@[simp] theorem canvas_withAcceptAll (a n i : Nat) (wh : Nat × Nat) (s : State) :
    canvas a n i wh s.withAcceptAll = canvas a n i wh s := by
  induction n generalizing i wh with
  | zero => rfl
  | succ n ih => simp only [canvas, readFrame_withAcceptAll, ih]

/-! ### The sub-block writer -/

/-- A transaction that the sink answers with every byte taken and no error is OK. -/
theorem sinkWrite_whole {bs : List Byte} {s : State}
    (h : s.sink.answer bs.length = (bs.length, none)) :
    sinkWrite bs s = .ok { s with
      sink := s.sink.record bs (bs.length, none), seq.accepted := s.seq.accepted + bs.length } := by
  simp only [sinkWrite, h, Nat.lt_irrefl, if_false]

/-- A transaction is its one offer. -/
theorem sinkWrite_mirrors (bs : List Byte) : Mirrors (sinkWrite bs) := by
  intro s
  have hall : s.withAcceptAll.sink.accepting := ⟨rfl, rfl⟩
  refine ⟨[bs], ?_, ?_⟩
  · rw [sinkWrite_accepting hall, Sink.takes_cons]
    exact ⟨Sink.answer_accepting hall _, rfl⟩
  · by_cases hw : s.sink.answer bs.length = (bs.length, none)
    · rw [sinkWrite_whole hw, sinkWrite_accepting hall]
      exact .whole (Sink.takes_cons.2 ⟨hw, rfl⟩) rfl
    · obtain ⟨⟨n, e⟩, ha⟩ : ∃ x, s.sink.answer bs.length = x := ⟨_, rfl⟩
      have hle : n ≤ bs.length := by simpa [ha] using s.sink.answer_le bs.length
      have hf : e ≠ none ∨ n < bs.length := by
        cases e with
        | some c => exact .inl (by simp)
        | none => exact .inr (Nat.lt_of_le_of_ne hle fun hn => hw (by rw [ha, hn]))
      exact .broken (j := 0) ⟨rfl, rfl, ha, hf⟩ (sinkWrite_fails ha hf) rfl

theorem sbwSinkWrite_eq (bs : List Byte) (s : State) : sbwSinkWrite bs s =
    (sinkWrite bs s).leaving id fun f t => { t with sbw.st := .failed f } := by
  unfold sbwSinkWrite
  cases sinkWrite bs s <;> rfl

theorem sbwSinkWrite_mirrors (bs : List Byte) : Mirrors (sbwSinkWrite bs) := by
  intro s
  rw [sbwSinkWrite_eq, sbwSinkWrite_eq]
  exact (sinkWrite_mirrors bs s).leaving (fun _ => ⟨rfl, rfl⟩) fun _ _ => ⟨rfl, rfl⟩

theorem sbwFlushFull_mirrors : Mirrors sbwFlushFull := fun s =>
  (sbwSinkWrite_mirrors (s.fillByte :: s.sbw.data) s).andThen fun _ => .silent rfl

theorem sbwPut_mirrors (b : Byte) : Mirrors (sbwPut b) := by
  intro s
  simp only [sbwPut, sbwCheck_withAcceptAll]
  split
  · exact .silent rfl
  · exact .ite (fun _ => sbwFlushFull_mirrors { s with sbw.data := s.sbw.data ++ [b] })
      fun _ => .silent rfl

theorem sbwPutAll_mirrors (bs : List Byte) : Mirrors (sbwPutAll bs) := by
  induction bs with
  | nil => exact fun _ => .silent rfl
  | cons b bs ih => exact fun s => (sbwPut_mirrors b s).andThen ih

theorem sbwAppendBytes_rejected {s : State} {f : Failure} (h : sbwCheck s = some f)
    (bs : List Byte) : (sbwAppendBytes bs s).2 = .fail f s := by
  simp only [sbwAppendBytes, h]

/-- SbwAppendBytes of a WRITABLE writer is its loop, whose failure takes a draw
(41_subblock_writer.md R209). -/
theorem sbwAppendBytes_loop {s : State} (h : sbwCheck s = none) (bs : List Byte) :
    (sbwAppendBytes bs s).2 = (sbwPutAll bs s).leaving id fun _ => State.drawn := by
  simp only [sbwAppendBytes, h]
  cases sbwPutAll bs s <;> rfl

theorem sbwAppendBytes_mirrors (bs : List Byte) : Mirrors fun s => (sbwAppendBytes bs s).2 := by
  intro s
  cases h : sbwCheck s with
  | some f =>
    simp only [sbwAppendBytes_rejected h, sbwAppendBytes_rejected (s := s.withAcceptAll) h]
    exact .silent rfl
  | none =>
    simp only [sbwAppendBytes_loop h, sbwAppendBytes_loop (s := s.withAcceptAll) h]
    exact (sbwPutAll_mirrors bs s).leaving (fun _ => ⟨rfl, rfl⟩) fun _ _ => ⟨rfl, rfl⟩

theorem sbwClose_mirrors : Mirrors sbwClose := by
  intro s
  simp only [sbwClose, sbwCheck_withAcceptAll, closeBytes_withAcceptAll]
  split
  · exact .silent rfl
  · exact (sbwSinkWrite_mirrors _ s).andThen fun _ => .silent rfl

/-! ### The LZW unit -/

theorem lzwPut_eq (b : Byte) (s : State) : lzwPut b s =
    (sbwPut b s).leaving (fun t => { t with seq.delivered := t.seq.delivered + 1 })
      fun f t => { t with lzw.st := .failed f } := by
  unfold lzwPut
  cases sbwPut b s <;> rfl

theorem lzwPut_mirrors (b : Byte) : Mirrors (lzwPut b) := by
  intro s
  rw [lzwPut_eq, lzwPut_eq]
  exact (sbwPut_mirrors b s).leaving (fun _ => ⟨rfl, rfl⟩) fun _ _ => ⟨rfl, rfl⟩

theorem drainBits_mirrors (fuel : Nat) : Mirrors (drainBits fuel) := by
  induction fuel with
  | zero => exact fun _ => .silent rfl
  | succ n ih =>
    exact fun s => .ite
      (fun _ => (lzwPut_mirrors (s.lzw.bitbuf.setWidth 8) s).andThen fun t => ih
        { t with lzw.bitbuf := t.lzw.bitbuf >>> 8, lzw.nbits := t.lzw.nbits - 8 })
      fun _ => .silent rfl

theorem emitCode_mirrors (c : Code) : Mirrors (emitCode c) := fun s =>
  drainBits_mirrors (s.lzw.nbits + s.lzw.width) { s with
    lzw.bitbuf := s.lzw.bitbuf ||| (c.setWidth 32 <<< s.lzw.nbits)
    lzw.nbits := s.lzw.nbits + s.lzw.width }

/-- Going on after IncHi: with `full` after OUT_OF_CODES, with `next` after OK. -/
def HiRet.andThen (h : HiRet) (full next : State → Ret) : Ret :=
  match h with
  | .ok s => next s
  | .outOfCodes s => full s
  | .fail f s => .fail f s

/-- TableFull and what follows it, as a sequence (42_lzw.md R236). -/
theorem tableFull_andThen (s : State) (full next : State → Ret) :
    (tableFull s).andThen full next =
      (emitCode (clearCode s.lzw.lit) s).andThen fun t => full { t with
        lzw.width := t.lzw.lit + 1, lzw.hi := eoiCode t.lzw.lit, lzw.dict := [] } := by
  unfold tableFull
  cases emitCode (clearCode s.lzw.lit) s <;> rfl

/-- The unit with the next code number, in the width it needs (42_lzw.md R234). -/
def State.nextCode (s : State) : State :=
  { s with
    lzw.hi := s.lzw.hi + 1
    lzw.width := if (s.lzw.hi + 1).toNat = 2 ^ s.lzw.width then s.lzw.width + 1
      else s.lzw.width }

/-- IncHi and what follows it: TableFull at 4095 (42_lzw.md R234). -/
theorem incHi_andThen (s : State) (full next : State → Ret) :
    (incHi s).andThen full next =
      if (s.lzw.hi + 1).toNat = 4095 then (tableFull s.nextCode).andThen full next
      else next s.nextCode :=
  apply_ite (fun h : HiRet => h.andThen full next) _ _ _

theorem incHi_mirrors {full next : State → Ret} (hf : Mirrors full) (hn : Mirrors next) :
    Mirrors fun s => (incHi s).andThen full next := by
  intro s
  simp only [incHi_andThen, tableFull_andThen]
  exact .ite
    (fun _ => (emitCode_mirrors (clearCode s.lzw.lit) s.nextCode).andThen fun t => hf { t with
      lzw.width := t.lzw.lit + 1, lzw.hi := eoiCode t.lzw.lit, lzw.dict := [] })
    fun _ => hn s.nextCode

/-- A byte that the dictionary has after the match so far lengthens it (42_lzw.md R237). -/
theorem lzwLoop_hit {x : Byte} {code longer : Code} {s : State}
    (h : dictFind s.lzw.dict code x = some longer) (xs : List Byte) :
    lzwLoop (x :: xs) code s = lzwLoop xs longer s := by
  simp only [lzwLoop, h]

/-- A byte that it has not ends the match: its code is emitted, and the next one is made an entry
unless the table was full (42_lzw.md R237, R235). -/
theorem lzwLoop_miss {x : Byte} {code : Code} {s : State}
    (h : dictFind s.lzw.dict code x = none) (xs : List Byte) :
    lzwLoop (x :: xs) code s = (emitCode code s).andThen fun t =>
      (incHi t).andThen (lzwLoop xs (literalCode x)) fun u =>
        lzwLoop xs (literalCode x) { u with
          lzw.dict := { stem := code, byte := x, code := u.lzw.hi } :: u.lzw.dict } := by
  simp only [lzwLoop, h]
  exact congrArg _ (funext fun t => by cases incHi t <;> rfl)

theorem lzwLoop_mirrors (bs : List Byte) (code : Code) : Mirrors (lzwLoop bs code) := by
  induction bs generalizing code with
  | nil => exact fun _ => .silent rfl
  | cons x xs ih =>
    intro s
    cases h : dictFind s.lzw.dict code x with
    | some longer =>
      rw [lzwLoop_hit h, lzwLoop_hit (s := s.withAcceptAll) h]
      exact ih longer s
    | none =>
      rw [lzwLoop_miss h, lzwLoop_miss (s := s.withAcceptAll) h]
      exact (emitCode_mirrors code s).andThen (incHi_mirrors (ih _) fun u => ih _ { u with
        lzw.dict := { stem := code, byte := x, code := u.lzw.hi } :: u.lzw.dict })

theorem lzwWrite_mirrors (bs : List Byte) : Mirrors (lzwWrite bs) := by
  intro s
  simp only [lzwWrite, lzwCheckWrite_withAcceptAll, withAcceptAll_lzw]
  split
  · exact .silent rfl
  · split
    · exact .silent rfl
    · refine .ite (fun _ => ?_) fun _ => .silent rfl
      split
      · exact lzwLoop_mirrors _ _ s
      · exact lzwLoop_mirrors _ _ s

theorem lzwFlushSaved_none {s : State} (h : s.lzw.saved = none) : lzwFlushSaved s = .ok s := by
  simp only [lzwFlushSaved, h]

/-- A saved code is emitted, and IncHi's OUT_OF_CODES is ignored (42_lzw.md R239). -/
theorem lzwFlushSaved_some {s : State} {code : Code} (h : s.lzw.saved = some code) :
    lzwFlushSaved s = (emitCode code s).andThen fun t => (incHi t).andThen .ok .ok := by
  simp only [lzwFlushSaved, h]
  exact congrArg _ (funext fun t => by cases incHi t <;> rfl)

theorem lzwFlushSaved_mirrors : Mirrors lzwFlushSaved := by
  intro s
  cases h : s.lzw.saved with
  | none =>
    rw [lzwFlushSaved_none h, lzwFlushSaved_none (s := s.withAcceptAll) h]
    exact .silent rfl
  | some code =>
    rw [lzwFlushSaved_some h, lzwFlushSaved_some (s := s.withAcceptAll) h]
    exact (emitCode_mirrors code s).andThen
      (incHi_mirrors (fun _ => .silent rfl) fun _ => .silent rfl)

theorem lzwFlushBits_mirrors : Mirrors lzwFlushBits := fun s =>
  .ite (fun _ => lzwPut_mirrors (s.lzw.bitbuf.setWidth 8) s) fun _ => .silent rfl

theorem lzwClose_mirrors : Mirrors lzwClose := by
  intro s
  simp only [lzwClose, withAcceptAll_lzw]
  split
  · exact .silent rfl
  · exact .silent rfl
  · exact (lzwFlushSaved_mirrors s).andThen fun s1 =>
      (emitCode_mirrors (eoiCode s1.lzw.lit) s1).andThen fun s2 =>
        (lzwFlushBits_mirrors s2).andThen fun _ => .silent rfl

/-! ### CTRL -/

theorem encodeRows_mirrors (fd : FrameDesc) (n r : Nat) : Mirrors (encodeRows fd n r) := by
  induction n generalizing r with
  | zero => exact fun _ => .silent rfl
  | succ n ih =>
    intro s
    simp only [encodeRows, readRow_withAcceptAll]
    split
    · exact .silent rfl
    · exact (lzwWrite_mirrors _ s).andThen (ih _)

theorem frameEncode_mirrors (fd : FrameDesc) (lit : Nat) : Mirrors (frameEncode fd lit) := fun s =>
  (sinkWrite_mirrors (imageItem fd lit) s).andThen fun s1 =>
    (encodeRows_mirrors fd fd.height 0 (lzwOpen lit (sbwOpen s1))).andThen fun s2 =>
      (lzwClose_mirrors s2).andThen sbwClose_mirrors

theorem emitGce_mirrors (delay : Nat) : Mirrors (emitGce delay) := by
  intro s
  unfold emitGce
  split
  · exact .silent rfl
  · exact sinkWrite_mirrors _ s

theorem emitLoopExt_mirrors (nf loop : Nat) : Mirrors (emitLoopExt nf loop) := by
  intro s
  unfold emitLoopExt
  split
  · exact sinkWrite_mirrors _ s
  · exact .silent rfl

theorem checkPalette_mirrors (p : Nat) : Mirrors (checkPalette p) := by
  intro s
  simp only [checkPalette, palMismatch_withAcceptAll]
  split <;> exact .silent rfl

theorem encodeFrame_mirrors (a i lit : Nat) : Mirrors (encodeFrame a i lit) := by
  intro s
  simp only [encodeFrame, readFrame_withAcceptAll]
  split
  · exact .silent rfl
  · exact (emitGce_mirrors _ s).andThen fun s1 =>
      (checkPalette_mirrors _ s1).andThen fun s2 =>
        (frameEncode_mirrors _ lit s2).andThen fun _ => .silent rfl

theorem encodeFrames_mirrors (a lit n i : Nat) : Mirrors (encodeFrames a lit n i) := by
  induction n generalizing i with
  | zero => exact fun _ => .silent rfl
  | succ n ih => exact fun s => (encodeFrame_mirrors a i lit s).andThen (ih _)

theorem emitAnimation_mirrors (a nf loop w h : Nat) : Mirrors (emitAnimation a nf loop w h) :=
  fun s => (sinkWrite_mirrors signatureItem s).andThen fun s1 =>
    (sinkWrite_mirrors (lsdItem w h s.gct.bits) s1).andThen fun s2 =>
      (sinkWrite_mirrors s2.gctTable s2).andThen fun s3 =>
        (emitLoopExt_mirrors nf loop s3).andThen fun s4 =>
          (encodeFrames_mirrors a (literalWidth s.gct.bits) nf 0 s4).andThen
            (sinkWrite_mirrors trailerItem)

theorem loadGlobalPalette_mirrors (a : Nat) : Mirrors (loadGlobalPalette a) := by
  intro s
  simp only [loadGlobalPalette, readFrame_withAcceptAll, palEncode_withAcceptAll]
  split
  · exact .silent rfl
  · split <;> exact .silent rfl

theorem encodeAnimation_mirrors (a : Nat) : Mirrors (encodeAnimation a) := by
  intro s
  simp only [encodeAnimation, readHeader_withAcceptAll, canvas_withAcceptAll]
  split
  · exact .silent rfl
  · split
    · exact .silent rfl
    · split
      · exact .silent rfl
      · split
        · exact .silent rfl
        · exact (loadGlobalPalette_mirrors a s).andThen (emitAnimation_mirrors a _ _ _ _)

/-! ### Commands -/

/-- Every command offers the sink what it offers one that accepts everything, up to the first
failure. -/
theorem commandRet_mirrors (i : Instr) : Mirrors (commandRet i) := by
  intro s
  cases i with
  | bitwidth => exact .silent rfl
  | palEncode =>
    simp only [commandRet, argA_withAcceptAll, palEncode_withAcceptAll]
    split <;> exact .silent rfl
  | sbwOpen => exact .silent rfl
  | sbwAppend =>
    simp only [commandRet, byteOperand_withAcceptAll]
    split
    · exact .silent rfl
    · exact sbwAppendBytes_mirrors _ s
  | sbwClose => exact sbwClose_mirrors { s with seq.accepted := 0 }
  | lzwOpen =>
    exact .ite (fun _ => .silent rfl) fun _ => .silent rfl
  | lzwWrite =>
    simp only [commandRet, byteOperand_withAcceptAll]
    split
    · exact .silent rfl
    · exact lzwWrite_mirrors _ { s with seq.delivered := 0 }
  | lzwClose => exact lzwClose_mirrors { s with seq.delivered := 0 }
  | encAnim =>
    exact encodeAnimation_mirrors s.argA { s with seq.accepted := 0, seq.framesDone := 0 }

/-- Settles O21: a completion leaves the sink, and the streams of mirrored results are those of
20_memory.md R92. -/
theorem appendedBytesArePrefix : Obligations.AppendedBytesArePrefix := by
  intro i s t u ht hu
  obtain ⟨_, _, rfl⟩ := exec_next ht
  obtain ⟨_, _, rfl⟩ := exec_next hu
  exact (commandRet_mirrors i s).streams

end Sys2Proof.Machine
end

section
/-!
SUPPORT. The ports of the block: CSR accesses, the frame common to all commands, one sink
transaction, and IMEM reads (20_memory.md R81–R90).
-/

namespace Sys2Proof.Machine

/-! ### CSR accesses -/

/-- A read goes to the register, whichever offset of its word is used (20_memory.md R86). -/
theorem hostCsrRead_congr {x y : BitVec 11} (h : x.toNat / 4 = y.toNat / 4) (s : State) :
    hostCsrRead x s = hostCsrRead y s := by
  simp only [hostCsrRead, csrAt_congr h]

/-- A write goes to the register, whichever offset of its word is used (20_memory.md R86). -/
theorem hostCsrWrite_congr {x y : BitVec 11} (h : x.toNat / 4 = y.toNat / 4) (v : Word)
    (s : State) : hostCsrWrite x v s = hostCsrWrite y v s := by
  simp only [hostCsrWrite, csrAt_congr h]

/-- An access of 8 or 16 bits is refused (20_memory.md R86, U9). -/
theorem wholeWord_narrow {a : AccessWidth} (h : a ≠ .w32) (s : State) :
    wholeWord a s = .refused .narrowCsrAccess := by
  cases a with
  | w32 => exact absurd rfl h
  | w8 | w16 => rfl

/-- Outside reset a move of the host is what it is. -/
theorem outsideReset_released {s : State} (h : s.inReset = false)
    (o : Host.Outcome State Fault Refusal) : outsideReset s o = o := by
  rw [outsideReset, if_neg (by simp [h])]

/-- A store at any register but CMD changes the operand registers at most (10_state.md R33). -/
theorem csrStore_operands (s : State) (v : Word) {n : CsrName} (h : n ≠ .cmd) :
    ∃ a b, s.csrStore v n = { s with csr := { s.csr with arg0 := a, arg1 := b } } := by
  rcases csrStore_cases s v n with ⟨e, -⟩ | ⟨-, e⟩ | ⟨-, e⟩ | ⟨-, -, -, e⟩
  · exact absurd e h
  · exact ⟨v, s.csr.arg1, e⟩
  · exact ⟨s.csr.arg0, v, e⟩
  · exact ⟨s.csr.arg0, s.csr.arg1, e⟩

/-- Settles O10: an access goes by its word, a narrow one is refused, and of the stores only that
of CMD, at offsets 0..3, does more than set an operand. -/
theorem csrAccessRules : Obligations.CsrAccessRules := by
  refine ⟨fun s x y a v hxy => ⟨?_, ?_⟩, fun s x a v hr ha => ⟨?_, ?_⟩,
    fun s x hr hb => ⟨_, hostMove_csrRead_idle hr hb x, ?_⟩, fun s x v hr hb hx => ?_⟩
  · simp only [hostMove, hostCsrRead_congr hxy]
  · simp only [hostMove, hostCsrWrite_congr hxy]
  · rw [hostMove, outsideReset_released hr, wholeWord_narrow ha]
  · rw [hostMove, outsideReset_released hr, wholeWord_narrow ha]
  · refine ⟨fun h => ?_, fun h => ?_, fun h => ?_, fun h => ?_, fun h => ?_⟩ <;>
      simp only [csrAt, h, State.csrValue]
  · obtain ⟨a, b, e⟩ := csrStore_operands s v (n := csrAt x) (by rw [Ne, csrAt_eq_cmd]; omega)
    exact ⟨a, b, by rw [hostMove_csrWrite_idle hr hb, e]⟩

/-! ### The common frame -/

/-- The stream grows with the transactions (10_state.md R49). -/
theorem stream_prefix_of_grows {s t : State} (h : ∃ new, t.sink.txs = s.sink.txs ++ new) :
    s.stream <+: t.stream := by
  obtain ⟨new, e⟩ := h
  rw [State.stream, State.stream, e, streamOf_append]
  exact List.prefix_append _ _

/-- Settles O19: a completion writes the result registers alone, and what ran before it stays in
the frame of CTRL. -/
theorem commandsLeaveInputs : Obligations.CommandsLeaveInputs := by
  intro i s t h
  obtain ⟨arg0, arg1⟩ := exec_args h
  obtain ⟨a, b, rfl⟩ := exec_next h
  have frame := commandRet_frame_withDraws i s
  have imem : (commandRet i s).state.imem = s.imem := frame.imem
  exact ⟨arg0, arg1, fun _ => by rw [complete_imem, imem], imem, frame.imemSize, frame.host,
    frame.inReset, frame.onward, fun hi => (commandRet_frame hi s).draws, frame.grows,
    stream_prefix_of_grows frame.grows⟩

/-! ### One transaction -/

/-- Settles O24: the state is the recorded answer's, and the answer decides the result. -/
theorem sinkTransaction : Obligations.SinkTransaction := by
  intro bs s _
  obtain ⟨⟨k, e⟩, ha⟩ : ∃ x, s.sink.answer bs.length = x := ⟨_, rfl⟩
  have hle : k ≤ bs.length := by simpa [ha] using s.sink.answer_le bs.length
  refine ⟨k, e, { s with
    sink := s.sink.record bs (k, e), seq.accepted := s.seq.accepted + k }, ha, hle,
    streamOf_record _ _ _, rfl, rfl, rfl, fun c hc => ?_, fun he hk => ?_, fun he hk => ?_⟩
  · subst hc
    exact sinkWrite_fails ha (.inl (by simp))
  · subst he
    exact sinkWrite_fails ha (.inr hk)
  · subst he hk
    exact sinkWrite_whole ha

/-! ### IMEM reads -/

/-- The bytes of a read, in address order (20_memory.md R84). -/
theorem memBytes_getElem? {a n : Nat} {s : State} {bs : List Byte}
    (h : memBytes a n s = some bs) {k : Nat} (hk : k < n) :
    bs[k]? = some (Memory.read s.imem (a + k)) := by
  unfold memBytes at h
  split at h
  · cases h
    simp [hk]
  · cases h

/-- A read as a number fails exactly where the read of its bytes does. -/
theorem memRead_eq_none {a n : Nat} {s : State} : memRead a n s = none ↔ s.imemSize < a + n := by
  rw [memRead, Option.map_eq_none_iff, memBytes_eq_none]

/-- Byte `k` of a little-endian number is byte `k` of the list (20_memory.md R83). -/
theorem leNat_digit {bs : List Byte} {k : Nat} {b : Byte} (h : bs[k]? = some b) :
    leNat bs / 256 ^ k % 256 = b.toNat := by
  induction bs generalizing k with
  | nil => simp at h
  | cons c bs ih =>
    have hc : c.toNat < 256 := c.isLt
    cases k with
    | zero =>
      obtain rfl : c = b := by simpa using h
      rw [leNat, Nat.pow_zero, Nat.div_one, Nat.add_mul_mod_self_left, Nat.mod_eq_of_lt hc]
    | succ k =>
      rw [leNat, Nat.pow_succ', ← Nat.div_div_eq_div_mul,
        Nat.add_mul_div_left _ _ (by decide), Nat.div_eq_of_lt hc, Nat.zero_add]
      exact ih (by simpa using h)

/-- Settles O25: the range check and the order of the bytes are those of `memBytes`, and a number
read has the bytes as its digits. -/
theorem imemReads : Obligations.ImemReads := by
  intro a n s
  refine ⟨memBytes_eq_none, memRead_eq_none,
    fun bs h => ⟨memBytes_length h, fun k hk => memBytes_getElem? h hk⟩, fun v h => ?_⟩
  obtain ⟨bs, hbs, rfl⟩ := Option.map_eq_some_iff.1 h
  exact ⟨memBytes_length hbs ▸ leNat_lt bs, fun k hk => leNat_digit (memBytes_getElem? hbs hk)⟩

end Sys2Proof.Machine
end

section
/-!
SUPPORT. The command word and the descriptors: a word is its two fields, the decoder and the
encoder agree on them, and the fields of a descriptor are its bytes
(30_encoding.md R120–R123, R140, R141).
-/

namespace Sys2Proof.Machine

/-! ### Command words -/

/-- The opcode map gives a command for its own opcode alone (30_encoding.md R121). -/
theorem commandOfOpc_eq_some {b : Byte} {i : Instr} : commandOfOpc b = some i ↔ b = opcOf i := by
  constructor
  · intro h
    unfold commandOfOpc at h
    split at h <;> cases h <;> exact BitVec.eq_of_toNat_eq ‹_›
  · rintro rfl
    cases i <;> rfl

/-- Exactly the opcodes 0x01 to 0x09 are assigned (30_encoding.md R121, R123). -/
theorem commandOfOpc_eq_none {b : Byte} :
    commandOfOpc b = none ↔ b.toNat = 0 ∨ 10 ≤ b.toNat := by
  unfold commandOfOpc
  split <;> simp only [reduceCtorEq, false_iff, true_iff, imp_false] at * <;> omega

/-- A word is its RSVD field above its OPC field (30_encoding.md R120). -/
theorem rsvdField_append_opcField (w : Word) : rsvdField w ++ opcField w = w := by
  ext j hj
  simp [rsvdField, opcField]
  grind

/-- The fields of a command's word (30_encoding.md R127). -/
theorem eq_encode {w : Word} {i : Instr} :
    w = encode i ↔ rsvdField w = 0 ∧ opcField w = opcOf i := by
  constructor
  · rintro rfl
    cases i <;> decide
  · rintro ⟨hr, ho⟩
    rw [← rsvdField_append_opcField w, hr, ho, encode]

/-- A word decodes to a command exactly when RSVD is 0 and OPC is the command's
(30_encoding.md R121). -/
theorem decode_eq_command {w : Word} {i : Instr} :
    decode w = .command i ↔ rsvdField w = 0 ∧ opcField w = opcOf i := by
  unfold decode
  split
  · rename_i hr
    rw [← commandOfOpc_eq_some]
    cases commandOfOpc (opcField w) <;> simp [hr]
  · rename_i hr
    exact ⟨fun h => (nomatch h), fun h => absurd h.1 hr⟩

/-- A word is illegal exactly when RSVD is not 0 or OPC is unassigned (30_encoding.md R123). -/
theorem decode_eq_illegal {w : Word} :
    (∃ why, decode w = .illegal why) ↔
      rsvdField w ≠ 0 ∨ commandOfOpc (opcField w) = none := by
  unfold decode
  split
  · rename_i hr
    cases commandOfOpc (opcField w) <;> simp [hr]
  · rename_i hr
    exact ⟨fun _ => .inl hr, fun _ => ⟨_, rfl⟩⟩

theorem opcField_toNat (w : Word) : (opcField w).toNat = w.toNat % 256 := by
  simp [opcField, BitVec.extractLsb'_toNat]

theorem rsvdField_toNat (w : Word) : (rsvdField w).toNat = w.toNat / 256 := by
  have := w.isLt
  simp only [rsvdField, BitVec.extractLsb'_toNat, Nat.shiftRight_eq_div_pow]
  omega

theorem rsvdField_eq_zero {w : Word} : rsvdField w = 0 ↔ w.toNat / 256 = 0 := by
  rw [← rsvdField_toNat, ← BitVec.toNat_inj]
  rfl

/-- Settles O1: each word is the one its command encodes to. -/
theorem decodeOpcodeMap : Obligations.DecodeOpcodeMap := by
  refine ⟨?_, ?_, ?_, ?_, ?_, ?_, ?_, ?_, ?_⟩ <;> exact decode_eq_command.2 (eq_encode.1 rfl)

/-- Settles O2: both sides say the same of the two fields of the word. -/
theorem decodeInvertsEncode : Obligations.DecodeInvertsEncode := fun _ _ =>
  decode_eq_command.trans eq_encode.symm

/-- Settles O3: the fields as numbers give the illegal words, and a step of one is
`execIllegal`. -/
theorem illegalWordCompletes : Obligations.IllegalWordCompletes := by
  intro w
  have illegal : (w.toNat % 256 = 0 ∨ 10 ≤ w.toNat % 256 ∨ w.toNat / 256 ≠ 0) ↔
      ∃ why, decode w = .illegal why := by
    rw [decode_eq_illegal, commandOfOpc_eq_none, opcField_toNat, Ne, Ne, rsvdField_eq_zero]
    omega
  refine ⟨illegal, fun hw s hr hcmd ha => ?_⟩
  obtain ⟨why, hd⟩ := illegal.1 hw
  rw [step_engine hr hcmd ha, runWord, hd]
  rfl

/-! ### Descriptors -/

/-- A byte-aligned 16-bit field of a value is its two bytes there. -/
theorem natField_16 (v k : Nat) :
    natField v (8 * k) 16 = v / 256 ^ k % 256 + 256 * (v / 256 ^ (k + 1) % 256) := by
  rw [natField, Nat.pow_mul, show (2 : Nat) ^ 16 = 256 * 256 from rfl, Nat.mod_mul,
    Nat.div_div_eq_div_mul, ← Nat.pow_succ]

/-- A byte-aligned 32-bit field of a value is its two halves. -/
theorem natField_32 (v k : Nat) :
    natField v (8 * k) 32 = natField v (8 * k) 16 + 65536 * natField v (8 * (k + 2)) 16 := by
  have e : v / 2 ^ (8 * (k + 2)) = v / 2 ^ (8 * k) / 65536 := by
    rw [Nat.div_div_eq_div_mul, show 8 * (k + 2) = 8 * k + 16 by omega, Nat.pow_add]
  have halves : ∀ x : Nat, x % 2 ^ 32 = x % 2 ^ 16 + 65536 * (x / 65536 % 2 ^ 16) := by omega
  rw [natField, natField, natField, e, halves]

/-- A read in range gives a number. -/
theorem memRead_of_le {a n : Nat} {s : State} (h : a + n ≤ s.imemSize) :
    ∃ v, memRead a n s = some v := by
  rw [← Option.ne_none_iff_exists', Ne, memRead_eq_none]
  omega

/-- A 16-bit field of a record read from IMEM, from its bytes there (20_memory.md R83). -/
theorem memRead_u16 {a n v : Nat} {s : State} {u16 : Nat → Nat}
    (h16 : ∀ x, u16 x =
      (Memory.read s.imem x).toNat + 256 * (Memory.read s.imem (x + 1)).toNat)
    (h : memRead a n s = some v) {k : Nat} (hk : k + 2 ≤ n) :
    natField v (8 * k) 16 = u16 (a + k) := by
  obtain ⟨-, -, -, number⟩ := imemReads a n s
  obtain ⟨-, digit⟩ := number v h
  rw [natField_16, digit k (by omega), digit (k + 1) (by omega), h16, Nat.add_assoc]

/-- A 32-bit field of a record read from IMEM, from its bytes there (20_memory.md R83). -/
theorem memRead_u32 {a n v : Nat} {s : State} {u16 u32 : Nat → Nat}
    (h16 : ∀ x, u16 x =
      (Memory.read s.imem x).toNat + 256 * (Memory.read s.imem (x + 1)).toNat)
    (h32 : ∀ x, u32 x = u16 x + 65536 * u16 (x + 2))
    (h : memRead a n s = some v) {k : Nat} (hk : k + 4 ≤ n) :
    natField v (8 * k) 32 = u32 (a + k) := by
  rw [natField_32, memRead_u16 h16 h (by omega), memRead_u16 h16 h (by omega), h32,
    Nat.add_assoc]

/-- Settles O26: each field is aligned to bytes, and a record is read whole or not at all. -/
theorem descriptorFields : Obligations.DescriptorFields := by
  intro a i s u16 u32 h16 h32
  refine ⟨fun hr => ?_, fun hr => ?_, fun hr => ?_, fun f hf hr => ?_⟩
  · obtain ⟨v, hv⟩ := memRead_of_le hr
    have nframes := memRead_u32 h16 h32 hv (k := 0) (by decide)
    have loopCount := memRead_u16 h16 hv (k := 4) (by decide)
    rw [readHeader, hv]
    exact congrArg some (Prod.ext nframes loopCount)
  · rw [readHeader, memRead_eq_none.2 hr]
    rfl
  · rw [readFrame, memRead_eq_none.2 hr]
    rfl
  · subst hf
    obtain ⟨v, hv⟩ := memRead_of_le hr
    have half := fun k hk => memRead_u16 h16 hv (k := k) hk
    have word := fun k hk => memRead_u32 h16 h32 hv (k := k) hk
    rw [readFrame, hv]
    simp only [Option.map_some, frameFields, Option.some.injEq, FrameDesc.mk.injEq]
    exact ⟨half 0 (by decide), half 2 (by decide), half 4 (by decide), half 6 (by decide),
      word 8 (by decide), word 12 (by decide), word 16 (by decide), half 20 (by decide)⟩

end Sys2Proof.Machine
end

section
/-!
SUPPORT. Bit strings (30_encoding.md R161), and what a successful procedure hands to the sub-block
writer: which bytes, told from the LZW unit alone, and which bits they are the bytes of
(41_subblock_writer.md R204–R206, 42_lzw.md R232–R239).
-/

namespace Sys2Proof.Machine

/-! ### Bit strings -/

theorem lowBits_add (m n v : Nat) :
    lowBits (m + n) v = lowBits m v ++ lowBits n (v / 2 ^ m) := by
  induction m generalizing v with
  | zero => simp [lowBits]
  | succ m ih =>
    rw [Nat.succ_add, lowBits, lowBits, ih, List.cons_append, Nat.div_div_eq_div_mul,
      ← Nat.pow_succ']

/-- The low bits depend on the value below them alone. -/
theorem lowBits_mod (n v : Nat) : lowBits n (v % 2 ^ n) = lowBits n v := by
  induction n generalizing v with
  | zero => rfl
  | succ n ih =>
    rw [lowBits, lowBits, Nat.pow_succ', Nat.mod_mul_right_mod, Nat.mod_mul_right_div_self, ih]

/-- Bits put above others follow them (30_encoding.md R161). -/
theorem lowBits_add_mul {m v : Nat} (h : v < 2 ^ m) (n c : Nat) :
    lowBits (m + n) (v + c * 2 ^ m) = lowBits m v ++ lowBits n c := by
  have hpos := Nat.two_pow_pos m
  rw [lowBits_add, ← lowBits_mod m, Nat.add_mul_mod_self_right, Nat.mod_eq_of_lt h,
    Nat.add_mul_div_right _ _ hpos, Nat.div_eq_of_lt h, Nat.zero_add]

theorem lowBits_zero_value (n : Nat) : lowBits n 0 = List.replicate n false := by
  induction n with
  | zero => rfl
  | succ n ih => rw [lowBits, Nat.zero_div, ih]; rfl

@[simp] theorem bitsOfBytes_nil : bitsOfBytes [] = [] := rfl

@[simp] theorem bitsOfBytes_append (xs ys : List Byte) :
    bitsOfBytes (xs ++ ys) = bitsOfBytes xs ++ bitsOfBytes ys := List.flatMap_append

@[simp] theorem bitsOfBytes_cons (b : Byte) (bs : List Byte) :
    bitsOfBytes (b :: bs) = lowBits 8 b.toNat ++ bitsOfBytes bs := rfl

/-! ### The bytes handed to the writer -/

/-- The transaction of a whole unit: 255 and its data bytes, taken whole
(41_subblock_writer.md R206). -/
def unitTx (u : List Byte) : Tx := { offered := 255 :: u, taken := 256, err := none }

/-- Between `s` and `t` the writer was handed the bytes `bs`, and no transaction failed: full
units of what was buffered and `bs` went out, and the rest is buffered. -/
structure Handed (s : State) (bs : List Byte) (t : State) : Prop where
  st    : t.sbw.st = s.sbw.st
  low   : s.sbw.data.length ≤ 254 → t.sbw.data.length ≤ 254
  units : ∃ us : List (List Byte), (∀ u ∈ us, u.length = 255) ∧
    t.sink.txs = s.sink.txs ++ us.map unitTx ∧
    us.flatten ++ t.sbw.data = s.sbw.data ++ bs ∧
    t.seq.accepted = s.seq.accepted + (us.flatMap (255 :: ·)).length

/-- What leaves the writer and the sink as they are hands nothing over. -/
theorem Handed.nothing {s t : State} (hb : t.sbw = s.sbw) (hx : t.sink = s.sink)
    (ha : t.seq.accepted = s.seq.accepted) : Handed s [] t :=
  ⟨congrArg Sbw.st hb, fun hl => hb ▸ hl, [], by simp, by simp [hx], by simp [hb], ha⟩

theorem Handed.trans {s t u : State} {xs ys : List Byte} (h : Handed s xs t)
    (k : Handed t ys u) : Handed s (xs ++ ys) u := by
  obtain ⟨us, hlen, htxs, hdata, hacc⟩ := h.units
  obtain ⟨vs, klen, ktxs, kdata, kacc⟩ := k.units
  refine ⟨k.st.trans h.st, fun hl => k.low (h.low hl), us ++ vs, ?_, ?_, ?_, ?_⟩
  · exact fun w hw => (List.mem_append.1 hw).elim (hlen w) (klen w)
  · rw [ktxs, htxs, List.map_append, List.append_assoc]
  · rw [List.flatten_append, List.append_assoc, kdata, ← List.append_assoc, hdata,
      List.append_assoc]
  · rw [kacc, hacc, List.flatMap_append, List.length_append, Nat.add_assoc]

/-- Whole units are offered as the length byte and their data. -/
theorem flatMap_unitTx (us : List (List Byte)) :
    (us.map unitTx).flatMap (fun x => x.offered.drop 1) = us.flatten := by
  rw [List.flatMap_map, List.flatten_eq_flatMap]
  rfl

/-- The payload between two states is what was buffered and what was handed over. -/
theorem Handed.payload {s t : State} {bs : List Byte} (h : Handed s bs t) :
    sbwPayload s t = s.sbw.data ++ bs := by
  obtain ⟨us, -, htxs, hdata, -⟩ := h.units
  rw [sbwPayload, htxs, List.drop_left, flatMap_unitTx, hdata]

/-- A transaction of the writer that is OK was taken whole. -/
theorem sbwSinkWrite_ok {bs : List Byte} {s t : State} (h : sbwSinkWrite bs s = .ok t) :
    t = { s with
      sink := s.sink.record bs (bs.length, none), seq.accepted := s.seq.accepted + bs.length } := by
  rw [sbwSinkWrite_eq] at h
  cases hw : sinkWrite bs s with
  | fail f u => rw [hw] at h; cases h
  | ok u =>
    rw [hw] at h
    cases h
    rw [sinkWrite_whole (sinkWrite_ok hw)] at hw
    cases hw
    rfl

/-- A successful SbwPut hands over its byte (41_subblock_writer.md R204, R206). -/
theorem sbwPut_handed {b : Byte} {s t : State} (h : sbwPut b s = .ok t) : Handed s [b] t := by
  unfold sbwPut at h
  split at h
  · cases h
  · dsimp only at h
    split at h
    · rename_i hfull
      obtain ⟨u, hu, ht⟩ := Ret.andThen_eq_ok.1 h
      cases ht
      cases sbwSinkWrite_ok hu
      have hbyte : State.fillByte { s with sbw.data := s.sbw.data ++ [b] } = 255 := by
        rw [State.fillByte, hfull]
        rfl
      refine ⟨rfl, fun _ => Nat.zero_le _, [s.sbw.data ++ [b]], ?_, ?_, ?_, ?_⟩
      · simpa using hfull
      · simp only [Sink.record_txs, hbyte, List.length_cons, hfull]
        rfl
      · simp
      · simp
    · rename_i hnf
      cases h
      refine ⟨rfl, fun hl => ?_, [], by simp, by simp, rfl, rfl⟩
      simp only [List.length_append, List.length_singleton] at hnf ⊢
      omega

/-- Whatever else the states hold, a successful `p` takes the LZW unit from `u` to `v`, and hands
the bytes `bs` to the writer, each counted as delivered (42_lzw.md R232). -/
def Yields (p : State → Ret) (u : Lzw) (bs : List Byte) (v : Lzw) : Prop :=
  ∀ s t, s.lzw = u → p s = .ok t →
    t.lzw = v ∧ t.seq.delivered = s.seq.delivered + bs.length ∧ Handed s bs t

theorem Yields.congr {p q : State → Ret} {u v : Lzw} {bs : List Byte}
    (e : ∀ s, s.lzw = u → p s = q s) (h : Yields q u bs v) : Yields p u bs v :=
  fun s t hs ht => h s t hs ((e s hs).symm.trans ht)

theorem Yields.andThen {p q : State → Ret} {u v w : Lzw} {xs ys : List Byte}
    (hp : Yields p u xs v) (hq : Yields q v ys w) :
    Yields (fun s => (p s).andThen q) u (xs ++ ys) w := by
  intro s t hs ht
  obtain ⟨m, hm, hmt⟩ := Ret.andThen_eq_ok.1 ht
  obtain ⟨lzwM, deliveredM, handedM⟩ := hp s m hs hm
  obtain ⟨lzwT, deliveredT, handedT⟩ := hq m t lzwM hmt
  refine ⟨lzwT, ?_, handedM.trans handedT⟩
  rw [deliveredT, deliveredM, List.length_append, Nat.add_assoc]

/-- A change of the unit alone comes before. -/
theorem Yields.afterUpdate {p : State → Ret} {g : Lzw → Lzw} {u v : Lzw} {bs : List Byte}
    (h : Yields p (g u) bs v) : Yields (fun s => p { s with lzw := g s.lzw }) u bs v := by
  intro s t hs ht
  obtain ⟨lzw, delivered, handed⟩ := h { s with lzw := g s.lzw } t (congrArg g hs) ht
  exact ⟨lzw, delivered, handed.st, handed.low, handed.units⟩

/-- A change of the unit alone hands nothing over. -/
theorem yields_update (g : Lzw → Lzw) (u : Lzw) :
    Yields (fun s => .ok { s with lzw := g s.lzw }) u [] (g u) := by
  intro s t hs ht
  cases ht
  exact ⟨congrArg g hs, rfl, .nothing rfl rfl rfl⟩

theorem yields_ok (u : Lzw) : Yields .ok u [] u := yields_update id u

/-- What never succeeds yields anything. -/
theorem yields_of_fails {p : State → Ret} {u v : Lzw} {bs : List Byte}
    (h : ∀ s, s.lzw = u → ∃ f t, p s = .fail f t) : Yields p u bs v := by
  intro s t hs ht
  obtain ⟨f, t', e⟩ := h s hs
  rw [e] at ht
  cases ht

/-- One output byte of the LZW unit (42_lzw.md R232). -/
theorem lzwPut_yields (b : Byte) (u : Lzw) : Yields (lzwPut b) u [b] u := by
  intro s t hs ht
  have hframe := sbwPut_frame b s
  rw [lzwPut_eq] at ht
  cases hput : sbwPut b s with
  | fail f m => rw [hput] at ht; cases ht
  | ok m =>
    rw [hput] at ht hframe
    cases ht
    have handed := sbwPut_handed hput
    exact ⟨hframe.lzw.trans hs, congrArg (· + 1) hframe.delivered, handed.st, handed.low,
      handed.units⟩

/-! ### Codes into bits -/

/-- The pending bits of the unit, first to go first (42_lzw.md R233). -/
def Lzw.pending (u : Lzw) : List Bool := lowBits u.nbits u.bitbuf.toNat

/-- Of the pending bits of `u` and the new `bits`, whole bytes `bs` are cut, which leaves the
unit `v`: only its pending bits are other ones, at most 7 (42_lzw.md R233). -/
structure Packs (u : Lzw) (bits : List Bool) (bs : List Byte) (v : Lzw) : Prop where
  below  : BitsBelow v 7
  unit   : v = { u with bitbuf := v.bitbuf, nbits := v.nbits }
  string : bitsOfBytes bs ++ v.pending = u.pending ++ bits

/-- The unit without its first 8 pending bits (42_lzw.md R233). -/
def Lzw.dropByte (u : Lzw) : Lzw := { u with bitbuf := u.bitbuf >>> 8, nbits := u.nbits - 8 }

/-- The first byte cut and the bits left are the bits pending before (30_encoding.md R161). -/
theorem pending_dropByte {u : Lzw} (h : 8 ≤ u.nbits) :
    lowBits 8 (u.bitbuf.setWidth 8).toNat ++ u.dropByte.pending = u.pending := by
  obtain ⟨m, hm⟩ := Nat.exists_eq_add_of_le h
  rw [Lzw.pending, Lzw.pending, Lzw.dropByte, hm, lowBits_add, BitVec.toNat_setWidth, lowBits_mod,
    BitVec.toNat_ushiftRight, Nat.shiftRight_eq_div_pow, Nat.add_sub_cancel_left]

/-- Cutting a byte leaves no stray bit. -/
theorem dropByte_noStray {u : Lzw} (h : 8 ≤ u.nbits) (hb : u.bitbuf.toNat < 2 ^ u.nbits) :
    u.dropByte.bitbuf.toNat < 2 ^ u.dropByte.nbits := by
  rw [Lzw.dropByte, BitVec.toNat_ushiftRight, Nat.shiftRight_eq_div_pow,
    Nat.div_lt_iff_lt_mul (by decide), ← Nat.pow_add, Nat.sub_add_cancel h]
  exact hb

/-- The loop of EmitCode: the bytes it cuts, from the unit alone. -/
theorem drainBits_yields (fuel : Nat) (u : Lzw) : ∃ bs v, Yields (drainBits fuel) u bs v ∧
    (u.bitbuf.toNat < 2 ^ u.nbits → u.nbits ≤ 7 + 8 * fuel → Packs u [] bs v) := by
  induction fuel generalizing u with
  | zero =>
    exact ⟨[], u, yields_ok u, fun hb hn => ⟨⟨hn, hb⟩, rfl, by simp⟩⟩
  | succ fuel ih =>
    by_cases h8 : 8 ≤ u.nbits
    · obtain ⟨bs, v, hv, packs⟩ := ih u.dropByte
      refine ⟨u.bitbuf.setWidth 8 :: bs, v, Yields.congr (fun s hs => ?_)
        ((lzwPut_yields (u.bitbuf.setWidth 8) u).andThen (hv.afterUpdate (g := Lzw.dropByte))),
        fun hb hn => ?_⟩
      · subst hs
        rw [drainBits, if_pos h8]
        rfl
      · obtain ⟨below, unit, string⟩ := packs (dropByte_noStray h8 hb)
          (by simp only [Lzw.dropByte]; omega)
        refine ⟨below, unit, ?_⟩
        rw [bitsOfBytes_cons, List.append_assoc, string, List.append_nil, List.append_nil,
          pending_dropByte h8]
    · refine ⟨[], u, Yields.congr (fun s hs => ?_) (yields_ok u),
        fun hb hn => ⟨⟨by omega, hb⟩, rfl, by simp⟩⟩
      subst hs
      rw [drainBits, if_neg h8]

/-- The unit with a code above its pending bits (42_lzw.md R233). -/
def Lzw.withCode (u : Lzw) (c : Code) : Lzw :=
  { u with bitbuf := u.bitbuf ||| (c.setWidth 32 <<< u.nbits), nbits := u.nbits + u.width }

/-- A code goes above the pending bits without touching them. -/
theorem withCode_bitbuf {u : Lzw} {c : Code} (hb : BitsBelow u 7) :
    (u.withCode c).bitbuf.toNat = u.bitbuf.toNat + c.toNat * 2 ^ u.nbits := by
  have hcount := hb.count
  have hfit : c.toNat * 2 ^ u.nbits < 2 ^ 32 := by
    have h1 : c.toNat < 2 ^ 12 := c.isLt
    have h2 : 2 ^ u.nbits ≤ 2 ^ 7 := Nat.pow_le_pow_right (by decide) hcount
    calc c.toNat * 2 ^ u.nbits ≤ 2 ^ 12 * 2 ^ 7 := Nat.mul_le_mul (Nat.le_of_lt h1) h2
      _ < 2 ^ 32 := by decide
  have hset : (c.setWidth 32).toNat = c.toNat := by
    rw [BitVec.toNat_setWidth]
    exact Nat.mod_eq_of_lt (Nat.lt_trans c.isLt (by decide))
  rw [Lzw.withCode, BitVec.toNat_or, BitVec.toNat_shiftLeft, hset, Nat.shiftLeft_eq,
    Nat.mod_eq_of_lt hfit, Nat.or_comm, ← Nat.shiftLeft_eq,
    ← Nat.shiftLeft_add_eq_or_of_lt hb.noStray, Nat.add_comm]

/-- EmitCode: the bytes it hands over, from the unit alone, are those of the bit string pending
and the code's bits (42_lzw.md R233, 30_encoding.md R161). -/
theorem emitCode_yields (c : Code) (u : Lzw) : ∃ bs v, Yields (emitCode c) u bs v ∧
    (BitsBelow u 7 → c.toNat < 2 ^ u.width →
      Packs u (lowBits u.width c.toNat) bs v) := by
  obtain ⟨bs, v, hv, packs⟩ := drainBits_yields (u.withCode c).nbits (u.withCode c)
  refine ⟨bs, v, Yields.congr (fun s hs => ?_) (hv.afterUpdate (g := (·.withCode c))),
    fun hb hc => ?_⟩
  · subst hs
    rfl
  · have hbuf := withCode_bitbuf (c := c) hb
    have hlt : (u.withCode c).bitbuf.toNat < 2 ^ (u.withCode c).nbits := by
      rw [hbuf, Lzw.withCode, Nat.pow_add]
      have := hb.noStray
      calc u.bitbuf.toNat + c.toNat * 2 ^ u.nbits < (c.toNat + 1) * 2 ^ u.nbits := by
            rw [Nat.succ_mul]; omega
        _ ≤ 2 ^ u.nbits * 2 ^ u.width := by
            rw [Nat.mul_comm]; exact Nat.mul_le_mul_left _ hc
    obtain ⟨below, unit, string⟩ := packs hlt (by omega)
    refine ⟨below, unit, ?_⟩
    rw [string, List.append_nil, Lzw.pending, hbuf, Lzw.pending]
    exact lowBits_add_mul hb.noStray _ _

/-- Settles O47: the bytes handed over and the bits still pending are the bits pending before and
those of the code. -/
theorem emitCodeAppendsBits : Obligations.EmitCodeAppendsBits := by
  intro c s t hn hb _ hc ht
  obtain ⟨bs, v, hv, packs⟩ := emitCode_yields c s.lzw
  obtain ⟨hl, -, handed⟩ := hv s t rfl ht
  obtain ⟨below, -, string⟩ := packs ⟨hn, hb⟩ hc
  rw [← hl] at below string
  refine ⟨below.count, below.noStray, ?_⟩
  rw [handed.payload, bitsOfBytes_append, List.append_assoc, List.append_assoc]
  exact congrArg _ string

end Sys2Proof.Machine
end

section
/-!
SUPPORT. What each operation of the LZW unit hands to the writer: for every operation, bytes told
from the unit alone; for LzwClose of a sound unit, the very bit string (42_lzw.md R234–R239).
-/

namespace Sys2Proof.Machine

/-! ### Told from the unit alone -/

/-- What a successful `p` hands over and leaves of the LZW unit depends on that unit alone. -/
def Determined (p : State → Ret) : Prop := ∀ u, ∃ bs v, Yields p u bs v

theorem Determined.andThen {p q : State → Ret} (hp : Determined p) (hq : Determined q) :
    Determined fun s => (p s).andThen q := by
  intro u
  obtain ⟨xs, v, hv⟩ := hp u
  obtain ⟨ys, w, hw⟩ := hq v
  exact ⟨_, _, hv.andThen hw⟩

theorem emitCode_determined (c : Code) : Determined (emitCode c) := fun u =>
  let ⟨bs, v, hv, _⟩ := emitCode_yields c u
  ⟨bs, v, hv⟩

/-- The unit with the next code number, in the width it needs (42_lzw.md R234). -/
def Lzw.nextCode (u : Lzw) : Lzw :=
  { u with
    hi := u.hi + 1
    width := if (u.hi + 1).toNat = 2 ^ u.width then u.width + 1 else u.width }

/-- The unit at the start of a code space (42_lzw.md R236). -/
def Lzw.freshCodes (u : Lzw) : Lzw :=
  { u with width := u.lit + 1, hi := eoiCode u.lit, dict := [] }

/-- IncHi below 4095 hands nothing over (42_lzw.md R234). -/
theorem incHi_yields_next {u v : Lzw} {bs : List Byte} {full next : State → Ret}
    (h : (u.hi + 1).toNat ≠ 4095) (hn : Yields next u.nextCode bs v) :
    Yields (fun s => (incHi s).andThen full next) u bs v := by
  refine Yields.congr (fun s hs => ?_) (hn.afterUpdate (g := Lzw.nextCode))
  subst hs
  rw [incHi_andThen, if_neg h]
  rfl

/-- IncHi at 4095 hands the clear code over (42_lzw.md R234, R236). -/
theorem incHi_yields_full {u v w : Lzw} {xs ys : List Byte} {full next : State → Ret}
    (h : (u.hi + 1).toNat = 4095) (hc : Yields (emitCode (clearCode u.lit)) u.nextCode xs v)
    (hf : Yields full v.freshCodes ys w) :
    Yields (fun s => (incHi s).andThen full next) u (xs ++ ys) w := by
  refine Yields.congr (fun s hs => ?_)
    ((hc.andThen (hf.afterUpdate (g := Lzw.freshCodes))).afterUpdate (g := Lzw.nextCode))
  subst hs
  rw [incHi_andThen, if_pos h, tableFull_andThen]
  rfl

theorem incHi_determined {full next : State → Ret} (hf : Determined full)
    (hn : Determined next) : Determined fun s => (incHi s).andThen full next := by
  intro u
  by_cases h : (u.hi + 1).toNat = 4095
  · obtain ⟨xs, v, hv⟩ := emitCode_determined (clearCode u.lit) u.nextCode
    obtain ⟨ys, w, hw⟩ := hf v.freshCodes
    exact ⟨_, _, incHi_yields_full h hv hw⟩
  · obtain ⟨bs, v, hv⟩ := hn u.nextCode
    exact ⟨_, _, incHi_yields_next h hv⟩

/-- The unit with the entry of the string just left (42_lzw.md R235). -/
def Lzw.withEntry (u : Lzw) (stem : Code) (x : Byte) : Lzw :=
  { u with dict := { stem := stem, byte := x, code := u.hi } :: u.dict }

/-- The loop of LzwWrite (42_lzw.md R237). -/
theorem lzwLoop_determined (bs : List Byte) (code : Code) : Determined (lzwLoop bs code) := by
  induction bs generalizing code with
  | nil => exact fun u => ⟨[], _, yields_update (fun u => { u with saved := some code }) u⟩
  | cons x xs ih =>
    intro u
    cases h : dictFind u.dict code x with
    | some longer =>
      obtain ⟨bs, v, hv⟩ := ih longer u
      exact ⟨bs, v, hv.congr fun s hs => lzwLoop_hit (hs ▸ h) xs⟩
    | none =>
      have insert : Determined fun s => lzwLoop xs (literalCode x)
          { s with lzw := s.lzw.withEntry code x } := fun w =>
        let ⟨bs, v, hv⟩ := ih (literalCode x) (w.withEntry code x)
        ⟨bs, v, hv.afterUpdate (g := (·.withEntry code x))⟩
      obtain ⟨bs, v, hv⟩ :=
        (emitCode_determined code).andThen (incHi_determined (ih (literalCode x)) insert) u
      exact ⟨bs, v, hv.congr fun s hs => lzwLoop_miss (hs ▸ h) xs⟩

/-- A unit that is not OPEN rejects LzwWrite (42_lzw.md R230). -/
theorem lzwWrite_notOpen {s : State} (h : s.lzw.st ≠ .opened) (bs : List Byte) :
    ∃ f, lzwWrite bs s = .fail f s := by
  cases hc : lzwCheckWrite s with
  | none => exact absurd (lzwCheckWrite_none.1 hc) h
  | some f => exact ⟨f, by simp only [lzwWrite, hc]⟩

/-- The empty write of an OPEN unit does nothing (42_lzw.md R237). -/
theorem lzwWrite_nil {s : State} (h : s.lzw.st = .opened) : lzwWrite [] s = .ok s := by
  simp only [lzwWrite, lzwCheckWrite_none.2 h]

/-- A write with a byte that is no literal fails (42_lzw.md R238). -/
theorem lzwWrite_unfit {s : State} (h : s.lzw.st = .opened) {b : Byte} {bs : List Byte}
    (hfit : ¬literalsFit s.lzw.lit (b :: bs) = true) :
    lzwWrite (b :: bs) s = .fail (.plain .lzwLiteral)
      { s with lzw.st := .failed (.plain .lzwLiteral) } := by
  simp only [lzwWrite, lzwCheckWrite_none.2 h, if_neg hfit]

/-- The first write goes on from its first literal (42_lzw.md R237). -/
theorem lzwWrite_first {s : State} (h : s.lzw.st = .opened) {b : Byte} {bs : List Byte}
    (hfit : literalsFit s.lzw.lit (b :: bs) = true) (hs : s.lzw.saved = none) :
    lzwWrite (b :: bs) s = lzwLoop bs (literalCode b) s := by
  simp only [lzwWrite, lzwCheckWrite_none.2 h, if_pos hfit, hs]

/-- A later write goes on from the saved code (42_lzw.md R237). -/
theorem lzwWrite_later {s : State} (h : s.lzw.st = .opened) {b : Byte} {bs : List Byte}
    (hfit : literalsFit s.lzw.lit (b :: bs) = true) {code : Code}
    (hs : s.lzw.saved = some code) : lzwWrite (b :: bs) s = lzwLoop (b :: bs) code s := by
  simp only [lzwWrite, lzwCheckWrite_none.2 h, if_pos hfit, hs]

theorem lzwWrite_determined (bs : List Byte) : Determined (lzwWrite bs) := by
  intro u
  by_cases hop : u.st = .opened
  · cases bs with
    | nil => exact ⟨[], u, (yields_ok u).congr fun s hs => lzwWrite_nil (hs ▸ hop)⟩
    | cons b rest =>
      by_cases hfit : literalsFit u.lit (b :: rest) = true
      · cases hsv : u.saved with
        | none =>
          obtain ⟨bs, v, hv⟩ := lzwLoop_determined rest (literalCode b) u
          exact ⟨bs, v, hv.congr fun s hs =>
            lzwWrite_first (hs ▸ hop) (hs ▸ hfit) (hs ▸ hsv)⟩
        | some code =>
          obtain ⟨bs, v, hv⟩ := lzwLoop_determined (b :: rest) code u
          exact ⟨bs, v, hv.congr fun s hs =>
            lzwWrite_later (hs ▸ hop) (hs ▸ hfit) (hs ▸ hsv)⟩
      · exact ⟨[], u, yields_of_fails fun s hs => ⟨_, _, lzwWrite_unfit (hs ▸ hop) (hs ▸ hfit)⟩⟩
  · exact ⟨[], u, yields_of_fails fun s hs =>
      let ⟨f, hf⟩ := lzwWrite_notOpen (s := s) (hs ▸ hop) bs
      ⟨f, s, hf⟩⟩

theorem lzwWriteEach_determined (pieces : List (List Byte)) :
    Determined (lzwWriteEach pieces) := by
  induction pieces with
  | nil => exact fun u => ⟨[], u, yields_ok u⟩
  | cons p ps ih => exact (lzwWrite_determined p).andThen ih

/-! ### LzwClose -/

/-- The unit once it is shut (42_lzw.md R239). -/
def Lzw.shut (u : Lzw) : Lzw := { u with bitbuf := 0, nbits := 0, saved := none, st := .closed }

theorem lzwShut_yields (u : Lzw) : Yields (fun s => .ok (lzwShut s)) u [] u.shut :=
  yields_update Lzw.shut u

/-- LzwClose of an OPEN unit is its three parts (42_lzw.md R239). -/
theorem lzwClose_opened {s : State} (h : s.lzw.st = .opened) :
    lzwClose s = (lzwFlushSaved s).andThen fun s1 =>
      (emitCode (eoiCode s1.lzw.lit) s1).andThen fun s2 =>
        (lzwFlushBits s2).andThen fun s3 => .ok (lzwShut s3) := by
  simp only [lzwClose, h]

/-- The three parts of LzwClose, each from the unit the one before leaves. -/
theorem lzwClose_yields {u v w : Lzw} {xs ys zs : List Byte} (h : u.st = .opened)
    (hs : Yields lzwFlushSaved u xs v) (he : Yields (emitCode (eoiCode v.lit)) v ys w)
    (hb : Yields lzwFlushBits w zs w) : Yields lzwClose u (xs ++ (ys ++ zs)) w.shut := by
  have hend := hb.andThen (lzwShut_yields w)
  rw [List.append_nil] at hend
  refine (hs.andThen (q := fun s => (emitCode (eoiCode s.lzw.lit) s).andThen fun s2 =>
    (lzwFlushBits s2).andThen fun s3 => .ok (lzwShut s3)) ?_).congr
    fun s hs => lzwClose_opened (hs ▸ h)
  exact (he.andThen hend).congr fun s hs => by rw [hs]

theorem lzwFlushSaved_determined : Determined lzwFlushSaved := by
  intro u
  cases h : u.saved with
  | none => exact ⟨[], u, (yields_ok u).congr fun s hs => lzwFlushSaved_none (hs ▸ h)⟩
  | some code =>
    have ok : Determined .ok := fun u => ⟨[], u, yields_ok u⟩
    obtain ⟨bs, v, hv⟩ := (emitCode_determined code).andThen (incHi_determined ok ok) u
    exact ⟨bs, v, hv.congr fun s hs => lzwFlushSaved_some (hs ▸ h)⟩

/-- The bytes of the last partial byte (42_lzw.md R239). -/
def Lzw.lastByte (u : Lzw) : List Byte := if 0 < u.nbits then [u.bitbuf.setWidth 8] else []

theorem lzwFlushBits_yields (u : Lzw) : Yields lzwFlushBits u u.lastByte u := by
  by_cases h : 0 < u.nbits
  · rw [Lzw.lastByte, if_pos h]
    refine (lzwPut_yields _ u).congr fun s hs => ?_
    subst hs
    rw [lzwFlushBits, if_pos h]
  · rw [Lzw.lastByte, if_neg h]
    refine (yields_ok u).congr fun s hs => ?_
    subst hs
    rw [lzwFlushBits, if_neg h]

theorem lzwClose_determined : Determined lzwClose := by
  intro u
  cases h : u.st with
  | opened =>
    obtain ⟨xs, v, hv⟩ := lzwFlushSaved_determined u
    obtain ⟨ys, w, hw⟩ := emitCode_determined (eoiCode v.lit) v
    exact ⟨_, _, lzwClose_yields h hv hw (lzwFlushBits_yields w)⟩
  | closed =>
    refine ⟨[], u, (yields_ok u).congr fun s hs => ?_⟩
    subst hs
    simp only [lzwClose, h]
  | failed f =>
    refine ⟨[], u, yields_of_fails fun s hs => ⟨f, s, ?_⟩⟩
    subst hs
    simp only [lzwClose, h]

/-! ### The bits of LzwClose -/

/-- The last byte is the pending bits, and zeros above them (30_encoding.md R163). -/
theorem lastByte_bits {u : Lzw} (h : BitsBelow u 7) :
    ∃ pad < 8, bitsOfBytes u.lastByte = u.pending ++ List.replicate pad false := by
  obtain ⟨hcount, hlt⟩ := h
  rw [Lzw.lastByte]
  split
  · refine ⟨8 - u.nbits, by omega, ?_⟩
    rw [bitsOfBytes_cons, bitsOfBytes_nil, List.append_nil, BitVec.toNat_setWidth, lowBits_mod,
      ← lowBits_zero_value, Lzw.pending, ← lowBits_add_mul hlt, Nat.zero_mul, Nat.add_zero,
      show u.nbits + (8 - u.nbits) = 8 by omega]
  · refine ⟨0, by decide, ?_⟩
    rw [Lzw.pending, show u.nbits = 0 by omega]
    rfl

/-- The bits of the saved code, and of the clear code where its number fills the table
(42_lzw.md R239, R234). -/
def Lzw.savedBits (u : Lzw) : List Bool :=
  match u.saved with
  | none => []
  | some code => lowBits u.width code.toNat ++
      if u.hi.toNat = 4094 then lowBits 12 (2 ^ u.lit) else []

/-- The counter after the first part of LzwClose (42_lzw.md R239, R234, R236). -/
def Lzw.flushedHi (u : Lzw) : Nat :=
  if u.saved = none then u.hi.toNat
  else if u.hi.toNat = 4094 then 2 ^ u.lit + 1 else u.hi.toNat + 1

/-- The width after the first part of LzwClose (42_lzw.md R239, R234, R236). -/
def Lzw.flushedWidth (u : Lzw) : Nat :=
  if u.saved = none then u.width
  else if u.hi.toNat = 4094 then u.lit + 1
  else if u.hi.toNat + 1 = 2 ^ u.width then u.width + 1 else u.width

theorem flushedHi_saved {u : Lzw} {code : Code} (h : u.saved = some code) : u.flushedHi =
    if u.hi.toNat = 4094 then 2 ^ u.lit + 1 else u.hi.toNat + 1 := by
  rw [Lzw.flushedHi, if_neg (by simp [h])]

theorem flushedWidth_saved {u : Lzw} {code : Code} (h : u.saved = some code) : u.flushedWidth =
    if u.hi.toNat = 4094 then u.lit + 1
    else if u.hi.toNat + 1 = 2 ^ u.width then u.width + 1 else u.width := by
  rw [Lzw.flushedWidth, if_neg (by simp [h])]

/-- What the first part of LzwClose hands over of the unit `u`, and the unit `v` it leaves. -/
structure Flushed (u : Lzw) (bs : List Byte) (v : Lzw) : Prop where
  below   : BitsBelow v 7
  lit     : v.lit = u.lit
  hi      : v.hi.toNat = u.flushedHi
  width   : v.width = u.flushedWidth
  eoiFits : 2 ^ u.lit + 1 < 2 ^ v.width
  string  : bitsOfBytes bs ++ v.pending = u.pending ++ u.savedBits

/-- A counter of 4094 takes 12 bits (42_lzw.md R234). -/
theorem LzwSound.fullWidth {u : Lzw} (h : LzwSound u) (ho : u.st = .opened)
    (hfull : u.hi.toNat = 4094) : u.width = 12 := by
  have holds := (h.whileOpen ho).widthHolds
  have high := h.widthHigh
  rcases Nat.lt_or_ge u.width 12 with hlt | hge
  · have : 2 ^ u.width ≤ 2 ^ 11 := Nat.pow_le_pow_right (by decide) (by omega)
    omega
  · omega

/-- A full table's width stays while the clear code goes out (42_lzw.md R236). -/
theorem nextCode_width_full {u : Lzw} (hfull : u.hi.toNat = 4094) (hw : u.width = 12) :
    u.nextCode.width = 12 := by
  have hne : ¬(u.hi + 1).toNat = 2 ^ u.width := by
    rw [toNat_succ (by omega), hfull, hw]
    decide
  rw [Lzw.nextCode, if_neg hne, hw]

/-- The counter and the width of the next code (42_lzw.md R234). -/
theorem nextCode_hi {u : Lzw} (h : u.hi.toNat ≤ 4094) :
    u.nextCode.hi.toNat = u.hi.toNat + 1 := toNat_succ h

theorem nextCode_width {u : Lzw} (h : u.hi.toNat ≤ 4094) : u.nextCode.width =
    if u.hi.toNat + 1 = 2 ^ u.width then u.width + 1 else u.width := by
  rw [Lzw.nextCode, toNat_succ h]

theorem le_nextCode_width (u : Lzw) : u.width ≤ u.nextCode.width := by
  simp only [Lzw.nextCode]
  split <;> omega

/-- The saved code and what its IncHi adds: nothing below 4094. -/
theorem flushed_next {u v : Lzw} {bs : List Byte} {code : Code} (hl : LzwSound u)
    (ho : u.st = .opened) (hs : u.saved = some code) (hfull : u.hi.toNat ≠ 4094)
    (packs : Packs u (lowBits u.width code.toNat) bs v) : Flushed u bs v.nextCode := by
  have hopen := hl.whileOpen ho
  obtain ⟨below, unit, string⟩ := packs
  have hhi : v.hi = u.hi := by rw [unit]
  have hw : v.width = u.width := by rw [unit]
  refine ⟨⟨below.count, below.noStray⟩, by rw [unit]; rfl, ?_, ?_, ?_, ?_⟩
  · rw [nextCode_hi (hhi ▸ hopen.hiHigh), hhi, flushedHi_saved hs, if_neg hfull]
  · rw [nextCode_width (hhi ▸ hopen.hiHigh), hhi, hw, flushedWidth_saved hs,
      if_neg hfull]
  · calc 2 ^ u.lit + 1 ≤ u.hi.toNat := hopen.hiLow
      _ < 2 ^ u.width := hopen.widthHolds
      _ ≤ 2 ^ v.nextCode.width :=
        Nat.pow_le_pow_right (by decide) (hw ▸ le_nextCode_width v)
  · rw [Lzw.savedBits, hs]
    simp only [if_neg hfull, List.append_nil]
    exact string

/-- The saved code and what its IncHi adds: the clear code in 12 bits at 4094. -/
theorem flushed_full {u v w : Lzw} {xs ys : List Byte} {code : Code} (hl : LzwSound u)
    (ho : u.st = .opened) (hs : u.saved = some code) (hfull : u.hi.toNat = 4094)
    (packs : Packs u (lowBits u.width code.toNat) xs v)
    (clear : Packs v.nextCode (lowBits 12 (2 ^ u.lit)) ys w) :
    Flushed u (xs ++ ys) w.freshCodes := by
  have hlow : 2 ^ 2 ≤ 2 ^ u.lit := Nat.pow_le_pow_right (by decide) (hl.whileOpen ho).litLow
  obtain ⟨-, unit, string⟩ := packs
  obtain ⟨below, unit', string'⟩ := clear
  have hlit : w.lit = u.lit := by rw [unit', unit]; rfl
  refine ⟨⟨below.count, below.noStray⟩, hlit, ?_, ?_, ?_, ?_⟩
  · rw [flushedHi_saved hs, if_pos hfull, ← eoiCode_toNat hl.litHigh, ← hlit]
    rfl
  · rw [flushedWidth_saved hs, if_pos hfull, ← hlit]
    rfl
  · rw [Lzw.freshCodes, hlit, Nat.pow_succ]
    omega
  · have hnext : v.nextCode.pending = v.pending := rfl
    have hfresh : w.freshCodes.pending = w.pending := rfl
    rw [hfresh, bitsOfBytes_append, List.append_assoc, string', hnext, ← List.append_assoc,
      string, Lzw.savedBits, hs]
    simp only [if_pos hfull, List.append_assoc]

/-- The first part of LzwClose of a sound OPEN unit (42_lzw.md R239). -/
theorem lzwFlushSaved_flushed {u : Lzw} (hl : LzwSound u) (ho : u.st = .opened) :
    ∃ bs v, Yields lzwFlushSaved u bs v ∧ Flushed u bs v := by
  have hopen := hl.whileOpen ho
  have below : BitsBelow u 7 := ⟨hopen.fewBits, hl.noStray⟩
  cases hs : u.saved with
  | none =>
    refine ⟨[], u, (yields_ok u).congr fun s h => lzwFlushSaved_none (h ▸ hs), below, rfl, ?_,
      ?_, Nat.lt_of_le_of_lt hopen.hiLow hopen.widthHolds, ?_⟩
    · rw [Lzw.flushedHi, if_pos hs]
    · rw [Lzw.flushedWidth, if_pos hs]
    · rw [Lzw.savedBits, hs]
      simp
  | some code =>
    obtain ⟨xs, v, hv, packs⟩ := emitCode_yields code u
    have packs := packs below
      (Nat.lt_of_le_of_lt (hopen.savedCode code hs) hopen.widthHolds)
    have hhi : v.hi = u.hi := by rw [packs.unit]
    have hsucc : (v.hi + 1).toNat = u.hi.toNat + 1 := by
      rw [hhi, toNat_succ hopen.hiHigh]
    by_cases hfull : u.hi.toNat = 4094
    · obtain ⟨ys, w, hw, clear⟩ := emitCode_yields (clearCode v.lit) v.nextCode
      have hlit : v.lit = u.lit := by rw [packs.unit]
      have hwidth : v.nextCode.width = 12 :=
        nextCode_width_full (hhi ▸ hfull) (by rw [packs.unit]; exact hl.fullWidth ho hfull)
      have hclear : (clearCode v.lit).toNat = 2 ^ u.lit := by
        rw [hlit, clearCode_toNat hl.litHigh]
      have hsmall := pow_lit_le hl.litHigh
      have clear := clear ⟨packs.below.count, packs.below.noStray⟩ (by rw [hclear, hwidth]; omega)
      rw [hwidth, hclear] at clear
      refine ⟨xs ++ ys, w.freshCodes, ?_, flushed_full hl ho hs hfull packs clear⟩
      have hinc := incHi_yields_full (next := .ok) (by omega) hw (yields_ok w.freshCodes)
      rw [List.append_nil] at hinc
      exact (hv.andThen hinc).congr fun s h => lzwFlushSaved_some (h ▸ hs)
    · refine ⟨xs, v.nextCode, ?_, flushed_next hl ho hs hfull packs⟩
      have hinc := incHi_yields_next (full := .ok) (by omega) (yields_ok v.nextCode)
      have hall := hv.andThen hinc
      rw [List.append_nil] at hall
      exact hall.congr fun s h => lzwFlushSaved_some (h ▸ hs)

/-- LzwClose of a sound OPEN unit: the bits pending, those of the saved code, and those of the
end-of-information code, up to a whole byte (42_lzw.md R239). -/
theorem lzwClose_flushed {u : Lzw} (hl : LzwSound u) (ho : u.st = .opened) :
    ∃ bs v pad, Yields lzwClose u bs v ∧ v.hi.toNat = u.flushedHi ∧
      v.width = u.flushedWidth ∧ pad < 8 ∧
      bitsOfBytes bs = u.pending ++ u.savedBits ++ lowBits v.width (2 ^ u.lit + 1) ++
        List.replicate pad false := by
  obtain ⟨xs, v, hv, flushed⟩ := lzwFlushSaved_flushed hl ho
  obtain ⟨ys, w, hw, packs⟩ := emitCode_yields (eoiCode v.lit) v
  have heoi : (eoiCode v.lit).toNat = 2 ^ u.lit + 1 := by
    rw [flushed.lit, eoiCode_toNat hl.litHigh]
  obtain ⟨below, unit, string⟩ := packs flushed.below (heoi ▸ flushed.eoiFits)
  obtain ⟨pad, hpad, last⟩ := lastByte_bits below
  have hwidth : w.width = v.width := by rw [unit]
  refine ⟨_, w.shut, pad, lzwClose_yields ho hv hw (lzwFlushBits_yields w), ?_,
    hwidth.trans flushed.width, hpad, ?_⟩
  · rw [← flushed.hi, unit]
    rfl
  · have hshut : w.shut.width = v.width := hwidth
    rw [hshut, bitsOfBytes_append, bitsOfBytes_append, last, ← List.append_assoc (bitsOfBytes ys),
      string, heoi, ← flushed.string]
    simp only [List.append_assoc]

/-- LZW_CLOSE as the completion of LzwClose (42_lzw.md R245). -/
theorem exec_lzwClose_ok {s t : State} (h : lzwClose { s with seq.delivered := 0 } = .ok t) :
    exec .lzwClose s = .next (t.complete none (countWord t.seq.delivered) 0) := by
  simp only [exec, execLzwClose, h]
  rfl

/-- Settles O44: LzwClose of a sound unit hands over the bits of its three parts, and in front of
a ready writer it succeeds. -/
theorem lzwCloseResult : Obligations.LzwCloseResult := by
  intro s hl ho hwr hacc
  obtain ⟨t, ht, ready, closed, saved, nbits, bitbuf, lit⟩ :=
    lzwClose_ready (s := { s with seq.delivered := 0 }) ⟨hwr, hacc⟩ ho
  obtain ⟨bs, v, pad, hv, hhi, hwidth, hpad, string⟩ := lzwClose_flushed hl ho
  obtain ⟨rfl, delivered, handed⟩ := hv { s with seq.delivered := 0 } t rfl ht
  have payload : sbwPayload s (t.complete none (countWord t.seq.delivered) 0) =
      s.sbw.data ++ bs := handed.payload
  have hpos : 0 < t.lzw.width := by
    rw [hwidth, Lzw.flushedWidth]
    have := (hl.whileOpen ho).widthLow
    split
    · omega
    · split
      · omega
      · split <;> omega
  have hne : bs ≠ [] := by
    rintro rfl
    obtain ⟨k, hk⟩ := Nat.exists_eq_add_of_le' hpos
    rw [hk] at string
    simp [lowBits] at string
  refine ⟨_, bs.length, pad, exec_lzwClose_ok ht, rfl, rfl, ?_, rfl,
    List.length_pos_iff.2 hne, ?_, ?_, closed, saved, nbits, bitbuf, lit, ready.writable, hhi,
    hwidth, hpad, ?_⟩
  · rw [complete_csr_res0, delivered, Nat.zero_add]
  · rw [payload, List.length_append]
  · rw [payload]
    exact List.prefix_append _ _
  · rw [payload, bitsOfBytes_append, string]
    simp only [Lzw.pending, Lzw.savedBits, complete_lzw]
    cases s.lzw.saved <;> simp only [List.append_assoc]

end Sys2Proof.Machine
end

section
/-!
SUPPORT. What ENC_ANIM of a valid animation writes before a sink that accepts everything: each
item in its order, and of each frame the sub-blocks of its LZW data (30_encoding.md R150–R159,
43_frame_animation.md R272–R288).
-/

namespace Sys2Proof.Machine

/-! ### What is written -/

/-- Between `s` and `t` the sink took `out`, and its bytes were counted (20_memory.md R90). -/
structure Sends (s : State) (out : List Byte) (t : State) : Prop where
  stream   : t.stream = s.stream ++ out
  accepted : t.seq.accepted = s.seq.accepted + out.length

/-- What leaves the sink and the count as they are sends nothing. -/
theorem Sends.nothing {s t : State} (hx : t.sink = s.sink)
    (ha : t.seq.accepted = s.seq.accepted) : Sends s [] t :=
  ⟨by rw [State.stream, hx, List.append_nil]; rfl, ha⟩

theorem Sends.trans {s t u : State} {xs ys : List Byte} (h : Sends s xs t) (k : Sends t ys u) :
    Sends s (xs ++ ys) u :=
  ⟨by rw [k.stream, h.stream, List.append_assoc], by
    rw [k.accepted, h.accepted, List.length_append, Nat.add_assoc]⟩

/-- A transaction taken whole sends its bytes. -/
theorem sends_record (s : State) (bs : List Byte) : Sends s bs { s with
    sink := s.sink.record bs (bs.length, none), seq.accepted := s.seq.accepted + bs.length } := by
  refine ⟨?_, rfl⟩
  rw [State.stream, streamOf_record, List.take_length]
  rfl

/-- An output item before an accepting sink (43_frame_animation.md R276). -/
theorem emit_sends {s : State} (h : s.sink.accepting) (bs : List Byte) :
    ∃ t, emit bs s = .ok t ∧ t.sink.accepting ∧ Sends s bs t ∧ t.sbw = s.sbw :=
  ⟨_, emit_ready h bs, Sink.record_accepting h _ _, sends_record s bs, rfl⟩

/-! ### Sub-blocks -/

/-- Of data of at most 254 bytes the sub-blocks are the closing transaction
(30_encoding.md R158, 41_subblock_writer.md R207). -/
theorem subBlocksFuel_rest {rest : List Byte} (h : rest.length ≤ 254) {fuel : Nat}
    (hf : rest.length ≤ fuel) : subBlocksFuel fuel rest = closingBlock rest := by
  have last : ∀ n, subBlocksFuel n [] = [0] := fun n => by cases n <;> rfl
  cases rest with
  | nil => exact last fuel
  | cons b bs =>
    cases fuel with
    | zero => cases hf
    | succ fuel =>
      rw [subBlocksFuel, if_neg (List.cons_ne_nil b bs), Nat.min_eq_right (by omega),
        List.take_of_length_le (by omega), List.drop_of_length_le (by omega), last,
        closingBlock, if_neg (List.cons_ne_nil b bs)]

/-- Full units and a rest are the sub-blocks of their data (30_encoding.md R158). -/
theorem subBlocksFuel_units {us : List (List Byte)} (hu : ∀ u ∈ us, u.length = 255)
    {rest : List Byte} (hr : rest.length ≤ 254) {fuel : Nat}
    (hf : (us.flatten ++ rest).length ≤ fuel) :
    subBlocksFuel fuel (us.flatten ++ rest) = us.flatMap (255 :: ·) ++ closingBlock rest := by
  induction us generalizing fuel with
  | nil => exact subBlocksFuel_rest hr hf
  | cons u us ih =>
    have hlen : u.length = 255 := hu u (by simp)
    rw [List.flatten_cons, List.append_assoc] at hf ⊢
    rw [List.length_append] at hf
    obtain ⟨fuel, rfl⟩ := Nat.exists_eq_add_of_le' (Nat.le_trans (by omega : 1 ≤ _) hf)
    have hne : u ++ (us.flatten ++ rest) ≠ [] := by
      intro h
      simp [List.append_eq_nil_iff.1 h] at hlen
    rw [subBlocksFuel, if_neg hne, Nat.min_eq_left (by rw [List.length_append]; omega), ← hlen,
      List.take_left, List.drop_left, ih (fun w hw => hu w (by simp [hw])) (by omega),
      List.flatMap_cons, hlen, List.append_assoc]
    rfl

theorem subBlocks_units {us : List (List Byte)} (hu : ∀ u ∈ us, u.length = 255)
    {rest : List Byte} (hr : rest.length ≤ 254) :
    subBlocks (us.flatten ++ rest) = us.flatMap (255 :: ·) ++ closingBlock rest :=
  subBlocksFuel_units hu hr (Nat.le_refl _)

/-- The sink stream of whole units. -/
theorem streamOf_units {us : List (List Byte)} (hu : ∀ u ∈ us, u.length = 255) :
    streamOf (us.map unitTx) = us.flatMap (255 :: ·) := by
  induction us with
  | nil => rfl
  | cons u us ih =>
    have whole : (unitTx u).accepted = 255 :: u :=
      List.take_of_length_le (by simp [unitTx, hu u (by simp)])
    calc streamOf ((u :: us).map unitTx)
        = (unitTx u).accepted ++ streamOf (us.map unitTx) := rfl
      _ = (255 :: u) ++ us.flatMap (255 :: ·) := by
        rw [whole, ih fun w hw => hu w (by simp [hw])]
      _ = (u :: us).flatMap (255 :: ·) := rfl

/-- The writer closes with what it has buffered (41_subblock_writer.md R207). -/
theorem closeBytes_eq (s : State) : closeBytes s = closingBlock s.sbw.data := by
  rw [closeBytes, closingBlock, State.fillByte]
  cases s.sbw.data <;> simp

/-- Bytes handed to a fresh writer that is then closed go out as their sub-blocks
(30_encoding.md R158, 41_subblock_writer.md R207). -/
theorem Handed.close {s t : State} {bs : List Byte} (h : Handed s bs t) (hs : s.sbw.data = [])
    (ready : OutReady t) : ∃ u, sbwClose t = .ok u ∧ u.sink.accepting ∧
      u.sbw = { st := .closed, data := [] } ∧ u.lzw = t.lzw ∧ Sends s (subBlocks bs) u := by
  obtain ⟨us, hlen, htxs, hdata, hacc⟩ := h.units
  have hlow : t.sbw.data.length ≤ 254 := h.low (by simp [hs])
  have hunits : Sends s (us.flatMap (255 :: ·)) t :=
    ⟨by rw [State.stream, htxs, streamOf_append, streamOf_units hlen]; rfl, hacc⟩
  rw [hs, List.nil_append] at hdata
  rw [← hdata, subBlocks_units hlen hlow, ← closeBytes_eq]
  have hall := hunits.trans (sends_record t (closeBytes t))
  exact ⟨_, sbwClose_ready ready, Sink.record_accepting ready.accepting _ _, rfl, rfl,
    hall.stream, hall.accepted⟩

/-! ### The data of a frame -/

/-- Writes of literals by an OPEN unit succeed in turn. -/
theorem lzwWriteEach_ready {pieces : List (List Byte)} {s : State} (h : OutReady s)
    (ho : s.lzw.st = .opened) (hfit : ∀ p ∈ pieces, literalsFit s.lzw.lit p = true) :
    ∃ t, lzwWriteEach pieces s = .ok t ∧ OutReady t ∧ t.lzw.st = .opened := by
  induction pieces generalizing s with
  | nil => exact ⟨s, rfl, h, ho⟩
  | cons p ps ih =>
    obtain ⟨t, ht, ready, opened, lit, -⟩ := lzwWrite_ready h ho (hfit p (by simp))
    obtain ⟨u, hu, ready', opened'⟩ :=
      ih ready opened fun q hq => lit ▸ hfit q (by simp [hq])
    exact ⟨u, by rw [lzwWriteEach, ht, Ret.andThen_ok, hu], ready', opened'⟩

/-- Writes of literals and LzwClose succeed in front of a ready writer. -/
theorem lzwWriteEach_close_ready {pieces : List (List Byte)} {s : State} (h : OutReady s)
    (ho : s.lzw.st = .opened) (hfit : ∀ p ∈ pieces, literalsFit s.lzw.lit p = true) :
    ∃ t, (lzwWriteEach pieces s).andThen lzwClose = .ok t ∧ OutReady t ∧
      t.lzw.st = .closed := by
  obtain ⟨t, ht, ready, opened⟩ := lzwWriteEach_ready h ho hfit
  obtain ⟨u, hu, ready', closed, -⟩ := lzwClose_ready ready opened
  exact ⟨u, by rw [ht, Ret.andThen_ok, hu], ready', closed⟩

/-- Whatever state the pieces are written from, a fresh unit hands over the data of
`lzwData` (30_encoding.md R157). -/
theorem lzwData_yields {lit : Nat} {pieces : List (List Byte)}
    (hfit : ∀ p ∈ pieces, literalsFit lit p = true) (s : State) :
    ∃ v, Yields (fun t => (lzwWriteEach pieces t).andThen lzwClose) (lzwOpen lit s).lzw
      (lzwData lit pieces s) v := by
  obtain ⟨bs, v, hv⟩ := ((lzwWriteEach_determined pieces).andThen lzwClose_determined)
    (lzwOpen lit s).lzw
  obtain ⟨t, ht, -, -⟩ := lzwWriteEach_close_ready (s := freshUnits lit s)
    ⟨rfl, rfl, rfl⟩ rfl hfit
  obtain ⟨-, -, handed⟩ := hv (freshUnits lit s) t rfl ht
  have hdata : lzwData lit pieces s = bs := by
    rw [lzwData, ht]
    exact handed.payload
  exact ⟨v, hdata ▸ hv⟩

/-! ### One frame -/

/-- The row loop is the writes of its rows in turn (43_frame_animation.md R274). -/
theorem encodeRows_eq (fd : FrameDesc) (n r : Nat) (s : State)
    (h : ∀ q, r ≤ q → q < r + n → ∃ row, readRow fd q s = some row) :
    encodeRows fd n r s =
      lzwWriteEach ((List.range' r n).map fun q => (readRow fd q s).getD []) s := by
  induction n generalizing r s with
  | zero => rfl
  | succ n ih =>
    obtain ⟨row, hrow⟩ := h r (Nat.le_refl r) (by omega)
    have hframe := lzwWrite_frame row s
    rw [encodeRows, List.range'_succ, List.map_cons, lzwWriteEach, hrow]
    dsimp only [Option.getD_some]
    cases hw : lzwWrite row s with
    | fail f t => rfl
    | ok t =>
      rw [hw] at hframe
      have same : ∀ q, readRow fd q t = readRow fd q s :=
        readRow_congr hframe.imem hframe.imemSize fd
      rw [Ret.andThen_ok, Ret.andThen_ok,
        ih (r + 1) t fun q h1 h2 => by rw [same]; exact h q (by omega) (by omega)]
      simp only [same]

/-- Both units CLOSED, nothing buffered (70_reset_and_hazards.md R354). -/
structure UnitsClosed (s : State) : Prop where
  sbw : s.sbw = { st := .closed, data := [] }
  lzw : s.lzw.st = .closed

/-- The rows of a frame are literals, in range (43_frame_animation.md R274). -/
theorem RowsFit.literals {s : State} {bits : Nat} {fd : FrameDesc}
    (h : RowsFit s bits fd fd.height) :
    ∀ p ∈ frameRows fd s, literalsFit (literalWidth bits) p = true := by
  intro p hp
  obtain ⟨r, hr, rfl⟩ := List.mem_map.1 hp
  obtain ⟨row, hrow, hfit⟩ := h r (List.mem_range.1 hr)
  rw [hrow]
  exact hfit

/-- FrameEncode writes the image descriptor and the sub-blocks of the frame's data
(43_frame_animation.md R272, R275). -/
theorem frameEncode_sends {s₀ s : State} (hm : s.imem = s₀.imem) (hn : s.imemSize = s₀.imemSize)
    (ha : s.sink.accepting) {bits : Nat} {fd : FrameDesc} (hrows : RowsFit s₀ bits fd fd.height) :
    ∃ t, frameEncode fd (literalWidth bits) s = .ok t ∧ t.sink.accepting ∧ UnitsClosed t ∧
      Sends s (imageItem fd (literalWidth bits) ++
        subBlocks (lzwData (literalWidth bits) (frameRows fd s₀) s₀)) t := by
  obtain ⟨s1, h1, acc1, sends1, -⟩ := emit_sends ha (imageItem fd (literalWidth bits))
  have frame1 := emit_frame (imageItem fd (literalWidth bits)) s
  rw [h1] at frame1
  have same : ∀ q, readRow fd q (lzwOpen (literalWidth bits) (sbwOpen s1)) = readRow fd q s₀ :=
    readRow_congr (frame1.imem.trans hm) (frame1.imemSize.trans hn) fd
  have hwrite := encodeRows_eq fd fd.height 0 (lzwOpen (literalWidth bits) (sbwOpen s1))
    fun q _ hq => by
      obtain ⟨row, hrow, -⟩ := hrows q (by omega)
      exact ⟨row, by rw [same, hrow]⟩
  simp only [same, ← List.range_eq_range'] at hwrite
  obtain ⟨t, ht, ready, closed⟩ := lzwWriteEach_close_ready
    (s := lzwOpen (literalWidth bits) (sbwOpen s1)) ⟨rfl, acc1⟩ rfl hrows.literals
  obtain ⟨v, hv⟩ := lzwData_yields hrows.literals s₀
  obtain ⟨-, -, handed⟩ := hv (lzwOpen (literalWidth bits) (sbwOpen s1)) t rfl ht
  obtain ⟨u, hu, acc2, sbw2, lzw2, sends2⟩ := handed.close rfl ready
  refine ⟨u, ?_, acc2, ⟨sbw2, lzw2 ▸ closed⟩, sends1.trans ⟨sends2.stream, sends2.accepted⟩⟩
  have hclose : ((lzwWriteEach (frameRows fd s₀) (lzwOpen (literalWidth bits) (sbwOpen s1))).andThen
      lzwClose).andThen sbwClose = .ok u := by
    rw [ht, Ret.andThen_ok, hu]
  rw [frameEncode, h1, Ret.andThen_ok, hwrite, ← hclose, Ret.andThen_assoc]
  rfl

/-- What a state holds while the frames of a valid animation in `s₀` are encoded: its IMEM, the
global palette, and a sink that accepts everything. -/
structure FrameReady (s₀ : State) (bits : Nat) (bytes : List Byte) (s : State) : Prop where
  imem      : s.imem = s₀.imem
  imemSize  : s.imemSize = s₀.imemSize
  bits      : s.gct.bits = bits
  table     : s.gctTable = bytes
  valid     : s.gct.valid = true
  accepting : s.sink.accepting

theorem FrameReady.step {s₀ s t : State} {bits : Nat} {bytes : List Byte}
    (h : FrameReady s₀ bits bytes s) (hf : CtrlFrame s t) (hg : t.gct = s.gct)
    (ha : t.sink.accepting) : FrameReady s₀ bits bytes t :=
  ⟨hf.imem.trans h.imem, hf.imemSize.trans h.imemSize, hg ▸ h.bits, by
    rw [State.gctTable, hg]; exact h.table, hg ▸ h.valid, ha⟩

/-- An output item leaves a state ready for the next. -/
theorem FrameReady.emit {s₀ s : State} {bits : Nat} {bytes : List Byte}
    (h : FrameReady s₀ bits bytes s) (bs : List Byte) :
    ∃ t, emit bs s = .ok t ∧ FrameReady s₀ bits bytes t ∧ Sends s bs t ∧ SbwFrame s t ∧
      t.sbw = s.sbw := by
  obtain ⟨t, ht, acc, sends, sbw⟩ := emit_sends h.accepting bs
  have frame := emit_frame bs s
  rw [ht] at frame
  exact ⟨t, ht, h.step frame.toCtrl frame.gct acc, sends, frame, sbw⟩

/-- An output item that is there only where `c` holds. -/
theorem FrameReady.emitIf {s₀ s : State} {bits : Nat} {bytes : List Byte}
    (h : FrameReady s₀ bits bytes s) (c : Prop) [Decidable c] (bs : List Byte) :
    ∃ t, (if c then Machine.emit bs s else .ok s) = .ok t ∧ FrameReady s₀ bits bytes t ∧
      Sends s (if c then bs else []) t ∧ SbwFrame s t := by
  by_cases hc : c
  · obtain ⟨t, ht, ready, sends, frame, -⟩ := h.emit bs
    simp only [if_pos hc]
    exact ⟨t, ht, ready, sends, frame⟩
  · simp only [if_neg hc]
    exact ⟨s, rfl, h, .nothing rfl rfl, .refl s⟩

/-- The palette of a valid frame is the global one (43_frame_animation.md R287). -/
theorem FrameReady.checkPalette {s₀ s : State} {bits : Nat} {bytes : List Byte}
    (h : FrameReady s₀ bits bytes s) {p : Nat} (hp : palEncode p s₀ = .table bits bytes) :
    checkPalette p s = .ok s := by
  obtain ⟨-, -, hlen⟩ := palEncode_table hp
  have hmatch : palMismatch p s = none :=
    palMismatch_self (by rw [palEncode_congr h.imem h.imemSize, hp, h.bits, h.table])
      (by rw [h.table, h.bits, hlen])
  rw [Machine.checkPalette, hmatch]

/-- One round of step 7 writes the block of the frame (43_frame_animation.md R287). -/
theorem encodeFrame_sends {s₀ s : State} {bits : Nat} {bytes : List Byte}
    (h : FrameReady s₀ bits bytes s) {a i : Nat} {fd : FrameDesc}
    (hread : readFrame a i s₀ = some fd) (hvalid : FrameValid s₀ bits bytes fd) :
    ∃ t, encodeFrame a i (literalWidth bits) s = .ok t ∧ FrameReady s₀ bits bytes t ∧
      UnitsClosed t ∧ t.seq.framesDone = s.seq.framesDone + 1 ∧
      Sends s (frameBlock (literalWidth bits) fd
        (lzwData (literalWidth bits) (frameRows fd s₀) s₀)) t := by
  obtain ⟨s1, h1, ready1, sends1, frame1⟩ := h.emitIf (¬fd.delay = 0) (gceItem fd.delay)
  rw [ite_not] at h1 sends1
  obtain ⟨s2, h2, acc2, closed2, sends2⟩ :=
    frameEncode_sends ready1.imem ready1.imemSize ready1.accepting hvalid.rows
  have frame2 := frameEncode_frame fd (literalWidth bits) s1
  rw [h2] at frame2
  have ready2 := ready1.step frame2.toCtrl frame2.gct acc2
  refine ⟨{ s2 with seq.framesDone := s2.seq.framesDone + 1 }, ?_,
    ready2.step (.setFramesDone s2 _) rfl acc2, ⟨closed2.sbw, closed2.lzw⟩, ?_, ?_⟩
  · rw [encodeFrame, readFrame_congr h.imem h.imemSize, hread]
    dsimp only
    rw [emitGce, h1, Ret.andThen_ok, ready1.checkPalette hvalid.palette, Ret.andThen_ok, h2,
      Ret.andThen_ok]
  · exact congrArg (· + 1) (frame2.framesDone.trans frame1.framesDone)
  · have sends := sends1.trans sends2
    rw [← List.append_assoc] at sends
    exact ⟨sends.stream, sends.accepted⟩

/-! ### The animation -/

/-- Step 7 writes the blocks of the frames in order (43_frame_animation.md R287). -/
theorem encodeFrames_sends {s₀ : State} {bits : Nat} {bytes : List Byte} {a : Nat}
    {frames : List FrameDesc} {i : Nat} {s : State} (h : FrameReady s₀ bits bytes s)
    (hread : ∀ j fd, frames[j]? = some fd → readFrame a (i + j) s₀ = some fd)
    (hvalid : ∀ fd ∈ frames, FrameValid s₀ bits bytes fd) :
    ∃ t, encodeFrames a (literalWidth bits) frames.length i s = .ok t ∧
      FrameReady s₀ bits bytes t ∧ (frames ≠ [] ∨ UnitsClosed s → UnitsClosed t) ∧
      t.seq.framesDone = s.seq.framesDone + frames.length ∧
      Sends s (gifBlocks bits frames (animationDatas frames bits s₀)) t := by
  induction frames generalizing i s with
  | nil => exact ⟨s, rfl, h, fun hc => hc.resolve_left (by simp), rfl, .nothing rfl rfl⟩
  | cons fd fds ih =>
    obtain ⟨s1, h1, ready1, closed1, done1, sends1⟩ :=
      encodeFrame_sends h (hread 0 fd rfl) (hvalid fd (by simp))
    obtain ⟨t, ht, ready, closed, done, sends⟩ := ih (i := i + 1) ready1
      (fun j g hg => by
        rw [Nat.add_right_comm, Nat.add_assoc]
        exact hread (j + 1) g hg)
      fun g hg => hvalid g (by simp [hg])
    refine ⟨t, ?_, ready, fun _ => closed (.inr closed1), ?_, ?_⟩
    · rw [List.length_cons, encodeFrames]
      exact Ret.andThen_eq_ok.2 ⟨s1, h1, ht⟩
    · rw [done, done1, List.length_cons, Nat.add_assoc, Nat.add_comm 1]
    · exact sends1.trans sends

/-- The canvas of frames that can be read is the maximum of their far corners
(43_frame_animation.md R271, R282). -/
theorem canvas_eq {a : Nat} {s : State} {frames : List FrameDesc} {i w h : Nat}
    (hread : ∀ j fd, frames[j]? = some fd → readFrame a (i + j) s = some fd) :
    canvas a frames.length i (w, h) s =
      some (frames.foldl (fun m fd => max m (fd.left + fd.width)) w,
        frames.foldl (fun m fd => max m (fd.top + fd.height)) h) := by
  induction frames generalizing i w h with
  | nil => rfl
  | cons fd fds ih =>
    have h0 : readFrame a i s = some fd := hread 0 fd rfl
    rw [List.length_cons, canvas, h0]
    exact ih fun j g hg => by
      rw [Nat.add_right_comm, Nat.add_assoc]
      exact hread (j + 1) g hg

/-- Steps 4 to 8 of a valid animation write its whole stream (43_frame_animation.md
R284–R288). -/
theorem emitAnimation_sends {s₀ s : State} {frames : List FrameDesc} {loop w h bits : Nat}
    {bytes : List Byte} (hs : FrameReady s₀ bits bytes s)
    (hv : AnimationValid s₀ frames loop w h bits bytes) :
    ∃ t, emitAnimation s₀.argA frames.length loop w h s = .ok t ∧
      FrameReady s₀ bits bytes t ∧ UnitsClosed t ∧
      t.seq.framesDone = s.seq.framesDone + frames.length ∧
      Sends s (gifStream frames loop w h bits bytes (animationDatas frames bits s₀)) t := by
  obtain ⟨s1, h1, ready1, sends1, frame1, -⟩ := hs.emit signatureItem
  obtain ⟨s2, h2, ready2, sends2, frame2, -⟩ := ready1.emit (lsdItem w h bits)
  obtain ⟨s3, h3, ready3, sends3, frame3, -⟩ := ready2.emit bytes
  obtain ⟨s4, h4, ready4, sends4, frame4⟩ :=
    ready3.emitIf (1 < frames.length) (loopExtItem loop)
  obtain ⟨s5, h5, ready5, closed5, done5, sends5⟩ := encodeFrames_sends ready4
    (a := s₀.argA) (i := 0) (fun j fd hfd => by rw [Nat.zero_add]; exact hv.read j fd hfd)
    hv.valid
  obtain ⟨t, ht, ready, sends6, frame6, sbw6⟩ := ready5.emit trailerItem
  have closed := closed5 (.inl hv.nonempty)
  refine ⟨t, ?_, ready, ⟨sbw6.trans closed.sbw, frame6.lzw ▸ closed.lzw⟩, ?_, ?_⟩
  · unfold emitAnimation
    rw [hs.bits]
    dsimp only
    rw [h1, Ret.andThen_ok, h2, Ret.andThen_ok, ready2.table, h3, Ret.andThen_ok, emitLoopExt,
      h4, Ret.andThen_ok, h5, Ret.andThen_ok, ht]
  · rw [frame6.framesDone, done5, frame4.framesDone, frame3.framesDone, frame2.framesDone,
      frame1.framesDone]
  · exact ((((sends1.trans sends2).trans sends3).trans sends4).trans sends5).trans sends6

/-- The global palette of a valid animation is loaded (43_frame_animation.md R283). -/
theorem loadGlobalPalette_valid {s : State} {frames : List FrameDesc} {loop w h bits : Nat}
    {bytes : List Byte} (hv : AnimationRead s frames loop w h bits bytes) :
    loadGlobalPalette s.argA s = .ok (gctLoad (.table bits bytes) s) := by
  obtain ⟨fd, fds, rfl⟩ := List.exists_cons_of_ne_nil hv.nonempty
  have hread := hv.read 0 fd rfl
  have hpal := hv.first fd rfl
  simp only [loadGlobalPalette, hread, hpal]

/-- The checks before any output are passed (43_frame_animation.md R281–R283). -/
theorem encodeAnimation_valid {s : State} {frames : List FrameDesc} {loop w h bits : Nat}
    {bytes : List Byte} (hv : AnimationRead s frames loop w h bits bytes) :
    encodeAnimation s.argA s =
      emitAnimation s.argA frames.length loop w h (gctLoad (.table bits bytes) s) := by
  have hne : frames.length ≠ 0 := fun h0 => hv.nonempty (List.length_eq_zero_iff.1 h0)
  have hcanvas : canvas s.argA frames.length 0 (0, 0) s = some (w, h) := by
    rw [canvas_eq fun j fd hfd => by rw [Nat.zero_add]; exact hv.read j fd hfd, hv.width,
      hv.height]
  have hsmall : ¬(65536 ≤ w ∨ 65536 ≤ h) := by
    have := hv.small
    omega
  simp only [encodeAnimation, hv.header, hne, if_false, hcanvas, hsmall,
    loadGlobalPalette_valid hv, Ret.andThen_ok]

/-- NFRAMES is a 32-bit number (30_encoding.md R140). -/
theorem readHeader_frames_lt {a nf loop : Nat} {s : State}
    (h : readHeader a s = some (nf, loop)) : nf < 2 ^ 32 := by
  obtain ⟨v, -, hv⟩ := Option.map_eq_some_iff.1 h
  cases hv
  exact Nat.mod_lt _ (by decide)

/-- What is read of an animation depends on IMEM and ARG0 alone. -/
theorem AnimationRead.setSeq {s : State} {frames : List FrameDesc} {loop w h bits : Nat}
    {bytes : List Byte} (hv : AnimationRead s frames loop w h bits bytes) (q : Sequencer) :
    AnimationRead { s with seq := q } frames loop w h bits bytes :=
  ⟨hv.header, hv.nonempty, hv.read, hv.width, hv.height, hv.small, hv.first⟩

/-- ENC_ANIM as the completion of its steps (43_frame_animation.md R289). -/
theorem exec_encAnim_ok {s t : State}
    (h : encodeAnimation s.argA { s with seq.accepted := 0, seq.framesDone := 0 } = .ok t) :
    exec .encAnim s = .next
      (t.complete none (countWord t.seq.accepted) (countWord t.seq.framesDone)) := by
  simp only [exec, execEncAnim, h]
  rfl

/-- Settles O54: the checks pass, the items go out in order, and the count of bytes is the length
of what is sent. -/
theorem encAnimWritesStream : Obligations.EncAnimWritesStream := by
  intro s frames loop w h bits bytes out hv hacc hout
  have hpal : bytes.length = 3 * 2 ^ bits := by
    obtain ⟨fd, fds, rfl⟩ := List.exists_cons_of_ne_nil hv.nonempty
    exact (palEncode_table (hv.first fd rfl)).2.2
  have loaded : FrameReady s bits bytes
      (gctLoad (.table bits bytes) { s with seq.accepted := 0, seq.framesDone := 0 }) :=
    ⟨rfl, rfl, rfl, gctLoad_gctTable hpal, rfl, hacc⟩
  obtain ⟨t, ht, ready, closed, done, sends⟩ := emitAnimation_sends loaded hv
  have hrun := (encodeAnimation_valid (hv.toAnimationRead.setSeq _)).trans ht
  rw [← hout] at sends
  refine ⟨_, exec_encAnim_ok hrun, sends.stream, rfl, rfl, ?_, ?_, closed.sbw, closed.lzw,
    ready.valid, ready.bits, ready.table⟩
  · rw [complete_csr_res0, sends.accepted]
    exact congrArg countWord (Nat.zero_add _)
  · rw [complete_csr_res1, done, countWord, if_pos]
    · exact congrArg _ (Nat.zero_add _)
    · exact (Nat.zero_add frames.length).symm ▸ readHeader_frames_lt hv.header

end Sys2Proof.Machine
end


section
/-!
SUPPORT. The PAL unit: BITWIDTH, the palette encoder told from the bytes of IMEM, its table byte
by byte, and the palette check (40_helpers.md R180–R188).
-/

namespace Sys2Proof.Machine

/-! ### The bit width -/

/-- The bit width fits `j` bits exactly when `2^j` reaches the number (40_helpers.md R180). -/
theorem bitWidth_le_iff {n j : Nat} (hn : n ≤ 2 ^ 32) (hj : 1 ≤ j) :
    bitWidth n ≤ j ↔ n ≤ 2 ^ j := by
  obtain ⟨k, hk, reaches, least, -⟩ := bitWidth_least hn
  rw [hk, Nat.max_le]
  exact ⟨fun h => Nat.le_trans reaches (Nat.pow_le_pow_right (by decide) h.2),
    fun h => ⟨hj, least j h⟩⟩

/-- Settles O27: the search stops at the least power, at 32 at the latest. -/
theorem bitwidthResult : Obligations.BitwidthResult := by
  intro s
  obtain ⟨k, hk, reaches, least, hle⟩ := bitWidth_least (Nat.le_of_lt s.csr.arg0.isLt)
  exact ⟨k, reaches, least, by omega, hk ▸ rfl⟩

/-! ### The palette encoder -/

/-- The header of a palette record in range, from its bytes (40_helpers.md R183). -/
theorem palEncode_header {p count : Nat} {s : State} (hr : p + 4 ≤ s.imemSize)
    (hc : count = (Memory.read s.imem p).toNat + 256 * (Memory.read s.imem (p + 1)).toNat) :
    ∃ hdr, memRead p 4 s = some hdr ∧ natField hdr 0 16 = count := by
  obtain ⟨hdr, hhdr⟩ := memRead_of_le hr
  exact ⟨hdr, hhdr, hc ▸ memRead_u16 (fun _ => rfl) hhdr (k := 0) (by decide)⟩

/-- `PalEncode` as its checks in their order, on the bytes of IMEM (40_helpers.md R183, R184). -/
theorem palEncode_eq {p count : Nat} {s : State}
    (hc : count = (Memory.read s.imem p).toNat + 256 * (Memory.read s.imem (p + 1)).toNat) :
    palEncode p s =
      if s.imemSize < p + 4 then .fail .imemRange
      else if count = 0 then .fail .paletteEmpty
      else if 256 < count then .fail .paletteTooLarge
      else if s.imemSize < p + 4 + 4 * count then .fail .imemRange
      else .table (bitWidth count) (rgbTable (2 ^ bitWidth count)
        ((List.range (4 * count)).map fun i => Memory.read s.imem (p + 4 + i))) := by
  have hwidth : 8 < bitWidth count ↔ 256 < count := by
    have hlo := (Memory.read s.imem p).isLt
    have hhi := (Memory.read s.imem (p + 1)).isLt
    have := bitWidth_le_iff (n := count) (j := 8) (by omega) (by decide)
    omega
  by_cases hr : s.imemSize < p + 4
  · rw [palEncode, memRead_eq_none.2 hr, if_pos hr]
  · obtain ⟨hdr, hhdr, rfl⟩ := palEncode_header (Nat.not_lt.1 hr) hc
    simp only [palEncode, hhdr, hr, hwidth, if_false]
    by_cases he : s.imemSize < p + 4 + 4 * natField hdr 0 16
    · rw [memBytes_eq_none.2 he, if_pos he]
    · rw [memBytes, if_pos (Nat.not_lt.1 he), if_neg he]

/-- The failures of `PalEncode` in their order (40_helpers.md R184). -/
theorem palEncode_eq_fail {p count : Nat} {s : State} {k : FailKind}
    (hc : count = (Memory.read s.imem p).toNat + 256 * (Memory.read s.imem (p + 1)).toNat) :
    palEncode p s = .fail k ↔
      (if s.imemSize < p + 4 then some FailKind.imemRange
        else if count = 0 then some .paletteEmpty
        else if 256 < count then some .paletteTooLarge
        else if s.imemSize < p + 4 + 4 * count then some .imemRange
        else none) = some k := by
  rw [palEncode_eq hc]
  repeat' split
  all_goals simp only [PalResult.fail.injEq, Option.some.injEq, reduceCtorEq]

/-- `PalEncode` fails in no other way (40_helpers.md R183). -/
theorem palEncode_fail_kind {p : Nat} {s : State} {k : FailKind} (h : palEncode p s = .fail k) :
    k = .imemRange ∨ k = .paletteEmpty ∨ k = .paletteTooLarge := by
  have h := (palEncode_eq_fail rfl).1 h
  split at h
  · cases h; exact .inl rfl
  · split at h
    · cases h; exact .inr (.inl rfl)
    · split at h
      · cases h; exact .inr (.inr rfl)
      · split at h
        · cases h; exact .inl rfl
        · cases h

/-! ### The table -/

/-- One entry of the table is taken off four bytes of whole palette entries, or off none
(40_helpers.md R183). -/
theorem rgbTable_succ (n : Nat) {count : Nat} {bs : List Byte} (hl : bs.length = 4 * count) :
    rgbTable (n + 1) bs =
      bs.getD 0 0 :: bs.getD 1 0 :: bs.getD 2 0 :: rgbTable n (bs.drop 4) := by
  match bs with
  | [] | _ :: _ :: _ :: _ :: _ => rfl
  | [_] | [_, _] | [_, _, _] => simp only [List.length_cons, List.length_nil] at hl; omega

/-- Byte `c` of table entry `j` is byte `c` of palette entry `j`; entries that are not there are
zero (40_helpers.md R185). -/
theorem rgbTable_getD {n count : Nat} {bs : List Byte} (hl : bs.length = 4 * count)
    (hn : count ≤ n) (j : Nat) {c : Nat} (hc : c < 3) :
    (rgbTable n bs).getD (3 * j + c) 0 = bs.getD (4 * j + c) 0 := by
  induction n generalizing count bs j with
  | zero =>
    obtain rfl : bs = [] := List.length_eq_zero_iff.1 (by omega)
    rfl
  | succ n ih =>
    rw [rgbTable_succ n hl]
    match j, c, hc with
    | 0, 0, _ | 0, 1, _ | 0, 2, _ => rfl
    | j + 1, c, _ =>
      have rest := ih (count := count - 1) (bs := bs.drop 4) (by rw [List.length_drop]; omega)
        (by omega) j
      rw [show 3 * (j + 1) + c = 3 * j + c + 1 + 1 + 1 by omega, List.getD_cons_succ,
        List.getD_cons_succ, List.getD_cons_succ, rest, List.getD_eq_getElem?_getD,
        List.getElem?_drop, show 4 + (4 * j + c) = 4 * (j + 1) + c by omega,
        List.getD_eq_getElem?_getD]

/-- A palette of 1..256 colours in range encodes, to the R, G, B bytes of its entries and zeros
beyond (40_helpers.md R183, R185). -/
theorem palEncode_colours {p count : Nat} {s : State} (hr : p + 4 + 4 * count ≤ s.imemSize)
    (hc : count = (Memory.read s.imem p).toNat + 256 * (Memory.read s.imem (p + 1)).toNat)
    (h1 : 1 ≤ count) (h256 : count ≤ 256) :
    ∃ bytes, palEncode p s = .table (bitWidth count) bytes ∧
      ∀ j c, c < 3 → bytes.getD (3 * j + c) 0 =
        if j < count then Memory.read s.imem (p + 4 + 4 * j + c) else 0 := by
  have hpal := palEncode_eq hc
  rw [if_neg (by omega), if_neg (by omega), if_neg (by omega), if_neg (by omega)] at hpal
  have hfit := (bitWidth_le_iff (by omega) (bitWidth_pos count)).1 (Nat.le_refl _)
  refine ⟨_, hpal, fun j c hlt => ?_⟩
  rw [rgbTable_getD (by rw [List.length_map, List.length_range]) hfit j hlt,
    List.getD_eq_getElem?_getD, List.getElem?_map, Nat.add_assoc (p + 4)]
  by_cases hj : j < count
  · rw [if_pos hj, List.getElem?_range (by omega), Option.map_some, Option.getD_some]
  · rw [if_neg hj, List.getElem?_eq_none (by rw [List.length_range]; omega), Option.map_none,
      Option.getD_none]

/-! ### PAL_ENCODE -/

/-- The GCT RAM reads as the loaded table, and as zero past its end (40_helpers.md R186). -/
theorem gctLoad_ram_getD (bits : Nat) (bytes : List Byte) (s : State) (i : Nat) :
    (gctLoad (.table bits bytes) s).gct.ram.getD i 0 = bytes.getD i 0 := by
  rw [gctLoad_table_gct_ram, List.getD_eq_getElem?_getD, List.getD_eq_getElem?_getD]
  rcases Nat.lt_or_ge i bytes.length with h | h
  · rw [List.getElem?_append_left h]
  · rw [List.getElem?_append_right h, List.getElem?_eq_none h, List.getElem?_replicate]
    split <;> rfl

/-- PAL_ENCODE with a palette that encodes (40_helpers.md R187). -/
theorem exec_palEncode_table {s : State} {bits : Nat} {bytes : List Byte}
    (h : palEncode s.argA s = .table bits bytes) :
    exec .palEncode s = .next ((gctLoad (.table bits bytes) s).complete none
      (BitVec.ofNat 32 bits) (BitVec.ofNat 32 (3 * 2 ^ bits))) := by
  obtain ⟨-, -, hl⟩ := palEncode_table h
  simp only [exec, execPalEncode, h, hl]

/-- PAL_ENCODE with a palette that does not (40_helpers.md R186, R187). -/
theorem exec_palEncode_fail {s : State} {k : FailKind} (h : palEncode s.argA s = .fail k) :
    exec .palEncode s =
      .next ((gctLoad (.fail k) s).complete (some (.plain k)) 0 0) := by
  simp only [exec, execPalEncode, h]

/-- Settles O28: no check fails, so the table is loaded, and its bytes are those of the entries. -/
theorem palEncodeLoadsTable : Obligations.PalEncodeLoadsTable := by
  intro s count _ hc h1 h256 hr
  obtain ⟨bytes, hpal, colours⟩ := palEncode_colours hr hc h1 h256
  obtain ⟨hpos, hle, -⟩ := palEncode_table hpal
  have fits := fun j => bitWidth_le_iff (n := count) (j := j) (by omega)
  refine ⟨(gctLoad (.table (bitWidth count) bytes) s).gct, exec_palEncode_table hpal, rfl, hpos,
    hle, (fits _ hpos).1 (Nat.le_refl _), fun j hj hn => (fits j hj).2 hn, ?_, fun j c hlt => ?_⟩
  · exact hpal ▸ (gctLoad_sound s.argA s s).1
  · rw [gctLoad_ram_getD, colours j c hlt]

/-- Settles O29: the failures are those of the encoder, and any failure clears the GCT. -/
theorem palEncodeFailures : Obligations.PalEncodeFailures :=
  fun _ _ _ hc h => exec_palEncode_fail ((palEncode_eq_fail hc).2 h)

/-! ### The palette check -/

/-- The check of a palette that encodes compares the tables (40_helpers.md R188). -/
theorem checkPalette_table {p bits : Nat} {s : State} {bytes : List Byte}
    (h : palEncode p s = .table bits bytes) :
    checkPalette p s = if bytes.length = 3 * 2 ^ s.gct.bits ∧ bytes = s.gctTable then .ok s
      else .fail (.plain .differentPalettes) s := by
  by_cases same : bytes.length = 3 * 2 ^ s.gct.bits ∧ bytes = s.gctTable
  · simp only [checkPalette, palMismatch, h, if_pos same]
  · simp only [checkPalette, palMismatch, h, if_neg same]

/-- The check of a palette that does not encode (40_helpers.md R188). -/
theorem checkPalette_fail {p : Nat} {s : State} {k : FailKind} (h : palEncode p s = .fail k) :
    checkPalette p s =
      .fail (.plain (if k = .imemRange then .imemRange else .differentPalettes)) s := by
  simp only [checkPalette, palMismatch, h]
  cases k <;> rfl

/-- Settles O30: a table is compared, a failure is passed on or taken as a difference. -/
theorem paletteCheck : Obligations.PaletteCheck := by
  intro p s
  refine ⟨fun bits bytes h => ⟨fun same => ?_, fun differ => ?_⟩,
    fun k h => checkPalette_fail h, fun k h => palEncode_fail_kind h⟩
  · exact (checkPalette_table h).trans (if_pos same.symm)
  · exact (checkPalette_table h).trans (if_neg fun same => differ same.symm)

end Sys2Proof.Machine
end


section
/-!
SUPPORT. The sub-block writer: its loop as whole units of 255 bytes and a rest, what SBW_APPEND
and SBW_CLOSE answer, and the sub-blocks a writer leaves from opening to closing
(41_subblock_writer.md R200–R212).
-/

namespace Sys2Proof.Machine

/-! ### Counts in RES0 -/

theorem countWord_of_lt {n : Nat} (h : n < 2 ^ 32) : countWord n = BitVec.ofNat 32 n := if_pos h

theorem countWord_toNat {n : Nat} (h : n < 2 ^ 32) : (countWord n).toNat = n := by
  rw [countWord_of_lt h, BitVec.toNat_ofNat, Nat.mod_eq_of_lt h]

/-! ### From opening to closing -/

theorem sbwPutAll_handed {bs : List Byte} {s t : State} (h : sbwPutAll bs s = .ok t) :
    Handed s bs t := by
  induction bs generalizing s with
  | nil => cases h; exact .nothing rfl rfl rfl
  | cons b bs ih =>
    obtain ⟨m, hb, hbs⟩ := Ret.andThen_eq_ok.1 h
    exact (sbwPut_handed hb).trans (ih hbs)

/-- An append succeeds exactly when its loop does, from a WRITABLE writer
(41_subblock_writer.md R209). -/
theorem sbwAppendBytes_eq_ok {bs : List Byte} {s t : State} :
    (sbwAppendBytes bs s).2 = .ok t ↔ sbwCheck s = none ∧ sbwPutAll bs s = .ok t := by
  cases hc : sbwCheck s with
  | some f => simp [sbwAppendBytes_rejected hc]
  | none =>
    rw [sbwAppendBytes_loop hc]
    cases sbwPutAll bs s <;> simp [Ret.leaving]

theorem sbwAppendEach_handed {pieces : List (List Byte)} {s t : State}
    (h : sbwAppendEach pieces s = .ok t) : Handed s pieces.flatten t := by
  induction pieces generalizing s with
  | nil => cases h; exact .nothing rfl rfl rfl
  | cons p ps ih =>
    obtain ⟨m, hp, hps⟩ := Ret.andThen_eq_ok.1 h
    exact (sbwPutAll_handed (sbwAppendBytes_eq_ok.1 hp).2).trans (ih hps)

/-- A close that succeeds had its transaction taken whole (41_subblock_writer.md R207). -/
theorem sbwClose_ok {s t : State} (h : sbwClose s = .ok t) : t = { s with
    sbw := { st := .closed, data := [] }
    sink := s.sink.record (closeBytes s) ((closeBytes s).length, none)
    seq.accepted := s.seq.accepted + (closeBytes s).length } := by
  unfold sbwClose at h
  split at h
  · cases h
  · obtain ⟨m, hm, ht⟩ := Ret.andThen_eq_ok.1 h
    cases ht
    rw [sbwSinkWrite_ok hm]

/-- Whatever the sink: bytes handed to an empty writer whose close succeeds went out as their
sub-blocks (30_encoding.md R158, 41_subblock_writer.md R212). -/
theorem Handed.stream_of_close {s t u : State} {bs : List Byte} (h : Handed s bs t)
    (hs : s.sbw.data = []) (hu : sbwClose t = .ok u) : u.stream = s.stream ++ subBlocks bs := by
  obtain ⟨us, hlen, htxs, hdata, -⟩ := h.units
  have hlow : t.sbw.data.length ≤ 254 := h.low (by simp [hs])
  have hunits : t.stream = s.stream ++ us.flatMap (255 :: ·) := by
    rw [State.stream, htxs, streamOf_append, streamOf_units hlen]
    rfl
  rw [hs, List.nil_append] at hdata
  rw [sbwClose_ok hu, State.stream, streamOf_record, List.take_length, closeBytes_eq,
    ← State.stream, hunits, List.append_assoc, ← hdata, subBlocks_units hlen hlow]

/-- Settles O39: the pieces hand over their bytes in order, as one append of all of them would. -/
theorem sbwFraming : Obligations.SbwFraming := fun s _ _ _ ht hu =>
  (sbwAppendEach_handed ht).stream_of_close (sbwOpen_sbw_data s) hu

/-! ### States of the loop -/

/-- The state with these bytes buffered in the writer. -/
def State.buffering (s : State) (bs : List Byte) : State := { s with sbw.data := bs }

/-- The state with this sink, `n` more bytes counted as accepted (20_memory.md R90). -/
def State.sent (s : State) (k : Sink) (n : Nat) : State :=
  { s with sink := k, seq.accepted := s.seq.accepted + n }

@[simp] theorem buffering_sbw_st (s : State) (bs : List Byte) :
    (s.buffering bs).sbw.st = s.sbw.st := rfl
@[simp] theorem buffering_sbw_data (s : State) (bs : List Byte) :
    (s.buffering bs).sbw.data = bs := rfl
@[simp] theorem buffering_sink (s : State) (bs : List Byte) :
    (s.buffering bs).sink = s.sink := rfl
@[simp] theorem buffering_buffering (s : State) (xs ys : List Byte) :
    (s.buffering xs).buffering ys = s.buffering ys := rfl
@[simp] theorem buffering_self (s : State) : s.buffering s.sbw.data = s := rfl
@[simp] theorem sent_sbw (s : State) (k : Sink) (n : Nat) : (s.sent k n).sbw = s.sbw := rfl
@[simp] theorem sent_sink (s : State) (k : Sink) (n : Nat) : (s.sent k n).sink = k := rfl
@[simp] theorem sent_sent (s : State) (k k' : Sink) (m n : Nat) :
    (s.sent k m).sent k' n = s.sent k' (m + n) := by
  simp only [State.sent, Nat.add_assoc]
@[simp] theorem sent_buffering (s : State) (k : Sink) (n : Nat) (bs : List Byte) :
    (s.sent k n).buffering bs = (s.buffering bs).sent k n := rfl

/-- A transaction of the writer that the sink takes whole. -/
theorem sbwSinkWrite_whole {bs : List Byte} {s : State}
    (h : s.sink.answer bs.length = (bs.length, none)) :
    sbwSinkWrite bs s = .ok (s.sent (s.sink.record bs (bs.length, none)) bs.length) := by
  rw [sbwSinkWrite_eq, sinkWrite_whole h]
  rfl

/-- A transaction of the writer that the sink answers with an error or cuts short: the failure is
stored (41_subblock_writer.md R201). -/
theorem sbwSinkWrite_fails {bs : List Byte} {s : State} {n : Nat} {e : Option Byte}
    (h : s.sink.answer bs.length = (n, e)) (hf : e ≠ none ∨ n < bs.length) :
    sbwSinkWrite bs s = .fail (answerFailure e) { s.sent (s.sink.record bs (n, e)) n with
      sbw.st := .failed (answerFailure e) } := by
  rw [sbwSinkWrite_eq, sinkWrite_fails h hf]
  rfl

/-! ### The loop, unit by unit -/

theorem sbwPutAll_append (xs ys : List Byte) (s : State) :
    sbwPutAll (xs ++ ys) s = (sbwPutAll xs s).andThen (sbwPutAll ys) := by
  induction xs generalizing s with
  | nil => rfl
  | cons x xs ih =>
    rw [List.cons_append, sbwPutAll, sbwPutAll, Ret.andThen_assoc]
    exact congrArg _ (funext ih)

/-- SbwPut of a WRITABLE writer: the byte is buffered, and the byte that fills the working area
flushes it (41_subblock_writer.md R204). -/
theorem sbwPut_writable {s : State} (hw : s.sbw.st = .writable) (b : Byte) :
    sbwPut b s = if s.sbw.data.length = 254 then sbwFlushFull (s.buffering (s.sbw.data ++ [b]))
      else .ok (s.buffering (s.sbw.data ++ [b])) := by
  have hfull : (s.sbw.data ++ [b]).length = 255 ↔ s.sbw.data.length = 254 := by
    rw [List.length_append, List.length_singleton, Nat.succ_inj]
  simp only [sbwPut, sbwCheck_none.2 hw, hfull, State.buffering]

/-- Bytes that do not fill the working area are buffered in order. -/
theorem sbwPutAll_buffers {bs : List Byte} {s : State} (hw : s.sbw.st = .writable)
    (hl : s.sbw.data.length + bs.length ≤ 254) :
    sbwPutAll bs s = .ok (s.buffering (s.sbw.data ++ bs)) := by
  induction bs generalizing s with
  | nil => rw [List.append_nil]; rfl
  | cons b bs ih =>
    rw [List.length_cons] at hl
    rw [sbwPutAll, sbwPut_writable hw, if_neg (by omega), Ret.andThen_ok,
      ih (s := s.buffering (s.sbw.data ++ [b])) hw (by simp; omega), buffering_sbw_data,
      buffering_buffering, List.append_assoc, List.singleton_append]

/-- What is buffered could as well come first: buffered bytes and bytes to come are treated
alike (41_subblock_writer.md R204). -/
theorem sbwPutAll_rebuffer {s : State} (hw : s.sbw.st = .writable)
    (hl : s.sbw.data.length ≤ 254) (bs : List Byte) :
    sbwPutAll bs s = sbwPutAll (s.sbw.data ++ bs) (s.buffering []) := by
  have hput : sbwPutAll s.sbw.data (s.buffering []) = .ok s :=
    sbwPutAll_buffers (s := s.buffering []) hw (by simpa using hl)
  rw [sbwPutAll_append, hput, Ret.andThen_ok]

/-- 255 bytes put into an empty writer are one transaction of 255 and those bytes
(41_subblock_writer.md R206). -/
theorem sbwPutAll_unit {s : State} (hw : s.sbw.st = .writable) (hd : s.sbw.data = [])
    {unit : List Byte} (hu : unit.length = 255) :
    sbwPutAll unit s = (sbwSinkWrite (255 :: unit) (s.buffering unit)).andThen
      fun t => .ok (t.buffering []) := by
  have hne : unit ≠ [] := List.ne_nil_of_length_pos (by omega)
  obtain ⟨xs, b, rfl⟩ : ∃ xs b, unit = xs ++ [b] :=
    ⟨_, _, (List.dropLast_concat_getLast hne).symm⟩
  have hxs : xs.length = 254 := by simpa using hu
  have hbyte : (s.buffering (xs ++ [b])).fillByte = 255 := by
    rw [State.fillByte, buffering_sbw_data, hu]
    rfl
  have hput : sbwPutAll [b] (s.buffering xs) = sbwFlushFull (s.buffering (xs ++ [b])) := by
    rw [sbwPutAll, sbwPut_writable (s := s.buffering xs) hw, buffering_sbw_data,
      buffering_buffering, if_pos hxs]
    cases sbwFlushFull (s.buffering (xs ++ [b])) <;> rfl
  rw [sbwPutAll_append, sbwPutAll_buffers hw (by simp [hd, hxs]), Ret.andThen_ok, hd,
    List.nil_append, hput, sbwFlushFull, hbyte]
  rfl

/-- Units that the sink takes whole leave the writer empty, before the rest. -/
theorem sbwPutAll_units {us : List (List Byte)} (hu : ∀ u ∈ us, u.length = 255) {s : State}
    {k : Sink} (hw : s.sbw.st = .writable) (hd : s.sbw.data = [])
    (hk : s.sink.takes (us.map (255 :: ·)) = some k) (rest : List Byte) :
    sbwPutAll (us.flatten ++ rest) s = sbwPutAll rest (s.sent k (256 * us.length)) := by
  induction us generalizing s with
  | nil => cases hk; rfl
  | cons u us ih =>
    obtain ⟨whole, others⟩ := Sink.takes_cons.1 hk
    have hlen : (255 :: u).length = 256 := congrArg Nat.succ (hu u (by simp))
    have first : sbwPutAll u s =
        .ok (s.sent (s.sink.record (255 :: u) ((255 :: u).length, none)) 256) := by
      rw [sbwPutAll_unit hw hd (hu u (by simp)),
        sbwSinkWrite_whole (s := s.buffering u) whole, Ret.andThen_ok, hlen, sent_buffering,
        buffering_buffering, ← hd, buffering_self, buffering_sink]
    rw [List.flatten_cons, List.append_assoc, sbwPutAll_append, first, Ret.andThen_ok,
      ih (fun w hw' => hu w (by simp [hw'])) (by simpa using hw) (by simpa using hd) others,
      sent_sent, List.length_cons, Nat.mul_succ, Nat.add_comm]

/-- A unit that the sink does not take whole ends the loop: the writer is FAILED with its bytes
buffered, and what follows is not put (41_subblock_writer.md R201, R209). -/
theorem sbwPutAll_unit_fails {s : State} (hw : s.sbw.st = .writable) (hd : s.sbw.data = [])
    {unit : List Byte} (hu : unit.length = 255) {n : Nat} {e : Option Byte}
    (ha : s.sink.answer (255 :: unit).length = (n, e))
    (hf : e ≠ none ∨ n < (255 :: unit).length) (rest : List Byte) :
    sbwPutAll (unit ++ rest) s = .fail (answerFailure e)
      { s.sent (s.sink.record (255 :: unit) (n, e)) n with
        sbw := { st := .failed (answerFailure e), data := unit } } := by
  rw [sbwPutAll_append, sbwPutAll_unit hw hd hu, sbwSinkWrite_fails (s := s.buffering unit) ha hf]
  rfl

/-! ### Bytes cut into units -/

/-- The data of the first `j` units of these bytes. -/
def unitData (j : Nat) (bs : List Byte) : List (List Byte) :=
  (List.range j).map fun i => (bs.drop (255 * i)).take 255

theorem unitData_length_eq {bs : List Byte} {j : Nat} (hj : j ≤ bs.length / 255) :
    ∀ u ∈ unitData j bs, u.length = 255 := by
  intro u hu
  obtain ⟨i, hi, rfl⟩ := List.mem_map.1 hu
  have := List.mem_range.1 hi
  rw [List.length_take, List.length_drop]
  omega

theorem unitData_flatten (j : Nat) (bs : List Byte) :
    (unitData j bs).flatten = bs.take (255 * j) := by
  induction j with
  | zero => rfl
  | succ j ih =>
    rw [unitData, List.range_succ, List.map_append, List.flatten_append, ← unitData, ih,
      List.map_singleton, List.flatten_singleton, ← List.take_add, Nat.mul_succ]

theorem fullUnits_take {bs : List Byte} {j : Nat} (hj : j ≤ bs.length / 255) :
    (fullUnits bs).take j = (unitData j bs).map (255 :: ·) := by
  rw [fullUnits, unitData, ← List.map_take, List.take_range, Nat.min_eq_left hj, List.map_map]
  rfl

theorem fullUnits_getElem? {bs unit : List Byte} {j : Nat} :
    (fullUnits bs)[j]? = some unit ↔
      j < bs.length / 255 ∧ unit = 255 :: (bs.drop (255 * j)).take 255 := by
  rw [fullUnits, List.getElem?_eq_some_iff]
  simp [eq_comm]

/-- The loop once the sink has taken the first `j` full units of the buffered bytes and those to
come whole: only what follows them is left (41_subblock_writer.md R204, R206). -/
theorem sbwPutAll_afterUnits {s : State} {bs all : List Byte} {j : Nat} {k : Sink}
    (hw : s.sbw.st = .writable) (hl : s.sbw.data.length ≤ 254) (hall : all = s.sbw.data ++ bs)
    (hj : j ≤ all.length / 255) (hk : s.sink.takes ((fullUnits all).take j) = some k) :
    sbwPutAll bs s = sbwPutAll (all.drop (255 * j)) ((s.buffering []).sent k (256 * j)) := by
  have hcut : (unitData j all).flatten ++ all.drop (255 * j) = s.sbw.data ++ bs := by
    rw [unitData_flatten, List.take_append_drop, hall]
  rw [sbwPutAll_rebuffer hw hl, ← hcut,
    sbwPutAll_units (s := s.buffering []) (unitData_length_eq hj) hw rfl (fullUnits_take hj ▸ hk)]
  simp only [unitData, List.length_map, List.length_range]

/-- An accepting sink that has taken the full units (41_subblock_writer.md R206). -/
theorem Sink.takes_fullUnits {k k' : Sink} {bs : List Byte} (ha : k.accepting)
    (h : k.takes (fullUnits bs) = some k') :
    k' = { k with txs := k.txs ++ (List.range (bs.length / 255)).map fun j =>
      { offered := 255 :: (bs.drop (255 * j)).take 255, taken := 256, err := none } } := by
  obtain ⟨htxs, hscript, honward⟩ := Sink.takes_sink h
  have hunits : (fullUnits bs).map (fun u => Tx.mk u u.length none) =
      (List.range (bs.length / 255)).map fun j =>
        { offered := 255 :: (bs.drop (255 * j)).take 255, taken := 256, err := none } := by
    rw [fullUnits, List.map_map]
    refine List.map_congr_left fun j hj => ?_
    have := List.mem_range.1 hj
    have hlen : ((bs.drop (255 * j)).take 255).length = 255 := by
      rw [List.length_take, List.length_drop]
      omega
    simp only [Function.comp, List.length_cons, hlen]
  rw [ha.1, List.drop_nil, ← ha.1] at hscript
  rw [← hunits, ← htxs, ← hscript, ← honward]

/-! ### SBW_OPEN -/

/-- Settles O31: opening sets the writer alone, and the completion the registers. -/
theorem sbwOpenResult : Obligations.SbwOpenResult := fun _ => rfl

/-! ### SBW_APPEND -/

theorem byteOperand_eq {s : State} (h : s.argA + s.argB ≤ s.imemSize) :
    s.byteOperand = some ((List.range s.argB).map fun i => Memory.read s.imem (s.argA + i)) :=
  if_pos h

theorem byteOperand_length {s : State} {bs : List Byte} (h : s.byteOperand = some bs) :
    bs.length = s.argB := memBytes_length h

/-- SBW_APPEND of an operand in range is the completion of SbwAppendBytes
(41_subblock_writer.md R205). -/
theorem exec_sbwAppend {s : State} {bs : List Byte} (h : s.byteOperand = some bs) :
    exec .sbwAppend s = .next ((sbwAppendBytes bs s).2.state.complete
      (sbwAppendBytes bs s).2.failure (countWord (sbwAppendBytes bs s).1) 0) := by
  simp only [exec, execSbwAppend, h]

theorem exec_sbwAppend_outOfRange {s : State} (h : s.byteOperand = none) :
    exec .sbwAppend s = .next (s.complete (some (.plain .imemRange)) 0 0) := by
  simp only [exec, execSbwAppend, h]

/-- The count of an append is at most the number of its bytes (41_subblock_writer.md R209). -/
theorem sbwAppendBytes_count_le (bs : List Byte) (s : State) :
    (sbwAppendBytes bs s).1 ≤ bs.length := by
  unfold sbwAppendBytes
  split
  · exact Nat.zero_le _
  · split
    · exact Nat.le_refl _
    · exact Nat.le_of_lt_succ (Nat.mod_lt _ (Nat.succ_pos _))

/-- SBW_APPEND whose loop takes every byte (41_subblock_writer.md R205). -/
theorem exec_sbwAppend_ok {s t : State} {bs : List Byte} (h : s.byteOperand = some bs)
    (hw : s.sbw.st = .writable) (ht : sbwPutAll bs s = .ok t) :
    exec .sbwAppend s = .next (t.complete none s.csr.arg1 0) := by
  have hcount : countWord bs.length = s.csr.arg1 := by
    rw [byteOperand_length h, State.argB, countWord_of_lt s.csr.arg1.isLt, BitVec.ofNat_toNat,
      BitVec.setWidth_eq]
  rw [exec_sbwAppend h]
  simp only [sbwAppendBytes, sbwCheck_none.2 hw, ht, Ret.state_ok, Ret.failure_ok, hcount]

/-- SBW_APPEND whose loop fails: some count in RES0, and a draw is taken
(41_subblock_writer.md R205, R209). -/
theorem exec_sbwAppend_fails {s t : State} {bs : List Byte} {f : Failure}
    (h : s.byteOperand = some bs) (hw : s.sbw.st = .writable)
    (ht : sbwPutAll bs s = .fail f t) :
    exec .sbwAppend s =
      .next (t.drawn.complete (some f) (countWord (sbwAppendBytes bs s).1) 0) := by
  rw [exec_sbwAppend h, sbwAppendBytes_loop (sbwCheck_none.2 hw), ht]
  rfl

/-- RES0 after SBW_APPEND, in range of the operand's length (41_subblock_writer.md R209). -/
theorem sbwAppend_countWord_le {s : State} {bs : List Byte} (h : s.byteOperand = some bs) :
    (countWord (sbwAppendBytes bs s).1).toNat ≤ s.csr.arg1.toNat := by
  have hle : (sbwAppendBytes bs s).1 ≤ s.csr.arg1.toNat :=
    Nat.le_trans (sbwAppendBytes_count_le bs s) (Nat.le_of_eq (byteOperand_length h))
  rwa [countWord_toNat (Nat.lt_of_le_of_lt hle s.csr.arg1.isLt)]

/-- An operand in range and a writer that fails the state check: its failure, and no effect
(41_subblock_writer.md R200, R205). -/
theorem exec_sbwAppend_rejected {s : State} (hr : s.argA + s.argB ≤ s.imemSize) {f : Failure}
    (hc : sbwCheck s = some f) : exec .sbwAppend s = .next (s.complete (some f) 0 0) := by
  rw [exec_sbwAppend (byteOperand_eq hr)]
  simp only [sbwAppendBytes, hc]
  rfl

theorem sbwCheck_failed {s : State} {f : Failure} (h : s.sbw.st = .failed f) :
    sbwCheck s = some f := by
  rw [sbwCheck, h]

theorem sbwCheck_closed {s : State} (h : s.sbw.st = .closed) :
    sbwCheck s = some { kind := .alreadyClosed, code := 0 } := by
  rw [sbwCheck, h]
  rfl

/-- Settles O32: no byte of the operand fills the working area. -/
theorem sbwAppendBuffers : Obligations.SbwAppendBuffers := by
  intro s hw hr hl
  rw [exec_sbwAppend_ok (byteOperand_eq hr) hw (sbwPutAll_buffers hw (by simpa using hl)), ← hw]
  rfl

/-- Settles O33: the sink takes every full unit whole, and the rest does not fill the area. -/
theorem sbwAppendFlushesUnits : Obligations.SbwAppendFlushesUnits := by
  intro s all hw hl hacc hr hall
  obtain ⟨k, hk, -⟩ := Sink.takes_accepting hacc (fullUnits all)
  have hwhole : (fullUnits all).take (all.length / 255) = fullUnits all :=
    List.take_of_length_le (by simp [fullUnits])
  have hrest : (all.drop (255 * (all.length / 255))).length ≤ 254 := by
    rw [List.length_drop]
    omega
  have hput := sbwPutAll_afterUnits hw hl hall (Nat.le_refl _) (hwhole.symm ▸ hk)
  rw [sbwPutAll_buffers (s := (s.buffering []).sent k (256 * (all.length / 255))) hw
    (by simpa using hrest)] at hput
  rw [exec_sbwAppend_ok (byteOperand_eq hr) hw hput, Sink.takes_fullUnits hacc hk, ← hw]
  rfl

/-- Settles O34: the range is checked before the writer's state, and both before any byte. -/
theorem sbwAppendRejections : Obligations.SbwAppendRejections := by
  intro s
  refine ⟨fun hr => ?_, fun hr f hf => ?_, fun hr hc => ?_⟩
  · exact exec_sbwAppend_outOfRange (memBytes_eq_none.2 hr)
  · exact exec_sbwAppend_rejected hr (sbwCheck_failed hf)
  · exact exec_sbwAppend_rejected hr (sbwCheck_closed hc)

/-- RES0 and RES1 of any SBW_APPEND (41_subblock_writer.md R205, R209). -/
theorem sbwAppend_results {s t : State} (h : exec .sbwAppend s = .next t) :
    t.csr.res0.toNat ≤ s.csr.arg1.toNat ∧ t.csr.res1 = 0 := by
  cases hop : s.byteOperand with
  | none =>
    rw [exec_sbwAppend_outOfRange hop] at h
    cases h
    exact ⟨Nat.zero_le _, rfl⟩
  | some bs =>
    rw [exec_sbwAppend hop] at h
    cases h
    exact ⟨sbwAppend_countWord_le hop, rfl⟩

/-- Settles O35: the units before the failing one leave the writer empty, so that one is put as
from an empty writer, and nothing after it. -/
theorem sbwAppendFailCount : Obligations.SbwAppendFailCount := by
  refine ⟨fun s t h _ => sbwAppend_results h, fun s all unit j n k e hw hl hr hall hfails => ?_⟩
  obtain ⟨hj, rfl⟩ := fullUnits_getElem?.1 hfails.offer
  have hlen : ((all.drop (255 * j)).take 255).length = 255 := by
    rw [List.length_take, List.length_drop]
    omega
  have hput := sbwPutAll_afterUnits hw hl hall (Nat.le_of_lt hj) hfails.before
  rw [← List.take_append_drop 255 (all.drop (255 * j)),
    sbwPutAll_unit_fails (s := (s.buffering []).sent k (256 * j)) hw rfl hlen hfails.answer
      hfails.fails] at hput
  have hop := byteOperand_eq hr
  refine ⟨_, _, exec_sbwAppend_fails hop hw hput, sbwAppend_countWord_le hop, rfl, hlen, ?_⟩
  exact (streamOf_record k _ (n, e)).trans
    (congrArg (· ++ _) (Sink.takes_stream hfails.before))

/-! ### SBW_CLOSE -/

theorem closeBytes_length_lt {s : State} (h : s.sbw.data.length ≤ 254) :
    (closeBytes s).length < 2 ^ 32 := by
  unfold closeBytes
  split
  · simp only [List.length_cons, List.length_append, List.length_nil]
    omega
  · decide

/-- A close whose transaction the sink does not take whole (41_subblock_writer.md R201, R207). -/
theorem sbwClose_fails {s : State} (hw : s.sbw.st = .writable) {n : Nat} {e : Option Byte}
    (ha : s.sink.answer (closeBytes s).length = (n, e))
    (hf : e ≠ none ∨ n < (closeBytes s).length) :
    sbwClose s = .fail (answerFailure e) { s.sent (s.sink.record (closeBytes s) (n, e)) n with
      sbw.st := .failed (answerFailure e) } := by
  simp only [sbwClose, sbwCheck_none.2 hw, sbwSinkWrite_fails ha hf, Ret.andThen_fail]

/-- SBW_CLOSE is the completion of SbwClose with the bytes it sent counted from 0
(41_subblock_writer.md R208). -/
theorem exec_sbwClose {s : State} {r : Ret} (h : sbwClose { s with seq.accepted := 0 } = r) :
    exec .sbwClose s =
      .next (r.state.complete r.failure (countWord r.state.seq.accepted) 0) := by
  subst h
  rfl

/-- A writer that fails the state check: its failure, and no effect
(41_subblock_writer.md R200, R208). -/
theorem exec_sbwClose_rejected {s : State} {f : Failure} (hc : sbwCheck s = some f) :
    exec .sbwClose s = .next (s.complete (some f) 0 0) := by
  have hc0 : sbwCheck { s with seq.accepted := 0 } = some f := hc
  refine exec_sbwClose (r := .fail f { s with seq.accepted := 0 }) ?_
  simp only [sbwClose, hc0]

/-- Settles O36: the transaction of the close is taken whole. -/
theorem sbwCloseResult : Obligations.SbwCloseResult := by
  intro s out hw hl hacc hout
  have hclose : closeBytes s = out := by rw [closeBytes_eq, closingBlock, hout]
  have hcount : countWord (0 + out.length) = BitVec.ofNat 32 out.length := by
    rw [Nat.zero_add, countWord_of_lt (hclose ▸ closeBytes_length_lt hl)]
  have hsink : s.sink.record out (out.length, none) = { s.sink with
      txs := s.sink.txs ++ [{ offered := out, taken := out.length, err := none }] } := by
    rw [Sink.record, hacc.1, List.tail_nil, ← hacc.1]
  rw [exec_sbwClose (sbwClose_ready (s := { s with seq.accepted := 0 }) ⟨hw, hacc⟩),
    ← hcount, ← hsink, ← hclose]
  rfl

/-- Settles O37: the failure of the transaction is stored, and its count is what was taken. -/
theorem sbwCloseSinkFailure : Obligations.SbwCloseSinkFailure := by
  intro s k e hw hl ha hf
  have hk : k ≤ (closeBytes s).length := by
    have := s.sink.answer_le (closeBytes s).length
    rwa [ha] at this
  have hcount : countWord (0 + k) = BitVec.ofNat 32 k := by
    rw [Nat.zero_add, countWord_of_lt (Nat.lt_of_le_of_lt hk (closeBytes_length_lt hl))]
  have hexec := exec_sbwClose (sbwClose_fails (s := { s with seq.accepted := 0 }) hw ha hf)
  refine ⟨_, answerFailure e, hexec, ?_, rfl, rfl, rfl, hcount, rfl, ?_⟩
  · cases e <;> rfl
  · exact streamOf_record s.sink (closeBytes s) (k, e)

/-- Settles O38: the state check comes before the transaction. -/
theorem sbwCloseRejections : Obligations.SbwCloseRejections := fun _ =>
  ⟨fun _ hf => exec_sbwClose_rejected (sbwCheck_failed hf),
    fun hc => exec_sbwClose_rejected (sbwCheck_closed hc)⟩

end Sys2Proof.Machine
end

section
/-!
SUPPORT. LzwWrite of bytes in one piece or in several: the saved code of the start is looked at by
LzwWrite alone, and its loop only overwrites it, so that the loop goes on where a write before
stopped (42_lzw.md R237, R248).
-/

namespace Sys2Proof.Machine

/-! ### The saved code while codes go out -/

/-- The state with this saved code in the LZW unit. -/
def State.saving (s : State) (o : Option Code) : State := { s with lzw.saved := o }

/-- What a procedure gives from a state, and what it gives from the same state with another saved
code: that code goes through a failure as it is, and changes the state after a success by `g`
alone. -/
def SavedApart (g : Option Code → State → State) (o : Option Code) (r r' : Ret) : Prop :=
  r' = r.leaving (g o) fun _ t => t.saving o

/-- `p` does not look at the saved code it starts with. -/
def SavedBlind (g : Option Code → State → State) (p : State → Ret) : Prop :=
  ∀ o s, SavedApart g o (p s) (p (s.saving o))

/-- A saved code that is kept. -/
def savedKept (o : Option Code) (s : State) : State := s.saving o

/-- A saved code that is overwritten. -/
def savedOverwritten (_ : Option Code) (s : State) : State := s

theorem SavedApart.andThen {g : Option Code → State → State} {o : Option Code} {r r' : Ret}
    {next : State → Ret} (h : SavedApart savedKept o r r') (hn : SavedBlind g next) :
    SavedApart g o (r.andThen next) (r'.andThen next) := by
  cases h
  cases r with
  | ok t => exact hn o t
  | fail f t => rfl

/-- A branch on what is not the saved code is taken the same way. -/
theorem SavedApart.ite {g : Option Code → State → State} {o : Option Code} {c : Prop}
    {d d' : Decidable c} {r r' a a' : Ret} (ht : SavedApart g o r r') (hf : SavedApart g o a a') :
    SavedApart g o (@ite _ c d r a) (@ite _ c d' r' a') := by
  by_cases hc : c
  · simpa only [if_pos hc] using ht
  · simpa only [if_neg hc] using hf

theorem sinkWrite_keepsSaved (bs : List Byte) : SavedBlind savedKept (sinkWrite bs) := by
  intro o s
  have hsink : (s.saving o).sink = s.sink := rfl
  unfold sinkWrite
  rw [hsink]
  dsimp only
  split
  · rfl
  · split <;> rfl

theorem sbwSinkWrite_keepsSaved (bs : List Byte) : SavedBlind savedKept (sbwSinkWrite bs) := by
  intro o s
  rw [sbwSinkWrite_eq, sbwSinkWrite_eq, sinkWrite_keepsSaved bs o s]
  cases sinkWrite bs s <;> rfl

theorem sbwFlushFull_keepsSaved : SavedBlind savedKept sbwFlushFull := fun o s =>
  (sbwSinkWrite_keepsSaved (s.fillByte :: s.sbw.data) o s).andThen fun _ _ => rfl

theorem sbwPut_keepsSaved (b : Byte) : SavedBlind savedKept (sbwPut b) := by
  intro o s
  have hcheck : sbwCheck (s.saving o) = sbwCheck s := rfl
  simp only [sbwPut, hcheck]
  split
  · rfl
  · exact .ite (sbwFlushFull_keepsSaved o { s with sbw.data := s.sbw.data ++ [b] }) rfl

theorem lzwPut_keepsSaved (b : Byte) : SavedBlind savedKept (lzwPut b) := by
  intro o s
  rw [lzwPut_eq, lzwPut_eq, sbwPut_keepsSaved b o s]
  cases sbwPut b s <;> rfl

theorem drainBits_keepsSaved (fuel : Nat) : SavedBlind savedKept (drainBits fuel) := by
  induction fuel with
  | zero => exact fun _ _ => rfl
  | succ fuel ih =>
    exact fun o s => .ite
      ((lzwPut_keepsSaved (s.lzw.bitbuf.setWidth 8) o s).andThen fun o t => ih o { t with
        lzw.bitbuf := t.lzw.bitbuf >>> 8, lzw.nbits := t.lzw.nbits - 8 })
      rfl

theorem emitCode_keepsSaved (c : Code) : SavedBlind savedKept (emitCode c) := fun o s =>
  drainBits_keepsSaved (s.lzw.nbits + s.lzw.width) o { s with
    lzw.bitbuf := s.lzw.bitbuf ||| (c.setWidth 32 <<< s.lzw.nbits)
    lzw.nbits := s.lzw.nbits + s.lzw.width }

theorem incHi_savedBlind {g : Option Code → State → State} {full next : State → Ret}
    (hf : SavedBlind g full) (hn : SavedBlind g next) :
    SavedBlind g fun s => (incHi s).andThen full next := by
  intro o s
  simp only [incHi_andThen, tableFull_andThen]
  exact .ite
    ((emitCode_keepsSaved (clearCode s.lzw.lit) o s.nextCode).andThen fun o t => hf o { t with
      lzw.width := t.lzw.lit + 1, lzw.hi := eoiCode t.lzw.lit, lzw.dict := [] })
    (hn o s.nextCode)

/-- The loop of LzwWrite has its match in `code`, and saves the last one (42_lzw.md R237). -/
theorem lzwLoop_overwritesSaved (bs : List Byte) (code : Code) :
    SavedBlind savedOverwritten (lzwLoop bs code) := by
  induction bs generalizing code with
  | nil => exact fun _ _ => rfl
  | cons x xs ih =>
    intro o s
    cases h : dictFind s.lzw.dict code x with
    | some longer =>
      rw [lzwLoop_hit h, lzwLoop_hit (s := s.saving o) h]
      exact ih longer o s
    | none =>
      rw [lzwLoop_miss h, lzwLoop_miss (s := s.saving o) h]
      exact (emitCode_keepsSaved code o s).andThen (incHi_savedBlind (ih _) fun o u => ih _ o
        { u with lzw.dict := { stem := code, byte := x, code := u.lzw.hi } :: u.lzw.dict })

/-- What overwrites the saved code succeeds alike whatever that code was. -/
theorem SavedBlind.ok_of_saving {p : State → Ret} (h : SavedBlind savedOverwritten p)
    {o : Option Code} {s t : State} (ht : p (s.saving o) = .ok t) : p s = .ok t := by
  rw [h o s] at ht
  cases hr : p s <;> rw [hr] at ht <;> cases ht
  rfl

/-! ### Two writes as one -/

/-- What follows IncHi succeeds after OUT_OF_CODES or after OK (42_lzw.md R234). -/
theorem HiRet.andThen_eq_ok {h : HiRet} {full next : State → Ret} {t : State} :
    h.andThen full next = .ok t ↔
      (∃ s, h = .outOfCodes s ∧ full s = .ok t) ∨ ∃ s, h = .ok s ∧ next s = .ok t := by
  cases h <;> simp [HiRet.andThen]

/-- The loop goes on from the code it saved (42_lzw.md R237, R248). -/
theorem lzwLoop_append {xs : List Byte} {code : Code} {s m : State}
    (h : lzwLoop xs code s = .ok m) : ∃ last, m.lzw.saved = some last ∧
      ∀ ys t, lzwLoop ys last m = .ok t → lzwLoop (xs ++ ys) code s = .ok t := by
  induction xs generalizing code s with
  | nil =>
    cases h
    exact ⟨code, rfl, fun ys t ht =>
      (lzwLoop_overwritesSaved ys code).ok_of_saving (o := some code) ht⟩
  | cons x xs ih =>
    cases hd : dictFind s.lzw.dict code x with
    | some longer =>
      rw [lzwLoop_hit hd] at h
      obtain ⟨last, saved, goesOn⟩ := ih h
      refine ⟨last, saved, fun ys t ht => ?_⟩
      rw [List.cons_append, lzwLoop_hit hd]
      exact goesOn ys t ht
    | none =>
      rw [lzwLoop_miss hd] at h
      obtain ⟨e, he, h⟩ := Ret.andThen_eq_ok.1 h
      rcases HiRet.andThen_eq_ok.1 h with ⟨i, hi, h⟩ | ⟨i, hi, h⟩
      · obtain ⟨last, saved, goesOn⟩ := ih h
        refine ⟨last, saved, fun ys t ht => (lzwLoop_miss hd _).trans ?_⟩
        exact Ret.andThen_eq_ok.2 ⟨e, he, HiRet.andThen_eq_ok.2 (.inl ⟨i, hi, goesOn ys t ht⟩)⟩
      · obtain ⟨last, saved, goesOn⟩ := ih h
        refine ⟨last, saved, fun ys t ht => (lzwLoop_miss hd _).trans ?_⟩
        exact Ret.andThen_eq_ok.2 ⟨e, he, HiRet.andThen_eq_ok.2 (.inr ⟨i, hi, goesOn ys t ht⟩)⟩

/-- What a success leaves of the LZW unit depends on that unit alone. -/
theorem Determined.lzw_eq {p : State → Ret} (h : Determined p) {s s' t t' : State}
    (hs : s.lzw = s'.lzw) (ht : p s = .ok t) (ht' : p s' = .ok t') : t.lzw = t'.lzw := by
  obtain ⟨bs, v, hv⟩ := h s.lzw
  exact (hv s t rfl ht).1.trans (hv s' t' hs.symm ht').1.symm

/-- A non-empty write that succeeds was of an OPEN unit, and of literals (42_lzw.md R230,
R238). -/
theorem lzwWrite_ok_literals {bs : List Byte} {s t : State} (h : lzwWrite bs s = .ok t) :
    s.lzw.st = .opened ∧ (bs ≠ [] → literalsFit s.lzw.lit bs = true) := by
  have ho : s.lzw.st = .opened := Decidable.byContradiction fun hst => by
    obtain ⟨f, hf⟩ := lzwWrite_notOpen hst bs
    cases hf.symm.trans h
  refine ⟨ho, fun hne => Decidable.byContradiction fun hfit => ?_⟩
  obtain ⟨b, rest, rfl⟩ := List.exists_cons_of_ne_nil hne
  cases (lzwWrite_unfit ho hfit).symm.trans h

/-- A write that succeeds leaves the unit OPEN, with its literal width (42_lzw.md R237). -/
theorem lzwWrite_ok_opened {bs : List Byte} {s t : State} (h : lzwWrite bs s = .ok t) :
    t.lzw.st = .opened ∧ t.lzw.lit = s.lzw.lit := by
  obtain ⟨ho, fits⟩ := lzwWrite_ok_literals h
  have hfit : literalsFit s.lzw.lit bs = true := by
    by_cases hne : bs = []
    · rw [hne, literalsFit, List.all_nil, Bool.or_true]
    · exact fits hne
  obtain ⟨t', ht', -, opened, lit, -⟩ :=
    lzwWrite_ready (s := sbwOpen s.withAcceptAll) ⟨rfl, rfl, rfl⟩ ho hfit
  have same : s.lzw = (sbwOpen s.withAcceptAll).lzw := rfl
  rw [(lzwWrite_determined bs).lzw_eq same h ht']
  exact ⟨opened, lit⟩

theorem literalsFit_append {lit : Nat} {xs ys : List Byte} (hx : literalsFit lit xs = true)
    (hy : literalsFit lit ys = true) : literalsFit lit (xs ++ ys) = true := by
  simp only [literalsFit, Bool.or_eq_true, List.all_append, Bool.and_eq_true] at *
  exact hx.elim .inl fun hx => hy.elim .inl fun hy => .inr ⟨hx, hy⟩

/-- Two writes that succeed are one write of both (42_lzw.md R248). -/
theorem lzwWrite_append {xs ys : List Byte} {s m t : State} (hm : lzwWrite xs s = .ok m)
    (ht : lzwWrite ys m = .ok t) : lzwWrite (xs ++ ys) s = .ok t := by
  obtain ⟨ho, fitX⟩ := lzwWrite_ok_literals hm
  obtain ⟨ho', fitY⟩ := lzwWrite_ok_literals ht
  obtain ⟨-, lit⟩ := lzwWrite_ok_opened hm
  cases xs with
  | nil =>
    cases (lzwWrite_nil ho).symm.trans hm
    exact ht
  | cons x xs =>
    cases ys with
    | nil =>
      cases (lzwWrite_nil ho').symm.trans ht
      rw [List.append_nil]
      exact hm
    | cons y ys =>
      have hx := fitX (List.cons_ne_nil x xs)
      have hy := fitY (List.cons_ne_nil y ys)
      have hxy := literalsFit_append hx (lit ▸ hy)
      cases hs : s.lzw.saved with
      | none =>
        rw [lzwWrite_first ho hx hs] at hm
        obtain ⟨last, saved, goesOn⟩ := lzwLoop_append hm
        rw [lzwWrite_later ho' hy saved] at ht
        exact (lzwWrite_first ho hxy hs).trans (goesOn _ t ht)
      | some code =>
        rw [lzwWrite_later ho hx hs] at hm
        obtain ⟨last, saved, goesOn⟩ := lzwLoop_append hm
        rw [lzwWrite_later ho' hy saved] at ht
        exact (lzwWrite_later ho hxy hs).trans (goesOn _ t ht)

/-- Writes that succeed in turn are one write of all of them (42_lzw.md R248). -/
theorem lzwWrite_flatten {pieces : List (List Byte)} {s t : State} (ho : s.lzw.st = .opened)
    (h : lzwWriteEach pieces s = .ok t) : lzwWrite pieces.flatten s = .ok t := by
  induction pieces generalizing s with
  | nil => exact (lzwWrite_nil ho).trans h
  | cons p ps ih =>
    obtain ⟨m, hm, ht⟩ := Ret.andThen_eq_ok.1 h
    exact lzwWrite_append hm (ih (lzwWrite_ok_opened hm).1 ht)

/-- Settles O49: writes that succeed in turn are one write, which leaves the same state. -/
theorem lzwSplitIndependence : Obligations.LzwSplitIndependence := by
  intro lit pieces s t _ _ h
  have hall := lzwWrite_flatten (lzwOpen_lzw_st lit s) h
  exact ⟨hall, by rw [hall, h]⟩

end Sys2Proof.Machine
end

section
/-!
SUPPORT. One round of the loop of LzwWrite at a byte the dictionary lacks: the bits it hands over,
the unit it leaves, and that this unit is in a round again (42_lzw.md R234–R237).
-/

namespace Sys2Proof.Machine

/-- What a byte `x` that the dictionary lacks after the match `code` makes of the unit `u`: the
bytes `bs` handed over, and the unit `v` whose match is `x` (42_lzw.md R234–R237). -/
structure Missed (u : Lzw) (code : Code) (x : Byte) (bs : List Byte) (v : Lzw) : Prop where
  round  : LzwRound v (literalCode x)
  next   : u.hi.toNat ≠ 4094 →
    v = { u.nextCode.withEntry code x with bitbuf := v.bitbuf, nbits := v.nbits }
  full   : u.hi.toNat = 4094 → v = { u.freshCodes with bitbuf := v.bitbuf, nbits := v.nbits }
  string : bitsOfBytes bs ++ v.pending = u.pending ++ lowBits u.width code.toNat ++
    if u.hi.toNat = 4094 then lowBits 12 (2 ^ u.lit) else []

/-- A literal is a code in use (30_encoding.md R160). -/
theorem literalCode_le {lit : Nat} {x : Byte} (hx : x.toNat < 2 ^ lit) :
    (literalCode x).toNat ≤ 2 ^ lit + 1 := by
  rw [literalCode_toNat]
  omega

/-- A miss below the full table: the code goes out, and the entry is added (42_lzw.md R235). -/
theorem missed_next {u v : Lzw} {code : Code} {x : Byte} {bs : List Byte} (hr : LzwRound u code)
    (hx : x.toNat < 2 ^ u.lit) (hmiss : dictFind u.dict code x = none)
    (hfull : u.hi.toNat ≠ 4094) (packs : Packs u (lowBits u.width code.toNat) bs v) :
    Missed u code x bs (v.nextCode.withEntry code x) := by
  obtain ⟨below, unit, string⟩ := packs
  have hopen := hr.open
  have hlow : 2 ^ u.lit + 1 ≤ u.hi.toNat := hopen.hiLow
  have hhigh : u.hi.toNat ≤ 4094 := hopen.hiHigh
  have hv : LzwRound v code := by
    rw [unit] at below ⊢
    exact hr.withBits below
  have hhi : v.hi = u.hi := by rw [unit]
  have hlit : v.lit = u.lit := by rw [unit]
  have hdict : v.dict = u.dict := by rw [unit]
  have hnext : v.nextCode.hi.toNat = u.hi.toNat + 1 := by
    rw [nextCode_hi (hhi ▸ hhigh), hhi]
  have hliteral := literalCode_le hx
  refine ⟨(hv.advance (by rw [hhi]; omega) (by rw [hhi]; omega)).insert ?_ ?_ ?_,
    fun _ => ?_, fun h => absurd h hfull, ?_⟩
  · have : 2 ^ v.nextCode.lit + 2 ≤ v.nextCode.hi.toNat := by
      rw [hnext, show v.nextCode.lit = u.lit from hlit]
      omega
    exact this
  · exact hdict.symm ▸ dictFind_none hmiss
  · intro e he
    have hcode : e.code.toNat ≤ u.hi.toNat := (hopen.dictCodes e (hdict ▸ he)).2
    exact Nat.lt_of_le_of_lt hcode (hnext ▸ Nat.lt_succ_self _)
  · rw [unit]
    rfl
  · rw [if_neg hfull, List.append_nil]
    exact string

/-- A miss at the full table: the clear code follows the code, and the code space starts again
(42_lzw.md R236). -/
theorem missed_full {u v w : Lzw} {code : Code} {x : Byte} {xs ys : List Byte}
    (hr : LzwRound u code) (hx : x.toNat < 2 ^ u.lit) (hfull : u.hi.toNat = 4094)
    (packs : Packs u (lowBits u.width code.toNat) xs v)
    (clear : Packs v.nextCode (lowBits 12 (2 ^ u.lit)) ys w) :
    Missed u code x (xs ++ ys) w.freshCodes := by
  obtain ⟨-, unit, string⟩ := packs
  obtain ⟨below, unit', string'⟩ := clear
  have hlit : w.lit = u.lit := by rw [unit', unit]; rfl
  have hst : w.st = .opened := by rw [unit', unit]; exact hr.opened
  refine ⟨⟨hst, ?_⟩, fun h => absurd hfull h, fun _ => ?_, ?_⟩
  · refine .ofFresh hst (hlit ▸ hr.open.litLow) (hlit ▸ hr.sound.litHigh) rfl rfl rfl
      ⟨below.count, below.noStray⟩ fun c hc => ?_
    cases hc
    exact hlit ▸ literalCode_le hx
  · rw [unit', unit]
    rfl
  · have hnext : v.nextCode.pending = v.pending := rfl
    have hfresh : w.freshCodes.pending = w.pending := rfl
    rw [hfresh, bitsOfBytes_append, List.append_assoc, string', hnext, ← List.append_assoc, string,
      if_pos hfull]

/-- The round of a miss, and what the loop does from there (42_lzw.md R237). -/
theorem lzwLoop_missed {u : Lzw} {code : Code} {x : Byte} (hr : LzwRound u code)
    (hx : x.toNat < 2 ^ u.lit) (hmiss : dictFind u.dict code x = none) :
    ∃ bs v, Missed u code x bs v ∧ ∀ {rest ys w},
      Yields (lzwLoop rest (literalCode x)) v ys w →
      Yields (lzwLoop (x :: rest) code) u (bs ++ ys) w := by
  have hhigh : u.hi.toNat ≤ 4094 := hr.open.hiHigh
  obtain ⟨xs, v, hv, packs⟩ := emitCode_yields code u
  have packs := packs hr.bits hr.codeFits
  have hhi : v.hi = u.hi := by rw [packs.unit]
  have hsucc : (v.hi + 1).toNat = u.hi.toNat + 1 := by rw [hhi, toNat_succ hhigh]
  by_cases hfull : u.hi.toNat = 4094
  · obtain ⟨ys, w, hw, clear⟩ := emitCode_yields (clearCode v.lit) v.nextCode
    have hlit : v.lit = u.lit := by rw [packs.unit]
    have hwidth : v.nextCode.width = 12 := nextCode_width_full (hhi ▸ hfull) (by
      rw [packs.unit]
      exact hr.sound.fullWidth hr.opened hfull)
    have hclear : (clearCode v.lit).toNat = 2 ^ u.lit := by
      rw [hlit, clearCode_toNat hr.sound.litHigh]
    have hsmall := pow_lit_le hr.sound.litHigh
    have clear := clear ⟨packs.below.count, packs.below.noStray⟩ (by
      rw [hclear, hwidth]
      exact Nat.lt_of_le_of_lt hsmall (by decide))
    rw [hwidth, hclear] at clear
    refine ⟨xs ++ ys, w.freshCodes, missed_full hr hx hfull packs clear, fun {_ zs _} hz => ?_⟩
    rw [List.append_assoc]
    exact (hv.andThen (incHi_yields_full (by omega) hw hz)).congr fun s hs =>
      lzwLoop_miss (hs ▸ hmiss) _
  · refine ⟨xs, _, missed_next hr hx hmiss hfull packs, fun hz => ?_⟩
    exact (hv.andThen (incHi_yields_next (by omega)
      (hz.afterUpdate (g := (·.withEntry code x))))).congr fun s hs =>
        lzwLoop_miss (hs ▸ hmiss) _

end Sys2Proof.Machine
end

section
/-!
SUPPORT. The GIF decoder beside the encoder: a decoder that has read the codes handed over so far
is in step with the unit, whose match is the string it reads next (42_lzw.md R234–R239, R247).
-/

namespace Sys2Proof.Machine

/-! ### Reading codes -/

theorem lowBits_length (n v : Nat) : (lowBits n v).length = n := by
  induction n generalizing v with
  | zero => rfl
  | succ n ih => rw [lowBits, List.length_cons, ih]

theorem bitsValue_lowBits {n v : Nat} (h : v < 2 ^ n) : bitsValue (lowBits n v) = v := by
  induction n generalizing v with
  | zero => rw [lowBits, bitsValue]; omega
  | succ n ih =>
    rw [lowBits, bitsValue, ih (by rw [Nat.pow_succ] at h; omega)]
    rcases Nat.mod_two_eq_zero_or_one v with h2 | h2 <;> simp [h2] <;> omega

theorem bitsOfBytes_length (bs : List Byte) : (bitsOfBytes bs).length = 8 * bs.length := by
  induction bs with
  | nil => rfl
  | cons b bs ih =>
    rw [bitsOfBytes_cons, List.length_append, lowBits_length, ih, List.length_cons]
    omega

/-- The decoder reads `out` from these bits, up to the end-of-information code, with any fuel that
is not less than the bits (42_lzw.md R247). -/
def Reads (lit : Nat) (d : GifDecoder) (bits : List Bool) (out : List Byte) : Prop :=
  ∀ fuel, bits.length ≤ fuel → gifDecodeBits lit fuel d bits = some out

/-- Reading the bits takes the decoder from `d` to `d'` and gives the bytes `str`. -/
def ReadsTo (lit : Nat) (d : GifDecoder) (bits : List Bool) (str : List Byte) (d' : GifDecoder) :
    Prop :=
  ∀ rest out, Reads lit d' rest out → Reads lit d (bits ++ rest) (str ++ out)

theorem ReadsTo.refl (lit : Nat) (d : GifDecoder) : ReadsTo lit d [] [] d := fun _ _ h => h

theorem ReadsTo.trans {lit : Nat} {d e f : GifDecoder} {bits bits' : List Bool}
    {str str' : List Byte} (h : ReadsTo lit d bits str e) (h' : ReadsTo lit e bits' str' f) :
    ReadsTo lit d (bits ++ bits') (str ++ str') f := by
  intro rest out hr
  rw [List.append_assoc, List.append_assoc]
  exact h _ _ (h' _ _ hr)

/-- One code in the decoder's width, and what follows it (42_lzw.md R247). -/
theorem gifDecodeBits_code {lit c fuel : Nat} {d : GifDecoder} (hc : c < 2 ^ d.width)
    (rest : List Bool) : gifDecodeBits lit (fuel + 1) d (lowBits d.width c ++ rest) =
      if c = 2 ^ lit then gifDecodeBits lit fuel (.fresh lit) rest
      else if c = 2 ^ lit + 1 then some []
      else (d.string lit c).bind fun str =>
        (gifDecodeBits lit fuel (d.accept str) rest).map (str ++ ·) := by
  have hlen : (lowBits d.width c).length = d.width := lowBits_length _ _
  have hlong : ¬(lowBits d.width c ++ rest).length < d.width := by
    rw [List.length_append, hlen]
    omega
  have htake : (lowBits d.width c ++ rest).take d.width = lowBits d.width c :=
    List.take_left' hlen
  have hdrop : (lowBits d.width c ++ rest).drop d.width = rest := List.drop_left' hlen
  simp only [gifDecodeBits, if_neg hlong, htake, hdrop, bitsValue_lowBits hc]
  cases d.string lit c <;> rfl

/-- Fuel for a code and what follows it is fuel for what follows. -/
theorem fuel_of_code {w c fuel : Nat} {rest : List Bool} (hw : 0 < w)
    (h : (lowBits w c ++ rest).length ≤ fuel) : ∃ n, fuel = n + 1 ∧ rest.length ≤ n := by
  rw [List.length_append, lowBits_length] at h
  exact ⟨fuel - 1, by omega, by omega⟩

theorem readsTo_string {lit c : Nat} {d : GifDecoder} {str : List Byte} (hw : 0 < d.width)
    (hc : c < 2 ^ d.width) (hclear : c ≠ 2 ^ lit) (heoi : c ≠ 2 ^ lit + 1)
    (hs : d.string lit c = some str) :
    ReadsTo lit d (lowBits d.width c) str (d.accept str) := by
  intro rest out hr fuel hf
  obtain ⟨n, rfl, hn⟩ := fuel_of_code hw hf
  rw [gifDecodeBits_code hc, if_neg hclear, if_neg heoi, hs, Option.bind_some, hr n hn,
    Option.map_some]

theorem readsTo_clear {lit : Nat} {d : GifDecoder} (hw : 0 < d.width)
    (hc : 2 ^ lit < 2 ^ d.width) : ReadsTo lit d (lowBits d.width (2 ^ lit)) [] (.fresh lit) := by
  intro rest out hr fuel hf
  obtain ⟨n, rfl, hn⟩ := fuel_of_code hw hf
  rw [gifDecodeBits_code hc, if_pos rfl, hr n hn, List.nil_append]

theorem reads_eoi {lit : Nat} {d : GifDecoder} (hw : 0 < d.width)
    (hc : 2 ^ lit + 1 < 2 ^ d.width) (rest : List Bool) :
    Reads lit d (lowBits d.width (2 ^ lit + 1) ++ rest) [] := by
  intro fuel hf
  obtain ⟨n, rfl, -⟩ := fuel_of_code hw hf
  rw [gifDecodeBits_code hc, if_neg (Nat.succ_ne_self _), if_pos rfl]

/-! ### The strings of the codes -/

/-- The string of a code where the entries are these (30_encoding.md R160, R162). -/
def spelling (lit : Nat) (entries : List (List Byte)) (c : Nat) : Option (List Byte) :=
  if c < 2 ^ lit then some [BitVec.ofNat 8 c]
  else if c < 2 ^ lit + 2 then none
  else entries[c - (2 ^ lit + 2)]?

theorem spelling_eq_some {lit c : Nat} {entries : List (List Byte)} {str : List Byte} :
    spelling lit entries c = some str ↔ c < 2 ^ lit ∧ str = [BitVec.ofNat 8 c] ∨
      2 ^ lit + 2 ≤ c ∧ entries[c - (2 ^ lit + 2)]? = some str := by
  rw [spelling]
  by_cases literal : c < 2 ^ lit
  · rw [if_pos literal, Option.some_inj]
    exact ⟨fun h => .inl ⟨literal, h.symm⟩, fun h => h.elim (fun h => h.2.symm) fun h => by omega⟩
  · rw [if_neg literal]
    by_cases control : c < 2 ^ lit + 2
    · rw [if_pos control]
      exact ⟨nofun, fun h => by omega⟩
    · rw [if_neg control]
      exact ⟨fun h => .inr ⟨Nat.not_lt.1 control, h⟩, fun h => (h.resolve_left fun h => by omega).2⟩

theorem spelling_literal {lit : Nat} {x : Byte} (hx : x.toNat < 2 ^ lit)
    (entries : List (List Byte)) : spelling lit entries (literalCode x).toNat = some [x] := by
  rw [literalCode_toNat, spelling, if_pos hx, BitVec.ofNat_toNat, BitVec.setWidth_eq]

/-- A code with a string is neither control code (30_encoding.md R160). -/
theorem spelling_noControl {lit c : Nat} {entries : List (List Byte)} {str : List Byte}
    (h : spelling lit entries c = some str) : c ≠ 2 ^ lit ∧ c ≠ 2 ^ lit + 1 := by
  rcases spelling_eq_some.1 h with ⟨hlt, -⟩ | ⟨hge, -⟩ <;> omega

/-- New entries leave the strings of the codes there are. -/
theorem spelling_append {lit c : Nat} {entries : List (List Byte)} {str : List Byte}
    (h : spelling lit entries c = some str) (new : List (List Byte)) :
    spelling lit (entries ++ new) c = some str := by
  rw [spelling_eq_some] at h ⊢
  refine h.imp_right fun ⟨hge, hentry⟩ => ⟨hge, ?_⟩
  obtain ⟨hlt, -⟩ := List.getElem?_eq_some_iff.1 hentry
  rw [List.getElem?_append_left hlt, hentry]

/-- The string of the entry made last. -/
theorem spelling_last (lit : Nat) (entries : List (List Byte)) (str : List Byte) :
    spelling lit (entries ++ [str]) (2 ^ lit + 2 + entries.length) = some str := by
  refine spelling_eq_some.2 (.inr ⟨Nat.le_add_right _ _, ?_⟩)
  rw [Nat.add_sub_cancel_left, List.getElem?_concat_length]

/-- The decoder knows the strings of literals and of its entries (42_lzw.md R247). -/
theorem string_of_made {lit c : Nat} {d : GifDecoder} {str : List Byte}
    (h : spelling lit d.entries c = some str) : d.string lit c = some str := by
  rw [GifDecoder.string]
  rcases spelling_eq_some.1 h with ⟨hlt, rfl⟩ | ⟨hge, hentry⟩
  · rw [if_pos hlt]
  · rw [if_neg (by omega), if_neg (by omega), hentry]

/-- The entry about to be made is the previous string and its own first byte (42_lzw.md R247). -/
theorem string_of_next {lit : Nat} {d : GifDecoder} {p : List Byte} (hp : d.prev = some p) :
    d.string lit (2 ^ lit + 2 + d.entries.length) = some (p ++ p.take 1) := by
  rw [GifDecoder.string, if_neg (by omega), if_neg (by omega), hp, Nat.add_sub_cancel_left,
    List.getElem?_eq_none (Nat.le_refl _)]
  exact if_pos rfl

theorem accept_entries_first {d : GifDecoder} (hp : d.prev = none) (str : List Byte) :
    (d.accept str).entries = d.entries := by
  rw [GifDecoder.accept, hp]

theorem accept_entries_later {d : GifDecoder} {p : List Byte} (hp : d.prev = some p)
    (str : List Byte) : (d.accept str).entries = d.entries ++ [p ++ str.take 1] := by
  rw [GifDecoder.accept, hp]

/-- The decoder knows the string `cur` of every code that has it among the entries it will have
made once `cur` is read: the code of the entry about to be made included, since that entry begins
with the previous string (42_lzw.md R247). -/
theorem string_of_spelling {lit c : Nat} {d : GifDecoder} {cur : List Byte}
    (hprev : d.prev ≠ some [])
    (h : spelling lit (d.accept cur).entries c = some cur) : d.string lit c = some cur := by
  cases hp : d.prev with
  | none => exact string_of_made (accept_entries_first hp cur ▸ h)
  | some p =>
    obtain ⟨b, bs, rfl⟩ := List.exists_cons_of_ne_nil (fun hnil : p = [] => hprev (hnil ▸ hp))
    rw [accept_entries_later hp, spelling_eq_some] at h
    rcases h with literal | ⟨hge, hentry⟩
    · exact string_of_made (spelling_eq_some.2 (.inl literal))
    · rcases Nat.lt_or_ge (c - (2 ^ lit + 2)) d.entries.length with hlt | hlast
      · rw [List.getElem?_append_left hlt] at hentry
        exact string_of_made (spelling_eq_some.2 (.inr ⟨hge, hentry⟩))
      · obtain ⟨hlen, -⟩ := List.getElem?_eq_some_iff.1 hentry
        rw [List.length_append, List.length_singleton] at hlen
        obtain rfl : c = 2 ^ lit + 2 + d.entries.length := by omega
        rw [Nat.add_sub_cancel_left, List.getElem?_concat_length, Option.some_inj] at hentry
        have first : (b :: bs).take 1 = cur.take 1 := by
          rw [← hentry]
          rfl
        rw [string_of_next hp, first, hentry]

/-! ### In step -/

/-- The decoder has read the codes handed over so far, and `code`, the match of the unit, has the
string `cur`: the counters and widths agree, and the codes of the dictionary are those of the
entries the decoder will have made once it reads `cur` (42_lzw.md R234, R235, R247). -/
structure InStep (u : Lzw) (code : Code) (d : GifDecoder) (cur : List Byte) : Prop where
  hi       : d.hi = u.hi.toNat
  width    : d.width = u.width
  prev     : d.prev ≠ some []
  count    : 2 ^ u.lit + 1 + (d.accept cur).entries.length = u.hi.toNat
  nonempty : cur ≠ []
  current  : spelling u.lit (d.accept cur).entries code.toNat = some cur
  entries  : ∀ e ∈ u.dict, ∃ str,
    spelling u.lit (d.accept cur).entries e.stem.toNat = some str ∧
    spelling u.lit (d.accept cur).entries e.code.toNat = some (str ++ [e.byte])

/-- At the start of a code space, with a literal as the match (42_lzw.md R231, R236). -/
theorem InStep.fresh {u : Lzw} (hl : u.lit ≤ 8) (hw : u.width = u.lit + 1)
    (hh : u.hi = eoiCode u.lit) (hd : u.dict = []) {x : Byte} (hx : x.toNat < 2 ^ u.lit) :
    InStep u (literalCode x) (.fresh u.lit) [x] where
  hi := by rw [hh, eoiCode_toNat hl]; rfl
  width := hw.symm
  prev := nofun
  count := by rw [hh, eoiCode_toNat hl]; rfl
  nonempty := List.cons_ne_nil x []
  current := spelling_literal hx _
  entries e he := by rw [hd] at he; cases he

/-- Pending bits and the saved code are not the decoder's. -/
theorem InStep.congr {u v : Lzw} {code : Code} {d : GifDecoder} {cur : List Byte}
    (h : InStep u code d cur) (hv : v = { u with bitbuf := v.bitbuf, nbits := v.nbits }) :
    InStep v code d cur := by
  rw [hv]
  exact ⟨h.hi, h.width, h.prev, h.count, h.nonempty, h.current, h.entries⟩

/-- A longer match: its string is longer by the byte (42_lzw.md R237). -/
theorem InStep.hit {u : Lzw} {d : GifDecoder} {cur : List Byte} {e : DictEntry}
    (h : InStep u e.stem d cur) (he : e ∈ u.dict) : InStep u e.code d (cur ++ [e.byte]) := by
  have same : (d.accept (cur ++ [e.byte])).entries = (d.accept cur).entries := by
    obtain ⟨b, bs, rfl⟩ := List.exists_cons_of_ne_nil h.nonempty
    rfl
  obtain ⟨str, hstem, hcode⟩ := h.entries e he
  cases hstem.symm.trans h.current
  exact ⟨h.hi, h.width, h.prev, same ▸ h.count, by simp, same ▸ hcode, same ▸ h.entries⟩

/-- The match goes out, and the decoder reads its string. -/
theorem InStep.readsTo {u : Lzw} {code : Code} {d : GifDecoder} {cur : List Byte}
    (h : InStep u code d cur) (hr : LzwRound u code) :
    ReadsTo u.lit d (lowBits u.width code.toNat) cur (d.accept cur) := by
  obtain ⟨hclear, heoi⟩ := spelling_noControl h.current
  have hpos : 0 < u.width := Nat.lt_of_lt_of_le (Nat.succ_pos _) hr.open.widthLow
  rw [← h.width] at hpos ⊢
  exact readsTo_string hpos (h.width ▸ hr.codeFits) hclear heoi
    (string_of_spelling h.prev h.current)

/-- The counter and the width of the decoder once it has read the match are those of the unit with
the next code number (42_lzw.md R234). -/
theorem InStep.accept_next {u : Lzw} {code : Code} {d : GifDecoder} {cur : List Byte}
    (h : InStep u code d cur) (hhigh : u.hi.toNat ≤ 4094) :
    (d.accept cur).hi = u.nextCode.hi.toNat ∧ (d.accept cur).width = u.nextCode.width := by
  rw [nextCode_hi hhigh, nextCode_width hhigh, ← h.hi, ← h.width]
  exact ⟨rfl, rfl⟩

/-- The next match after a miss below the full table: the new entry is the old match and the byte
(42_lzw.md R235). -/
theorem InStep.next {u : Lzw} {code : Code} {d : GifDecoder} {cur : List Byte}
    (h : InStep u code d cur) (hhigh : u.hi.toNat ≤ 4094) {x : Byte} (hx : x.toNat < 2 ^ u.lit) :
    InStep (u.nextCode.withEntry code x) (literalCode x) (d.accept cur) [x] := by
  obtain ⟨hi, width⟩ := h.accept_next hhigh
  have made : ((d.accept cur).accept [x]).entries =
      (d.accept cur).entries ++ [cur ++ [x]] := rfl
  have hcount := h.count
  refine ⟨hi, width, fun hp => h.nonempty (Option.some_inj.1 hp), ?_, List.cons_ne_nil x [],
    spelling_literal hx _, fun e he => ?_⟩
  · show 2 ^ u.lit + 1 + _ = u.nextCode.hi.toNat
    rw [made, List.length_append, List.length_singleton, nextCode_hi hhigh]
    omega
  · rw [made]
    rcases List.mem_cons.1 he with rfl | he
    · refine ⟨cur, spelling_append h.current _, ?_⟩
      have hnew : u.nextCode.hi.toNat = 2 ^ u.lit + 2 + (d.accept cur).entries.length := by
        rw [nextCode_hi hhigh]
        omega
      exact hnew ▸ spelling_last u.lit _ _
    · obtain ⟨str, hstem, hcode⟩ := h.entries e he
      exact ⟨str, spelling_append hstem _, spelling_append hcode _⟩

/-- At the full table the decoder reads the clear code in 12 bits, and starts again
(42_lzw.md R236). -/
theorem InStep.readsTo_full {u : Lzw} {code : Code} {d : GifDecoder} {cur : List Byte}
    (h : InStep u code d cur) (hr : LzwRound u code) (hfull : u.hi.toNat = 4094) :
    ReadsTo u.lit d (lowBits u.width code.toNat ++ lowBits 12 (2 ^ u.lit)) cur
      (.fresh u.lit) := by
  have hwidth : (d.accept cur).width = 12 :=
    (h.accept_next (Nat.le_of_eq hfull)).2.trans
      (nextCode_width_full hfull (hr.sound.fullWidth hr.opened hfull))
  have hsmall : 2 ^ u.lit < 2 ^ 12 :=
    Nat.lt_of_le_of_lt (pow_lit_le hr.sound.litHigh) (by decide)
  have clear := readsTo_clear (lit := u.lit) (d := d.accept cur) (by omega) (by rwa [hwidth])
  rw [hwidth] at clear
  have both := (h.readsTo hr).trans clear
  rwa [List.append_nil] at both

/-! ### The loop -/

/-- A round of a miss keeps the decoder in step: it reads the old match. -/
theorem Missed.inStep {u v : Lzw} {code : Code} {x : Byte} {bs : List Byte}
    (m : Missed u code x bs v) (hr : LzwRound u code) (hx : x.toNat < 2 ^ u.lit)
    {d : GifDecoder} {cur : List Byte} (h : InStep u code d cur) :
    v.lit = u.lit ∧ ∃ bits d', bitsOfBytes bs ++ v.pending = u.pending ++ bits ∧
      ReadsTo u.lit d bits cur d' ∧ InStep v (literalCode x) d' [x] := by
  obtain ⟨-, next, full, string⟩ := m
  by_cases hfull : u.hi.toNat = 4094
  · have unit := full hfull
    rw [if_pos hfull, List.append_assoc] at string
    have start : InStep u.freshCodes (literalCode x) (.fresh u.lit) [x] :=
      .fresh (u := u.freshCodes) hr.sound.litHigh rfl rfl rfl hx
    exact ⟨by rw [unit]; rfl, _, _, string, h.readsTo_full hr hfull, start.congr unit⟩
  · have unit := next hfull
    rw [if_neg hfull, List.append_nil] at string
    exact ⟨by rw [unit]; rfl, _, _, string, h.readsTo hr,
      (h.next hr.open.hiHigh hx).congr unit⟩

/-- The bytes `bs` that the unit `u` handed over, and the unit `v` it left, stand for the bytes
`all`, of which the decoder `d` reads all but the string of the match saved (42_lzw.md R237,
R247). -/
structure Compressed (u v : Lzw) (bs : List Byte) (d : GifDecoder) (all : List Byte) : Prop where
  sound  : LzwSound v
  opened : v.st = .opened
  lit    : v.lit = u.lit
  read   : ∃ code d' cur bits str, v.saved = some code ∧ InStep v code d' cur ∧
    bitsOfBytes bs ++ v.pending = u.pending ++ bits ∧ ReadsTo u.lit d bits str d' ∧
    str ++ cur = all

/-- The loop of LzwWrite, from a match with the string `cur` (42_lzw.md R237). -/
theorem lzwLoop_compressed {xs : List Byte} {u : Lzw} {code : Code} {d : GifDecoder}
    {cur : List Byte} (hr : LzwRound u code) (hin : InStep u code d cur)
    (hfit : ∀ x ∈ xs, x.toNat < 2 ^ u.lit) :
    ∃ bs v, Yields (lzwLoop xs code) u bs v ∧ Compressed u v bs d (cur ++ xs) := by
  induction xs generalizing u code d cur with
  | nil =>
    refine ⟨[], _, yields_update (fun u => { u with saved := some code }) u, hr.sound, hr.opened,
      rfl, code, d, cur, [], [], rfl, ?_, by simp [Lzw.pending], .refl _ _, by simp⟩
    exact ⟨hin.hi, hin.width, hin.prev, hin.count, hin.nonempty, hin.current, hin.entries⟩
  | cons x xs ih =>
    have hx := hfit x (by simp)
    have hxs : ∀ y ∈ xs, y.toNat < 2 ^ u.lit := fun y hy => hfit y (by simp [hy])
    cases hd : dictFind u.dict code x with
    | some longer =>
      obtain ⟨e, he, rfl, rfl, rfl⟩ := dictFind_some hd
      obtain ⟨bs, v, hv, done⟩ :=
        ih (hr.withCode (hr.open.dictCodes e he).2) (hin.hit he) hxs
      rw [List.append_assoc] at done
      exact ⟨bs, v, hv.congr fun s hs => lzwLoop_hit (hs ▸ hd) xs, done⟩
    | none =>
      obtain ⟨ys, w, missed, onward⟩ := lzwLoop_missed hr hx hd
      obtain ⟨hlit, bits, d', string, reads, hin'⟩ := missed.inStep hr hx hin
      obtain ⟨zs, v, hv, done⟩ := ih missed.round hin' (hlit ▸ hxs)
      obtain ⟨sound, opened, lit, last, d'', cur', bits', str, saved, hin'', string', reads',
        all⟩ := done
      refine ⟨ys ++ zs, v, onward hv, sound, opened, lit.trans hlit, last, d'', cur', bits ++ bits',
        cur ++ str, saved, hin'', ?_, reads.trans (hlit ▸ reads'), ?_⟩
      · rw [bitsOfBytes_append, List.append_assoc, string', ← List.append_assoc, string,
          List.append_assoc]
      · rw [List.append_assoc, all]
        rfl

/-! ### The whole stream -/

/-- The end-of-information code fits the first width (30_encoding.md R160, R162). -/
theorem eoi_lt {lit : Nat} (h : 2 ≤ lit) : 2 ^ lit + 1 < 2 ^ (lit + 1) := by
  have hlow : 2 ^ 2 ≤ 2 ^ lit := Nat.pow_le_pow_right (by decide) h
  rw [Nat.pow_succ]
  omega

/-- LzwClose after the last match: the decoder reads it, and then the end-of-information code
(42_lzw.md R239). -/
theorem savedBits_read {u v : Lzw} {code : Code} {d : GifDecoder} {cur : List Byte}
    (hl : LzwSound u) (ho : u.st = .opened) (hs : u.saved = some code)
    (hin : InStep u code d cur) (hw : v.width = u.flushedWidth) (rest : List Bool) :
    Reads u.lit d (u.savedBits ++ (lowBits v.width (2 ^ u.lit + 1) ++ rest)) cur := by
  have hopen := hl.whileOpen ho
  have hr : LzwRound u code := hl.round ho (hopen.savedCode code hs)
  have hbits : u.savedBits = lowBits u.width code.toNat ++
      if u.hi.toNat = 4094 then lowBits 12 (2 ^ u.lit) else [] := by rw [Lzw.savedBits, hs]
  rw [hbits, hw, flushedWidth_saved hs, ← List.append_nil cur]
  by_cases hfull : u.hi.toNat = 4094
  · rw [if_pos hfull, if_pos hfull]
    exact hin.readsTo_full hr hfull _ _
      (reads_eoi (d := .fresh u.lit) (Nat.succ_pos _) (eoi_lt hopen.litLow) rest)
  · have hwidth : u.width ≤ (d.accept cur).width :=
      (hin.accept_next hopen.hiHigh).2 ▸ le_nextCode_width u
    rw [if_neg hfull, if_neg hfull, List.append_nil, ← nextCode_width hopen.hiHigh,
      ← (hin.accept_next hopen.hiHigh).2]
    refine hin.readsTo hr _ _ (reads_eoi ?_ ?_ rest)
    · have := hopen.widthLow
      omega
    · calc 2 ^ u.lit + 1 ≤ u.hi.toNat := hopen.hiLow
        _ < 2 ^ u.width := hopen.widthHolds
        _ ≤ 2 ^ (d.accept cur).width := Nat.pow_le_pow_right (by decide) hwidth

/-- Enough fuel for the bits of the bytes. -/
theorem gifDecode_of_reads {lit : Nat} {bs out : List Byte}
    (h : Reads lit (.fresh lit) (bitsOfBytes bs) out) : gifDecode lit bs = some out :=
  h _ (Nat.le_of_eq (bitsOfBytes_length bs))

/-- LzwClose of a fresh unit hands over the end-of-information code alone (42_lzw.md R239). -/
theorem fresh_lzwClose_decodes {lit : Nat} (hlo : 2 ≤ lit) (hhi : lit ≤ 8) {s u : State}
    (hu : lzwClose (lzwOpen lit s) = .ok u) :
    ∃ out, Handed (lzwOpen lit s) out u ∧ gifDecode lit out = some [] := by
  obtain ⟨out, v, pad, hv, -, hwidth, -, string⟩ := lzwClose_flushed (lzwOpen_sound hlo hhi s) rfl
  obtain ⟨-, -, handed⟩ := hv _ u rfl hu
  have bits : bitsOfBytes out = lowBits (lit + 1) (2 ^ lit + 1) ++ List.replicate pad false := by
    rw [string, hwidth]
    rfl
  refine ⟨out, handed, gifDecode_of_reads ?_⟩
  rw [bits]
  exact reads_eoi (d := .fresh lit) (Nat.succ_pos _) (eoi_lt hlo) _

/-- What LzwWrite of literals and LzwClose hand over of a fresh unit decodes to the literals
(42_lzw.md R237, R239, R247). -/
theorem fresh_lzwLoop_close_decodes {lit : Nat} (hlo : 2 ≤ lit) (hhi : lit ≤ 8) {b : Byte}
    {rest : List Byte} (hfit : ∀ x ∈ b :: rest, x.toNat < 2 ^ lit) {s t u : State}
    (ht : lzwLoop rest (literalCode b) (lzwOpen lit s) = .ok t) (hu : lzwClose t = .ok u) :
    ∃ out, Handed (lzwOpen lit s) out u ∧ gifDecode lit out = some (b :: rest) := by
  have hb := hfit b (by simp)
  have hround : LzwRound (lzwOpen lit s).lzw (literalCode b) :=
    (lzwOpen_sound hlo hhi s).round rfl (by
      rw [lzwOpen_lzw_hi, eoiCode_toNat hhi]
      exact literalCode_le hb)
  have hstart : InStep (lzwOpen lit s).lzw (literalCode b) (.fresh lit) [b] :=
    .fresh (u := (lzwOpen lit s).lzw) hhi rfl rfl rfl hb
  obtain ⟨xs, v, hv, sound, opened, hlit, code, d, cur, bits, str, saved, hin, string, reads,
    all⟩ := lzwLoop_compressed (xs := rest) hround hstart fun x hx =>
      hfit x (List.mem_cons_of_mem b hx)
  obtain ⟨rfl, -, handed⟩ := hv _ t rfl ht
  obtain ⟨ys, w, pad, hw, -, hwidth, -, string'⟩ := lzwClose_flushed sound opened
  obtain ⟨-, -, handed'⟩ := hw t u rfl hu
  have hlit : t.lzw.lit = lit := hlit
  have whole : bitsOfBytes (xs ++ ys) = bits ++ (t.lzw.savedBits ++
      (lowBits w.width (2 ^ t.lzw.lit + 1) ++ List.replicate pad false)) := by
    rw [bitsOfBytes_append, string', List.append_assoc, List.append_assoc, ← List.append_assoc,
      string]
    rfl
  have last := savedBits_read sound opened saved hin hwidth (List.replicate pad false)
  rw [hlit] at last whole
  refine ⟨xs ++ ys, handed.trans handed', gifDecode_of_reads ?_⟩
  rw [whole, ← List.singleton_append, ← all]
  exact reads _ _ last

/-- What LzwWrite of these bytes and LzwClose hand over of a fresh unit decodes to the bytes
(42_lzw.md R247). -/
theorem fresh_lzwWrite_close_decodes {lit : Nat} (hlo : 2 ≤ lit) (hhi : lit ≤ 8) {bs : List Byte}
    {s t u : State} (ht : lzwWrite bs (lzwOpen lit s) = .ok t) (hu : lzwClose t = .ok u) :
    ∃ out, Handed (lzwOpen lit s) out u ∧ gifDecode lit out = some bs := by
  obtain ⟨ho, fits⟩ := lzwWrite_ok_literals ht
  cases bs with
  | nil =>
    cases (lzwWrite_nil ho).symm.trans ht
    exact fresh_lzwClose_decodes hlo hhi hu
  | cons b rest =>
    have hfit := fits (List.cons_ne_nil b rest)
    rw [lzwWrite_first ho hfit rfl] at ht
    refine fresh_lzwLoop_close_decodes hlo hhi (fun x hx => ?_) ht hu
    exact Nat.lt_of_le_pred (Nat.two_pow_pos lit) ((literalsFit_iff hhi _).1 hfit x hx)

/-- Settles O50: the pieces are one write, and the decoder keeps in step with the unit. -/
theorem lzwRoundTrip : Obligations.LzwRoundTrip := by
  intro lit pieces s t u hlo hhi _ hempty ht hu
  have hwrite := lzwWrite_flatten (lzwOpen_lzw_st lit s) ht
  obtain ⟨out, handed, decodes⟩ := fresh_lzwWrite_close_decodes hlo hhi hwrite hu
  have payload : sbwPayload s u = s.sbw.data ++ out := handed.payload
  rw [payload, hempty, List.nil_append, decodes]

end Sys2Proof.Machine
end

section
/-!
SUPPORT. LZW_OPEN, LZW_WRITE and LZW_CLOSE as completions: where they stop at once, the first byte
of a unit, and one byte after a saved code (42_lzw.md R230–R245).
-/

namespace Sys2Proof.Machine

/-! ### Completions -/

/-- LZW_WRITE of an operand in range is the completion of LzwWrite (42_lzw.md R242). -/
theorem exec_lzwWrite {s : State} {bs : List Byte} (h : s.byteOperand = some bs) {r : Ret}
    (hr : lzwWrite bs { s with seq.delivered := 0 } = r) : exec .lzwWrite s =
      .next (r.state.complete r.failure (countWord r.state.seq.delivered) 0) := by
  subst hr
  simp only [exec, execLzwWrite, h]

/-- LZW_CLOSE is the completion of LzwClose (42_lzw.md R245). -/
theorem exec_lzwClose {s : State} {r : Ret} (hr : lzwClose { s with seq.delivered := 0 } = r) :
    exec .lzwClose s =
      .next (r.state.complete r.failure (countWord r.state.seq.delivered) 0) := by
  subst hr
  rfl

/-- Settles O40: the operand decides, whatever the unit is. -/
theorem lzwOpenResult : Obligations.LzwOpenResult := by
  intro s
  refine ⟨fun hlo hhi => ⟨eoiCode s.argA, eoiCode_toNat hhi, ?_⟩, fun hbad => ?_⟩
  · have hgood : ¬(s.argA < 2 ∨ 8 < s.argA) := by omega
    simp only [exec, execLzwOpen, if_neg hgood]
    rfl
  · simp only [exec, execLzwOpen, if_pos hbad]
    rfl

/-- Settles O46: LzwClose of such a unit returns at once. -/
theorem lzwCloseNotOpen : Obligations.LzwCloseNotOpen := by
  refine fun s => ⟨fun f hf => ?_, fun hc => ?_⟩
  · exact exec_lzwClose (r := .fail f { s with seq.delivered := 0 }) (by simp only [lzwClose, hf])
  · exact exec_lzwClose (r := .ok { s with seq.delivered := 0 }) (by simp only [lzwClose, hc])

/-! ### LZW_WRITE with nothing compressed -/

/-- The state check comes before the bytes (42_lzw.md R230). -/
theorem lzwWrite_rejected {s : State} {f : Failure} (h : lzwCheckWrite s = some f)
    (bs : List Byte) : lzwWrite bs s = .fail f s := by
  simp only [lzwWrite, h]

/-- LZW_WRITE of a unit that is not OPEN (42_lzw.md R230, R242). -/
theorem exec_lzwWrite_rejected {s : State} {bs : List Byte} {f : Failure}
    (hop : s.byteOperand = some bs) (h : lzwCheckWrite s = some f) :
    exec .lzwWrite s = .next (s.complete (some f) 0 0) :=
  exec_lzwWrite hop (lzwWrite_rejected (s := { s with seq.delivered := 0 }) h bs)

/-- Bytes are literals exactly when none is too large for the literal width (42_lzw.md R238). -/
theorem literalsFit_iff_lt {lit : Nat} {bs : List Byte} :
    literalsFit lit bs = true ↔ ∀ b ∈ bs, lit < 8 → b.toNat < 2 ^ lit := by
  have hpos := Nat.two_pow_pos lit
  rw [literalsFit, Bool.or_eq_true, decide_eq_true_eq, List.all_eq_true]
  constructor
  · rintro (h | h) b hb hlt
    · omega
    · have := of_decide_eq_true (h b hb)
      omega
  · intro h
    rcases Nat.lt_or_ge lit 8 with hlt | hge
    · exact .inr fun b hb => decide_eq_true (Nat.le_sub_one_of_lt (h b hb hlt))
    · exact .inl hge

/-- Settles O43: the range, the state check, the empty write and the literal check come in this
order, each before any byte is compressed. -/
theorem lzwWriteRejections : Obligations.LzwWriteRejections := by
  refine fun s bs => ⟨fun hr => ?_, fun hop =>
    ⟨fun f hf => ?_, fun hc => ?_, fun ho he => ?_, fun ho hlit hbad => ?_⟩⟩
  · have hnone : s.byteOperand = none := memBytes_eq_none.2 hr
    simp only [exec, execLzwWrite, hnone]
    rfl
  · exact exec_lzwWrite_rejected hop (by rw [lzwCheckWrite, hf])
  · exact exec_lzwWrite_rejected hop (by rw [lzwCheckWrite, hc]; rfl)
  · subst he
    exact exec_lzwWrite hop (lzwWrite_nil (s := { s with seq.delivered := 0 }) ho)
  · obtain ⟨b, hb, hlarge⟩ := hbad
    have hunfit : ¬literalsFit s.lzw.lit bs = true := fun hfit =>
      Nat.not_lt.2 hlarge (literalsFit_iff_lt.1 hfit b hb hlit)
    obtain ⟨x, xs, rfl⟩ := List.exists_cons_of_ne_nil (List.ne_nil_of_mem hb)
    exact exec_lzwWrite hop (lzwWrite_unfit (s := { s with seq.delivered := 0 }) ho hunfit)

/-! ### One byte -/

/-- The operand of one byte (20_memory.md R84). -/
theorem byteOperand_one {s : State} (h1 : s.argB = 1) (hr : s.argA + 1 ≤ s.imemSize) :
    s.byteOperand = some [Memory.read s.imem s.argA] := by
  rw [byteOperand_eq (by rw [h1]; exact hr), h1]
  rfl

/-- Settles O42: the literal is the first match, and the loop has no byte left. -/
theorem lzwWriteFirstByte : Obligations.LzwWriteFirstByte := by
  intro s ho hs h1 hr hlit
  have hfit : literalsFit s.lzw.lit [Memory.read s.imem s.argA] = true :=
    literalsFit_iff_lt.2 (by simpa using hlit)
  exact exec_lzwWrite (byteOperand_one h1 hr)
    (lzwWrite_first (s := { s with seq.delivered := 0 }) ho hfit hs)

/-- The dictionary has at most one code for a string, so that an entry there is the one found
(10_state.md R47). -/
theorem dictFind_of_mem {dict : List DictEntry} (hkeys : dict.Pairwise DictEntry.after)
    {e : DictEntry} (he : e ∈ dict) : dictFind dict e.stem e.byte = some e.code := by
  induction dict with
  | nil => cases he
  | cons d ds ih =>
    obtain ⟨newer, hrest⟩ := List.pairwise_cons.1 hkeys
    rcases List.mem_cons.1 he with rfl | he
    · simp [dictFind]
    · have hkey : (d.stem == e.stem && d.byte == e.byte) = false := by
        have := (newer e he).2
        simp only [Bool.and_eq_false_iff, beq_eq_false_iff_ne]
        grind
      rw [dictFind, List.find?_cons, hkey]
      exact ih hrest he

theorem dictFind_eq_none {dict : List DictEntry} {code : Code} {x : Byte}
    (h : ∀ d ∈ dict, d.stem = code → d.byte ≠ x) : dictFind dict code x = none := by
  cases hf : dictFind dict code x with
  | none => rfl
  | some c =>
    obtain ⟨e, he, hstem, hbyte, -⟩ := dictFind_some hf
    exact absurd hbyte (h e he hstem)

/-- A byte the dictionary has after the saved code: the longer code is saved (42_lzw.md R237). -/
theorem exec_lzwWrite_hit {s : State} {e : DictEntry} (hl : LzwSound s.lzw)
    (ho : s.lzw.st = .opened) (hs : s.lzw.saved = some e.stem) (he : e ∈ s.lzw.dict)
    (hop : s.byteOperand = some [e.byte]) (hfit : literalsFit s.lzw.lit [e.byte] = true) :
    exec .lzwWrite s =
      .next (({ s with lzw.saved := some e.code } : State).complete none 0 0) := by
  have hfind := dictFind_of_mem (hl.whileOpen ho).dictKeys he
  exact exec_lzwWrite hop ((lzwWrite_later (s := { s with seq.delivered := 0 }) ho hfit hs).trans
    (lzwLoop_hit (s := { s with seq.delivered := 0 }) hfind []))

/-- LZW_WRITE of literals in front of a ready writer completes, with what LzwWrite hands over and
leaves of the unit (42_lzw.md R242). -/
theorem exec_lzwWrite_yields {s : State} {bs out : List Byte} {v : Lzw} (ho : s.lzw.st = .opened)
    (ready : OutReady s) (hop : s.byteOperand = some bs) (hfit : literalsFit s.lzw.lit bs = true)
    (hv : Yields (lzwWrite bs) s.lzw out v) :
    v.st = .opened ∧ v.lit = s.lzw.lit ∧ (bs ≠ [] → v.saved.isSome) ∧
    ∃ t, exec .lzwWrite s = .next t ∧ t.csr.result = .ok ∧ t.csr.sinkCode = 0 ∧
      t.csr.res0 = countWord out.length ∧ t.csr.res1 = 0 ∧ t.lzw = v ∧ t.sbw.st = .writable ∧
      sbwPayload s t = s.sbw.data ++ out := by
  obtain ⟨t, ht, ready', opened, lit, saved⟩ :=
    lzwWrite_ready (s := { s with seq.delivered := 0 }) ⟨ready.writable, ready.accepting⟩ ho hfit
  obtain ⟨rfl, delivered, handed⟩ := hv { s with seq.delivered := 0 } t rfl ht
  have count : t.seq.delivered = out.length := by rw [delivered, Nat.zero_add]
  exact ⟨opened, lit, saved, _, exec_lzwWrite hop ht, rfl, rfl, congrArg countWord count, rfl,
    rfl, ready'.writable, handed.payload⟩

/-- LzwWrite of a byte the dictionary lacks after the saved code: one round of a miss, and the
byte is saved (42_lzw.md R237). -/
theorem lzwWrite_missed {u : Lzw} {code : Code} {x : Byte} (hl : LzwSound u)
    (ho : u.st = .opened) (hs : u.saved = some code) (hfit : literalsFit u.lit [x] = true)
    (hmiss : dictFind u.dict code x = none) : ∃ out v, Missed u code x out v ∧
      Yields (lzwWrite [x]) u out { v with saved := some (literalCode x) } := by
  have hr : LzwRound u code := hl.round ho ((hl.whileOpen ho).savedCode code hs)
  have hx : x.toNat < 2 ^ u.lit := by
    have := (literalsFit_iff hl.litHigh _).1 hfit x (by simp)
    have := Nat.two_pow_pos u.lit
    omega
  obtain ⟨out, v, missed, onward⟩ := lzwLoop_missed hr hx hmiss
  have hv := onward (rest := []) (yields_update (fun v => { v with saved := some _ }) v)
  rw [List.append_nil] at hv
  exact ⟨out, v, missed, hv.congr fun s h => lzwWrite_later (h ▸ ho) (h ▸ hfit) (h ▸ hs)⟩

/-- What a miss below the full table leaves of the unit (42_lzw.md R234, R235). -/
theorem Missed.below {u v : Lzw} {code : Code} {x : Byte} {bs : List Byte}
    (m : Missed u code x bs v) (h : u.hi.toNat ≤ 4093) : v.hi.toNat = u.hi.toNat + 1 ∧
      v.width = (if u.hi.toNat + 1 = 2 ^ u.width then u.width + 1 else u.width) ∧
      ∀ d, d ∈ v.dict ↔ d = { stem := code, byte := x, code := v.hi } ∨ d ∈ u.dict := by
  rw [m.next (by omega)]
  exact ⟨nextCode_hi (by omega), nextCode_width (by omega), fun d => List.mem_cons⟩

/-- What a miss at the full table leaves of it (42_lzw.md R236). -/
theorem Missed.atFull {u v : Lzw} {code : Code} {x : Byte} {bs : List Byte}
    (m : Missed u code x bs v) (hl : u.lit ≤ 8) (h : u.hi.toNat = 4094) :
    v.hi.toNat = 2 ^ u.lit + 1 ∧ v.width = u.lit + 1 ∧ v.dict = [] := by
  rw [m.full h]
  exact ⟨eoiCode_toNat hl, rfl, rfl⟩

/-- Settles O41: the bytes handed over are told from the unit, and one byte is a hit or a round of
a miss. -/
theorem lzwWriteResult : Obligations.LzwWriteResult := by
  refine ⟨fun s bs ho hw hacc hr hbs hlit => ?_, fun s code x hl ho hs h1 hr hx hlit => ?_⟩
  · have hop : s.byteOperand = some bs := hbs ▸ byteOperand_eq hr
    obtain ⟨out, v, hv⟩ := lzwWrite_determined bs s.lzw
    obtain ⟨opened, lit, saved, t, hexec, result, code, res0, res1, rfl, writable, payload⟩ :=
      exec_lzwWrite_yields ho ⟨hw, hacc⟩ hop (literalsFit_iff_lt.2 hlit) hv
    refine ⟨t, out.length, hexec, result, code, res0, res1, ?_, ?_, opened, lit, writable,
      fun he => ?_, fun hne => Option.isSome_iff_exists.1 (saved hne)⟩
    · rw [payload, List.length_append]
    · rw [payload]
      exact List.prefix_append _ _
    · obtain ⟨-, inRange⟩ := lzwWriteRejections s bs
      obtain ⟨-, -, empty, -⟩ := inRange hop
      rw [← Host.Outcome.next.inj ((empty ho he).symm.trans hexec)]
      exact ⟨rfl, rfl, rfl⟩
  · have hop : s.byteOperand = some [x] := hx ▸ byteOperand_one h1 hr
    have hfit : literalsFit s.lzw.lit [x] = true := literalsFit_iff_lt.2 (by simpa using hlit)
    refine ⟨fun d hd hstem hbyte => ?_, fun hmiss hw hacc => ?_⟩
    · subst hstem hbyte
      exact exec_lzwWrite_hit hl ho hs hd hop hfit
    · obtain ⟨out, v, missed, hv⟩ := lzwWrite_missed hl ho hs hfit (dictFind_eq_none hmiss)
      obtain ⟨opened, lit, -, t, hexec, result, code, res0, res1, unit, writable, payload⟩ :=
        exec_lzwWrite_yields ho ⟨hw, hacc⟩ hop hfit hv
      refine ⟨t, out.length, hexec, result, code, res0, res1, ?_, writable, ?_⟩
      · rw [payload, List.length_append]
      · rw [unit, payload, bitsOfBytes_append]
        refine ⟨opened, lit, rfl, missed.round.bits.count, ?_, missed.below,
          missed.atFull hl.litHigh⟩
        have string := missed.string
        simp only [List.append_assoc] at string ⊢
        exact congrArg _ string

end Sys2Proof.Machine
end

section
/-!
SUPPORT. A failure of the writer as that of the LZW unit: every procedure of the unit is built of
bytes put to the writer and changes of the unit, so that what a FAILED, a CLOSED or a failing writer
makes of it is said of those alone (42_lzw.md R232, R246).
-/

namespace Sys2Proof.Machine

/-! ### The procedures of the unit -/

/-- What the procedures of the LZW unit are built of: bytes put to the writer, changes of the unit,
stops with no byte put, sequences, and branches on the unit (42_lzw.md R232). -/
inductive LzwProc : (State → Ret) → Prop
  | done : LzwProc .ok
  | stop (f : Failure) (g : Lzw → Lzw) : LzwProc fun s => .fail f { s with lzw := g s.lzw }
  | put (b : Byte) : LzwProc (lzwPut b)
  | update (g : Lzw → Lzw) {p : State → Ret} (hp : LzwProc p) :
      LzwProc fun s => p { s with lzw := g s.lzw }
  | andThen {p q : State → Ret} (hp : LzwProc p) (hq : LzwProc q) :
      LzwProc fun s => (p s).andThen q
  | branch {p : State → Ret} (q : Lzw → State → Ret) (hq : ∀ u, LzwProc (q u))
      (same : ∀ s, p s = q s.lzw s) : LzwProc p

/-- A procedure that is one of the unit's from every unit it starts with. -/
theorem LzwProc.byUnit {p : State → Ret}
    (h : ∀ u, ∃ q, LzwProc q ∧ ∀ s, s.lzw = u → p s = q s) : LzwProc p :=
  .branch (fun u => (h u).choose) (fun u => (h u).choose_spec.1)
    fun s => (h s.lzw).choose_spec.2 s rfl

theorem LzwProc.drainBits (fuel : Nat) : LzwProc (drainBits fuel) := by
  induction fuel with
  | zero => exact .done
  | succ fuel ih =>
    refine .byUnit fun u => ?_
    by_cases h8 : 8 ≤ u.nbits
    · refine ⟨_, (LzwProc.put (u.bitbuf.setWidth 8)).andThen (ih.update Lzw.dropByte),
        fun s hs => ?_⟩
      subst hs
      rw [Machine.drainBits, if_pos h8]
      rfl
    · refine ⟨_, .done, fun s hs => ?_⟩
      subst hs
      rw [Machine.drainBits, if_neg h8]

theorem LzwProc.emitCode (c : Code) : LzwProc (emitCode c) :=
  .byUnit fun u => ⟨_, (LzwProc.drainBits (u.withCode c).nbits).update (·.withCode c),
    fun s hs => by subst hs; rfl⟩

theorem LzwProc.incHi {full next : State → Ret} (hf : LzwProc full) (hn : LzwProc next) :
    LzwProc fun s => (incHi s).andThen full next := by
  refine .byUnit fun u => ?_
  by_cases h : (u.hi + 1).toNat = 4095
  · refine ⟨_, ((LzwProc.emitCode (clearCode u.lit)).andThen
      (hf.update Lzw.freshCodes)).update Lzw.nextCode, fun s hs => ?_⟩
    subst hs
    rw [incHi_andThen, if_pos h, tableFull_andThen]
    rfl
  · refine ⟨_, hn.update Lzw.nextCode, fun s hs => ?_⟩
    subst hs
    rw [incHi_andThen, if_neg h]
    rfl

theorem LzwProc.lzwLoop (bs : List Byte) (code : Code) : LzwProc (lzwLoop bs code) := by
  induction bs generalizing code with
  | nil => exact LzwProc.done.update fun u => { u with saved := some code }
  | cons x xs ih =>
    refine .byUnit fun u => ?_
    cases h : dictFind u.dict code x with
    | some longer => exact ⟨_, ih longer, fun s hs => lzwLoop_hit (hs ▸ h) xs⟩
    | none =>
      exact ⟨_, (LzwProc.emitCode code).andThen (.incHi (ih (literalCode x))
        ((ih (literalCode x)).update (·.withEntry code x))), fun s hs =>
          lzwLoop_miss (hs ▸ h) xs⟩

theorem LzwProc.lzwWrite (bs : List Byte) : LzwProc (lzwWrite bs) := by
  have rejected : ∀ {u : Lzw} {f}, (∀ s : State, s.lzw = u → lzwCheckWrite s = some f) →
      ∃ q, LzwProc q ∧ ∀ s : State, s.lzw = u → Machine.lzwWrite bs s = q s :=
    fun {_ f} h => ⟨_, .stop f id, fun s hs => lzwWrite_rejected (h s hs) bs⟩
  refine .byUnit fun u => ?_
  cases ho : u.st with
  | failed f => exact rejected fun s hs => by rw [lzwCheckWrite, hs, ho]
  | closed => exact rejected fun s hs => by rw [lzwCheckWrite, hs, ho]
  | opened =>
    cases bs with
    | nil => exact ⟨_, .done, fun s hs => lzwWrite_nil (hs ▸ ho)⟩
    | cons b rest =>
      by_cases hfit : literalsFit u.lit (b :: rest) = true
      · cases hs : u.saved with
        | none => exact ⟨_, .lzwLoop rest (literalCode b), fun s h =>
            lzwWrite_first (h ▸ ho) (h ▸ hfit) (h ▸ hs)⟩
        | some code => exact ⟨_, .lzwLoop (b :: rest) code, fun s h =>
            lzwWrite_later (h ▸ ho) (h ▸ hfit) (h ▸ hs)⟩
      · exact ⟨_, .stop (.plain .lzwLiteral) fun u => { u with st := .failed (.plain .lzwLiteral) },
          fun s h => lzwWrite_unfit (h ▸ ho) (h ▸ hfit)⟩

theorem LzwProc.lzwFlushSaved : LzwProc lzwFlushSaved := by
  refine .byUnit fun u => ?_
  cases h : u.saved with
  | none => exact ⟨_, .done, fun s hs => lzwFlushSaved_none (hs ▸ h)⟩
  | some code =>
    exact ⟨_, (LzwProc.emitCode code).andThen (.incHi .done .done), fun s hs =>
      lzwFlushSaved_some (hs ▸ h)⟩

theorem LzwProc.lzwFlushBits : LzwProc lzwFlushBits := by
  refine .byUnit fun u => ?_
  by_cases h : 0 < u.nbits
  · exact ⟨_, .put (u.bitbuf.setWidth 8), fun s hs => by
      subst hs
      rw [Machine.lzwFlushBits, if_pos h]⟩
  · exact ⟨_, .done, fun s hs => by
      subst hs
      rw [Machine.lzwFlushBits, if_neg h]⟩

theorem LzwProc.lzwClose : LzwProc lzwClose := by
  refine .byUnit fun u => ?_
  cases ho : u.st with
  | failed f =>
    refine ⟨_, .stop f id, fun s hs => ?_⟩
    subst hs
    rw [Machine.lzwClose, ho]
    rfl
  | closed =>
    refine ⟨_, .done, fun s hs => ?_⟩
    rw [Machine.lzwClose, hs, ho]
  | opened =>
    have ending : LzwProc fun s1 => (Machine.emitCode (eoiCode s1.lzw.lit) s1).andThen fun s2 =>
        (Machine.lzwFlushBits s2).andThen fun s3 => .ok (lzwShut s3) :=
      .byUnit fun v => ⟨_, (LzwProc.emitCode (eoiCode v.lit)).andThen
        (LzwProc.lzwFlushBits.andThen (LzwProc.done.update Lzw.shut)),
        fun s hs => by subst hs; rfl⟩
    exact ⟨_, LzwProc.lzwFlushSaved.andThen ending, fun s hs => lzwClose_opened (hs ▸ ho)⟩

/-! ### The commands -/

/-- The completion of a procedure of the unit (42_lzw.md R242, R245). -/
def Ret.completed (r : Ret) : State :=
  r.state.complete r.failure (countWord r.state.seq.delivered) 0

/-- LZW_WRITE and LZW_CLOSE are completions of procedures of the unit, of which the operand bytes
are all that is read from elsewhere (42_lzw.md R242, R245). -/
theorem exec_lzwProc {i : Instr} (hi : i = .lzwWrite ∨ i = .lzwClose) (s : State) :
    ∃ p, LzwProc p ∧ ∀ s' : State, s'.byteOperand = s.byteOperand →
      exec i s' = .next (p { s' with seq.delivered := 0 }).completed := by
  rcases hi with rfl | rfl
  · cases hop : s.byteOperand with
    | none =>
      refine ⟨_, .stop (.plain .imemRange) id, fun s' h => ?_⟩
      simp only [exec, execLzwWrite, h]
      rfl
    | some bs => exact ⟨_, .lzwWrite bs, fun s' h => exec_lzwWrite h rfl⟩
  · exact ⟨_, .lzwClose, fun _ _ => exec_lzwClose rfl⟩

/-! ### A writer that takes no byte -/

/-- The same state with a fresh writer before a sink that accepts everything. -/
def State.reopened (s : State) : State := sbwOpen s.withAcceptAll

/-- What a procedure gives with a writer `w` that fails every byte with `f`, before the sink `k`
and with `n` bytes counted (`r`), and what it gives with a fresh writer (`a`): it puts no byte, and
the results differ in the writer and the sink alone; or it stops at the first byte. -/
inductive Blocked (f : Failure) (w : Sbw) (k : Sink) (n : Nat) : Ret → Ret → Prop
  | silent {r : Ret} (writer : r.state.sbw = w) (sink : r.state.sink = k)
      (count : r.state.seq.delivered = n) :
      Blocked f w k n r (r.leaving State.reopened fun _ => State.reopened)
  | stopped {t : State} {a : Ret} (failed : t.lzw.st = .failed f) (writer : t.sbw = w)
      (sink : t.sink = k) (count : t.seq.delivered = n) : Blocked f w k n (.fail f t) a

/-- A byte put to a writer that fails the state check (42_lzw.md R246). -/
theorem lzwPut_rejected {s : State} {f : Failure} (h : sbwCheck s = some f) (b : Byte) :
    lzwPut b s = .fail f { s with lzw.st := .failed f } := by
  have hput : sbwPut b s = .fail f s := by simp only [sbwPut, h]
  rw [lzwPut_eq, hput]
  rfl

/-- A sequence after the first part: with no byte put, the second part starts with the same writer,
sink and count. -/
theorem Blocked.andThen {f : Failure} {w : Sbw} {k : Sink} {n : Nat} {r a : Ret}
    {next : State → Ret} (h : Blocked f w k n r a)
    (hn : ∀ t, t.sbw = w → Blocked f t.sbw t.sink t.seq.delivered (next t) (next t.reopened)) :
    Blocked f w k n (r.andThen next) (a.andThen next) := by
  cases h with
  | stopped failed writer sink count => exact .stopped failed writer sink count
  | silent writer sink count =>
    cases r with
    | fail f' t => exact .silent (r := .fail f' t) writer sink count
    | ok t =>
      have second := hn t writer
      rw [show t.sbw = w from writer, show t.sink = k from sink,
        show t.seq.delivered = n from count] at second
      exact second

theorem LzwProc.blocked {p : State → Ret} (h : LzwProc p) {s : State} {f : Failure}
    (hc : sbwCheck s = some f) :
    Blocked f s.sbw s.sink s.seq.delivered (p s) (p s.reopened) := by
  induction h generalizing s with
  | done => exact .silent (r := .ok s) rfl rfl rfl
  | stop f' g => exact .silent (r := .fail f' { s with lzw := g s.lzw }) rfl rfl rfl
  | put b =>
    rw [lzwPut_rejected hc]
    exact .stopped rfl rfl rfl rfl
  | update g _ ih => exact ih (s := { s with lzw := g s.lzw }) hc
  | branch q _ same ih =>
    rw [same, same]
    exact ih s.lzw hc
  | andThen _ _ ihp ihq =>
    refine (ihp hc).andThen fun t ht => ihq ?_
    rw [← hc, sbwCheck, sbwCheck, ht]

/-- What the completion reports, where a fresh writer was handed a byte (42_lzw.md R246). -/
theorem Blocked.completed {s : State} {f : Failure} {r a : Ret}
    (h : Blocked f s.sbw s.sink 0 r a) (hne : sbwPayload s.reopened a.completed ≠ []) :
    r.failure = some f ∧ r.state.seq.delivered = 0 ∧ r.state.lzw.st = .failed f ∧
      r.state.sbw = s.sbw ∧ r.state.sink = s.sink := by
  cases h with
  | stopped failed writer sink count => exact ⟨rfl, count, failed, writer, sink⟩
  | silent writer sink count =>
    have fresh : ∀ x : Ret,
        (x.leaving State.reopened fun _ => State.reopened).completed.sbw.data = [] ∧
        (x.leaving State.reopened fun _ => State.reopened).completed.sink.txs = x.state.sink.txs
      | .ok _ => ⟨rfl, rfl⟩
      | .fail _ _ => ⟨rfl, rfl⟩
    refine absurd ?_ hne
    rw [sbwPayload, (fresh r).1, (fresh r).2, sink, List.append_nil]
    exact congrArg (List.flatMap _) List.drop_length

/-- LZW_WRITE or LZW_CLOSE with a writer that takes no byte, where the same command puts one to a
fresh writer (42_lzw.md R246). -/
theorem exec_blocked {i : Instr} (hi : i = .lzwWrite ∨ i = .lzwClose) {s u : State} {f : Failure}
    (hc : sbwCheck s = some f) (hu : exec i s.reopened = .next u)
    (hne : sbwPayload s.reopened u ≠ []) :
    ∃ t, exec i s = .next t ∧ t.csr.result = .failed f.kind ∧ t.csr.sinkCode = f.code ∧
      t.csr.res0 = 0 ∧ t.csr.res1 = 0 ∧ t.lzw.st = .failed f ∧ t.sbw = s.sbw ∧
      t.sink = s.sink := by
  obtain ⟨p, hp, runs⟩ := exec_lzwProc hi s
  cases (runs s.reopened rfl).symm.trans hu
  obtain ⟨failure, count, failed, writer, sink⟩ :=
    (hp.blocked (s := { s with seq.delivered := 0 }) hc).completed (s := s) hne
  refine ⟨_, runs s rfl, ?_, ?_, congrArg countWord count, rfl, failed, writer, sink⟩
  · exact congrArg resultOf failure
  · exact congrArg sinkCodeOf failure

/-! ### A writer whose sink fails a full unit -/

/-- A failed transaction of the writer: it is recorded, and the failure stored
(41_subblock_writer.md R201). -/
theorem sbwSinkWrite_failed {bs : List Byte} {s t : State} {f : Failure}
    (h : sbwSinkWrite bs s = .fail f t) : t.sbw = { s.sbw with st := .failed f } ∧
      t.sink = s.sink.record bs (s.sink.answer bs.length) := by
  have hstate := sinkWrite_state bs s
  rw [sbwSinkWrite_eq] at h
  cases hw : sinkWrite bs s with
  | ok m => rw [hw] at h; cases h
  | fail f' m =>
    rw [hw] at h hstate
    cases h
    rw [Ret.state_fail] at hstate
    rw [hstate]
    exact ⟨rfl, rfl⟩

/-- A put that a WRITABLE writer fails: its byte filled the working area, which is kept, and the
transaction of the full unit failed (41_subblock_writer.md R201, R204, R206). -/
theorem sbwPut_failed {b : Byte} {s t : State} {f : Failure} (hw : s.sbw.st = .writable)
    (h : sbwPut b s = .fail f t) : s.sbw.data.length = 254 ∧
      t.sbw = { st := .failed f, data := s.sbw.data ++ [b] } ∧
      ∃ a : Nat × Option Byte,
        t.sink.txs = s.sink.txs ++ [⟨255 :: (s.sbw.data ++ [b]), a.1, a.2⟩] := by
  rw [sbwPut_writable hw] at h
  split at h
  · rename_i hfull
    have hbyte : (s.buffering (s.sbw.data ++ [b])).fillByte = 255 := by
      rw [State.fillByte, buffering_sbw_data, List.length_append, hfull]
      rfl
    rw [sbwFlushFull, hbyte, buffering_sbw_data] at h
    cases hflush : sbwSinkWrite (255 :: (s.sbw.data ++ [b]))
        (s.buffering (s.sbw.data ++ [b])) with
    | ok m => rw [hflush] at h; cases h
    | fail f' m =>
      rw [hflush] at h
      cases h
      obtain ⟨writer, sink⟩ := sbwSinkWrite_failed hflush
      exact ⟨hfull, writer, _, congrArg Sink.txs sink⟩
  · cases h

/-- How a procedure of the unit ends that started in `s` with a WRITABLE writer: what it put was
handed over; or the sink failed a full unit, after the full units `us`: the failure is the unit's
too, and all bytes put but the last one are counted (42_lzw.md R232, R246). -/
inductive Ended (s : State) : Ret → Prop
  | went {t : State} {bs : List Byte} (handed : Handed s bs t)
      (count : t.seq.delivered = s.seq.delivered + bs.length) : Ended s (.ok t)
  | stopped {f : Failure} {t : State} {bs : List Byte} (handed : Handed s bs t) :
      Ended s (.fail f t)
  | stalled {f : Failure} {t : State} {us : List (List Byte)} {unit : List Byte} {tx : Tx}
      (failed : t.lzw.st = .failed f) (writer : t.sbw = { st := .failed f, data := unit })
      (txs : t.sink.txs = s.sink.txs ++ us.map unitTx ++ [tx]) (offered : tx.offered = 255 :: unit)
      (count : t.seq.delivered + s.sbw.data.length = s.seq.delivered + 255 * us.length + 254) :
      Ended s (.fail f t)

/-- A change of the unit alone comes before. -/
theorem Ended.afterUpdate {s : State} {u : Lzw} {r : Ret} (h : Ended { s with lzw := u } r) :
    Ended s r := by
  cases h with
  | went handed count => exact .went ⟨handed.st, handed.low, handed.units⟩ count
  | stopped handed => exact .stopped ⟨handed.st, handed.low, handed.units⟩
  | stalled failed writer txs offered count => exact .stalled failed writer txs offered count

/-- The bytes of whole units. -/
theorem flatten_length_of_units {us : List (List Byte)} (h : ∀ u ∈ us, u.length = 255) :
    us.flatten.length = 255 * us.length := by
  induction us with
  | nil => rfl
  | cons u us ih =>
    rw [List.flatten_cons, List.length_append, h u (by simp), ih fun w hw => h w (by simp [hw]),
      List.length_cons]
    omega

theorem Ended.andThen {s : State} {r : Ret} {next : State → Ret} (h : Ended s r)
    (hn : ∀ t bs, Handed s bs t → Ended t (next t)) : Ended s (r.andThen next) := by
  cases h with
  | stopped handed => exact .stopped handed
  | stalled failed writer txs offered count => exact .stalled failed writer txs offered count
  | @went t bs handed count =>
    have second := hn t bs handed
    rw [Ret.andThen_ok]
    revert second
    generalize next t = r
    rintro (⟨handed', count'⟩ | handed' | ⟨failed, writer, txs, offered, count'⟩)
    · refine .went (handed.trans handed') ?_
      rw [count', count, List.length_append, Nat.add_assoc]
    · exact .stopped (handed.trans handed')
    · rename_i us' unit tx
      obtain ⟨us, full, before, bytes, -⟩ := handed.units
      have hlen := congrArg List.length bytes
      rw [List.length_append, List.length_append, flatten_length_of_units full] at hlen
      refine .stalled (us := us ++ us') failed writer ?_ offered ?_
      · rw [txs, before, List.map_append, List.append_assoc s.sink.txs]
      · rw [List.length_append]
        omega

theorem lzwPut_ended {s : State} (hw : s.sbw.st = .writable) (b : Byte) :
    Ended s (lzwPut b s) := by
  have frame := sbwPut_frame b s
  rw [lzwPut_eq]
  cases hput : sbwPut b s with
  | ok t =>
    rw [hput] at frame
    have handed := sbwPut_handed hput
    exact .went ⟨handed.st, handed.low, handed.units⟩ (congrArg (· + 1) frame.delivered)
  | fail f t =>
    rw [hput] at frame
    obtain ⟨hfull, writer, a, txs⟩ := sbwPut_failed hw hput
    refine .stalled (us := []) (tx := ⟨255 :: (s.sbw.data ++ [b]), a.1, a.2⟩) rfl writer ?_ rfl ?_
    · rw [List.map_nil, List.append_nil]
      exact txs
    · rw [hfull, List.length_nil, Nat.mul_zero, Nat.add_zero]
      exact congrArg (· + 254) frame.delivered

theorem LzwProc.ended {p : State → Ret} (h : LzwProc p) {s : State}
    (hw : s.sbw.st = .writable) (hl : s.sbw.data.length ≤ 254) : Ended s (p s) := by
  induction h generalizing s with
  | done => exact .went (.nothing rfl rfl rfl) rfl
  | stop f g => exact .stopped (.nothing rfl rfl rfl)
  | put b => exact lzwPut_ended hw b
  | update g _ ih => exact (ih (s := { s with lzw := g s.lzw }) hw hl).afterUpdate
  | branch q _ same ih =>
    rw [same]
    exact ih s.lzw hw hl
  | andThen _ _ ihp ihq =>
    exact (ihp hw hl).andThen fun t bs handed => ihq (handed.st.trans hw) (handed.low hl)

theorem LzwProc.mirrors {p : State → Ret} (h : LzwProc p) : Mirrors p := by
  induction h with
  | done => exact fun s => .silent rfl
  | stop f g => exact fun s => .silent (r := .fail f { s with lzw := g s.lzw }) rfl
  | put b => exact lzwPut_mirrors b
  | update g _ ih => exact fun s => ih { s with lzw := g s.lzw }
  | branch q _ same ih =>
    intro s
    rw [same, same]
    exact ih s.lzw s
  | andThen _ _ ihp ihq => exact fun s => (ihp s).andThen ihq

/-! ### Where the sink fails -/

/-- A sink takes no more offers whole than those before the one it fails. -/
theorem SinkFailsAt.takes_le {start k k' : Sink} {offers : List (List Byte)} {j n m : Nat}
    {bs : List Byte} {e : Option Byte} (h : SinkFailsAt start offers j bs k n e)
    (ht : start.takes (offers.take m) = some k') (hm : m ≤ offers.length) : m ≤ j := by
  refine Nat.not_lt.1 fun hlt => ?_
  obtain ⟨hj, hbs⟩ := List.getElem?_eq_some_iff.1 h.offer
  have hget : (offers.take m)[j]'(by rw [List.length_take]; omega) = bs := by
    rw [List.getElem_take, hbs]
  have cut : offers.take m = offers.take j ++ (bs :: (offers.take m).drop (j + 1)) := by
    calc offers.take m = (offers.take m).take j ++ (offers.take m).drop j :=
          (List.take_append_drop j _).symm
      _ = offers.take j ++ (bs :: (offers.take m).drop (j + 1)) := by
        rw [List.take_take, Nat.min_eq_left (by omega), ← hget, List.getElem_cons_drop]
  rw [cut, Sink.takes_append_of h.before, Sink.takes_cons, h.answer] at ht
  obtain ⟨rfl, rfl⟩ := Prod.mk.inj ht.1
  exact h.fails.elim (fun h => h rfl) (Nat.lt_irrefl _)

/-- The offer a sink fails, and how, is the only one. -/
theorem SinkFailsAt.unique {start k k' : Sink} {offers : List (List Byte)} {j j' n n' : Nat}
    {bs bs' : List Byte} {e e' : Option Byte} (h : SinkFailsAt start offers j bs k n e)
    (h' : SinkFailsAt start offers j' bs' k' n' e') :
    j' = j ∧ bs' = bs ∧ k' = k ∧ n' = n ∧ e' = e := by
  obtain ⟨hj, -⟩ := List.getElem?_eq_some_iff.1 h.offer
  obtain ⟨hj', -⟩ := List.getElem?_eq_some_iff.1 h'.offer
  obtain rfl : j' = j := Nat.le_antisymm (h.takes_le h'.before (Nat.le_of_lt hj'))
    (h'.takes_le h.before (Nat.le_of_lt hj))
  obtain rfl : bs' = bs := Option.some_inj.1 (h'.offer.symm.trans h.offer)
  obtain rfl : k' = k := Option.some_inj.1 (h'.before.symm.trans h.before)
  obtain ⟨rfl, rfl⟩ := Prod.mk.inj (h'.answer.symm.trans h.answer)
  exact ⟨rfl, rfl, rfl, rfl, rfl⟩

/-- Before a sink that fails one of the offers a procedure makes to an accepting sink, it fails
there (20_memory.md R90, R92). -/
theorem Mirrored.fails {s : State} {r a : Ret} (h : Mirrored s r a) {new : List Tx}
    (hnew : a.state.sink.txs = s.sink.txs ++ new) {j n : Nat} {bs : List Byte} {k : Sink}
    {e : Option Byte} (hf : SinkFailsAt s.sink (new.map Tx.offered) j bs k n e) :
    ∃ t, r = .fail (answerFailure e) t ∧ t.sink = k.record bs (n, e) := by
  obtain ⟨offers, hall, ans⟩ := h
  obtain ⟨htxs, -, -⟩ := Sink.takes_sink hall
  obtain rfl := List.append_cancel_left (hnew.symm.trans htxs)
  rw [List.map_map, show Tx.offered ∘ (fun bs => (⟨bs, bs.length, none⟩ : Tx)) = id from rfl,
    List.map_id] at hf
  obtain ⟨hj, -⟩ := List.getElem?_eq_some_iff.1 hf.offer
  cases ans with
  | whole takes _ =>
    have := hf.takes_le (m := offers.length) (by rw [List.take_length]; exact takes) (Nat.le_refl _)
    omega
  | broken fails result last =>
    obtain ⟨rfl, rfl, rfl, rfl, rfl⟩ := hf.unique fails
    exact ⟨_, result, last⟩

/-- A procedure of the unit whose last transaction failed was stalled by it: its place among the
full units gives the count (42_lzw.md R246). -/
theorem Ended.counted {s t : State} {f : Failure} (h : Ended s (.fail f t))
    {offers : List (List Byte)} {j n : Nat} {unit : List Byte} {k : Sink} {e : Option Byte}
    (hf : SinkFailsAt s.sink offers j unit k n e) (last : t.sink = k.record unit (n, e)) :
    t.lzw.st = .failed f ∧ t.sbw = { st := .failed f, data := unit.drop 1 } ∧
      t.seq.delivered + s.sbw.data.length = s.seq.delivered + 255 * j + 254 := by
  obtain ⟨hj, -⟩ := List.getElem?_eq_some_iff.1 hf.offer
  obtain ⟨before, -, -⟩ := Sink.takes_sink hf.before
  have htxs : t.sink.txs = s.sink.txs ++ ((offers.take j).map fun bs => ⟨bs, bs.length, none⟩) ++
      [⟨unit, n, e⟩] := by rw [last, Sink.record_txs, before]
  cases h with
  | stopped handed =>
    obtain ⟨us, full, units, -, -⟩ := handed.units
    rw [units, List.append_assoc] at htxs
    have hmem : (⟨unit, n, e⟩ : Tx) ∈ us.map unitTx := by
      rw [List.append_cancel_left htxs]
      simp
    obtain ⟨w, hw, htx⟩ := List.mem_map.1 hmem
    cases htx
    have hlen := full w hw
    exact hf.fails.elim (fun h => absurd rfl h) fun h => by
      rw [List.length_cons] at h
      omega
  | @stalled _ _ us data tx failed writer units offered count =>
    rw [units] at htxs
    obtain ⟨heads, lasts⟩ := List.append_inj' htxs rfl
    have hlen := congrArg List.length (List.append_cancel_left heads)
    rw [List.length_map, List.length_map, List.length_take] at hlen
    cases List.singleton_inj.1 lasts
    have hdata : unit.drop 1 = data := congrArg (List.drop 1) offered
    refine ⟨failed, hdata ▸ writer, ?_⟩
    rw [count, show us.length = j by omega]

/-! ### The statement -/

/-- Settles O52: the failure of a put is the unit's; a command stops at the first byte put to a
writer that takes none, and at the full unit its sink fails. -/
theorem lzwStoresWriterFailure : Obligations.LzwStoresWriterFailure := by
  have blocked : ∀ {s : State} {f}, (s.sbw.st = .failed f ∨
      s.sbw.st = .closed ∧ f = { kind := .alreadyClosed, code := 0 }) → sbwCheck s = some f := by
    rintro s f (h | ⟨h, rfl⟩)
    · exact sbwCheck_failed h
    · exact sbwCheck_closed h
  refine ⟨fun b s t f h => ?_, fun i s fresh u f hi hw hfresh hu hne => ?_,
    fun i s u new j n unit k e hi hw hl hu hnew hf => ?_, fun s f hl ho hw => ?_⟩
  · have frame := sbwPut_frame b s
    rw [h] at frame
    exact ⟨by rw [lzwPut_eq, h]; rfl, frame.lzw, frame.delivered⟩
  · subst hfresh
    exact exec_blocked hi (blocked hw) hu hne
  · obtain ⟨p, hp, runs⟩ := exec_lzwProc hi s
    have hrun := runs s rfl
    cases (runs s.withAcceptAll rfl).symm.trans hu
    obtain ⟨t, result, last⟩ := (hp.mirrors { s with seq.delivered := 0 }).fails hnew hf
    have ended := hp.ended (s := { s with seq.delivered := 0 }) hw hl
    rw [result] at ended hrun
    obtain ⟨failed, writer, count⟩ := ended.counted hf last
    have count : t.seq.delivered = 255 * (j + 1) - 1 - s.sbw.data.length := by
      have count : t.seq.delivered + s.sbw.data.length = 0 + 255 * j + 254 := count
      omega
    exact ⟨_, hrun, rfl, rfl, congrArg countWord count, rfl, failed, writer, last⟩
  · obtain ⟨u, n, -, hu, -, -, -, -, hpos, hlen, -⟩ :=
      lzwCloseResult s.reopened hl ho rfl ⟨rfl, rfl⟩
    refine exec_blocked (.inr rfl) (sbwCheck_failed hw) hu fun he => ?_
    rw [he, List.length_nil] at hlen
    omega

end Sys2Proof.Machine
end

section
/-!
SUPPORT. What a command that met a failure of the sink has left there, beside what the same command
leaves where everything is taken: the beginning of it, and less than all of it where a transaction
was cut short (20_memory.md R90, R92, 43_frame_animation.md R290).
-/

namespace Sys2Proof.Machine

/-- The stream once the offers before the failed one, and the taken part of it, are in the sink. -/
theorem SinkFailsAt.stream {start k : Sink} {offers : List (List Byte)} {j n : Nat} {bs : List Byte}
    {e : Option Byte} (h : SinkFailsAt start offers j bs k n e) :
    streamOf (k.record bs (n, e)).txs =
      streamOf start.txs ++ (offers.take j).flatten ++ bs.take n := by
  rw [streamOf_record, Sink.takes_stream h.before]

/-- A transaction cut short leaves less than all the offers. -/
theorem SinkFailsAt.stream_length_lt {start k : Sink} {offers : List (List Byte)} {j n : Nat}
    {bs : List Byte} {e : Option Byte} (h : SinkFailsAt start offers j bs k n e)
    (hn : n < bs.length) :
    (streamOf (k.record bs (n, e)).txs).length < (streamOf start.txs ++ offers.flatten).length := by
  have htake : offers.take (j + 1) = offers.take j ++ [bs] := by
    rw [List.take_add_one, h.offer, Option.toList_some]
  have hcut : offers.flatten = (offers.take j).flatten ++ bs ++ (offers.drop (j + 1)).flatten := by
    rw [← List.flatten_concat, ← htake, ← List.flatten_append, List.take_append_drop]
  rw [h.stream, hcut]
  simp only [List.length_append, List.length_take]
  omega

/-- A procedure that succeeds has left all that it leaves before an accepting sink. -/
theorem Mirrored.of_ok {s : State} {r a : Ret} (h : Mirrored s r a) (hr : r.failure = none) :
    a = r.withAcceptAll := by
  obtain ⟨offers, -, ans⟩ := h
  cases ans with
  | whole takes same => exact same
  | broken fails result last => cases result ▸ hr

@[simp] theorem Ret.failure_withAcceptAll (r : Ret) : r.withAcceptAll.failure = r.failure := by
  cases r <;> rfl

@[simp] theorem Ret.stream_withAcceptAll (r : Ret) :
    r.withAcceptAll.state.stream = r.state.stream := by
  cases r <;> rfl

/-- Where all the output is in the sink, the failure is the same too, or the sink reported one with
the last byte taken. -/
theorem Mirrored.failure_of_stream_eq {s : State} {r a : Ret} (h : Mirrored s r a)
    (hstream : r.state.stream = a.state.stream) :
    r.failure = a.failure ∨ ∃ c, r.failure = some { kind := .sink, code := c } := by
  obtain ⟨offers, hall, ans⟩ := h
  cases ans with
  | whole takes same => exact .inl (by rw [same, Ret.failure_withAcceptAll])
  | @broken j n bs k' e t fails result last =>
    cases e with
    | some c => exact .inr ⟨c, by rw [result]; rfl⟩
    | none =>
      have hn : n < bs.length := fails.fails.resolve_left fun h => h rfl
      have hlt := fails.stream_length_lt hn
      have ha : a.state.stream = streamOf s.sink.txs ++ offers.flatten :=
        Sink.takes_stream (k := s.withAcceptAll.sink) hall
      rw [← last, ← ha, ← hstream, result] at hlt
      exact absurd hlt (Nat.lt_irrefl _)

/-- RESULT is OK exactly where no failure was met (30_encoding.md R126). -/
theorem resultOf_eq_ok {f : Option Failure} : resultOf f = .ok ↔ f = none := by
  cases f <;> simp

/-- Settles O59: ENC_ANIM completes with the result of its steps, which are mirrored before an
accepting sink. -/
theorem encAnimNoRollback : Obligations.EncAnimNoRollback := by
  intro s t u ht hu
  have mirrored := commandRet_mirrors .encAnim s
  obtain ⟨_, _, rfl⟩ := exec_next ht
  obtain ⟨_, _, rfl⟩ := exec_next hu
  generalize commandRet .encAnim s = r at mirrored
  generalize commandRet .encAnim s.withAcceptAll = a at mirrored
  obtain ⟨x, y, hx, hy, hxy⟩ := mirrored.streams
  refine ⟨⟨x, hx.symm⟩, ?_, fun hok => ?_, fun hall => ?_, fun new j n bs k e hnew hf => ?_⟩
  · show r.state.stream <+: a.state.stream
    rw [hx, hy]
    exact (List.prefix_append_right_inj _).2 hxy
  · have hr : r.failure = none := resultOf_eq_ok.1 hok
    rw [mirrored.of_ok hr]
    exact ⟨by rw [complete_csr_result, Ret.failure_withAcceptAll, hr]; rfl,
      (Ret.stream_withAcceptAll r).symm⟩
  · rcases mirrored.failure_of_stream_eq hall with same | ⟨c, sink⟩
    · exact .inl (by rw [complete_csr_result, complete_csr_result, same])
    · exact .inr (by rw [complete_csr_result, sink]; rfl)
  · obtain ⟨t, rfl, last⟩ := mirrored.fails hnew hf
    have hstream : streamOf t.sink.txs = _ := last ▸ hf.stream
    exact ⟨rfl, rfl, last, hstream⟩

end Sys2Proof.Machine
end

section
/-!
SUPPORT. The steps of ENC_ANIM before any output: each failure in its order, and, where there is
none, the steps that write (43_frame_animation.md R281–R283).
-/

namespace Sys2Proof.Machine

theorem encodeAnimation_noHeader {a : Nat} {s : State} (h : readHeader a s = none) :
    encodeAnimation a s = .fail (.plain .imemRange) s := by
  simp only [encodeAnimation, h]

theorem encodeAnimation_zeroImages {a loop : Nat} {s : State}
    (h : readHeader a s = some (0, loop)) :
    encodeAnimation a s = .fail (.plain .zeroImages) s := by
  simp only [encodeAnimation, h, if_true]

/-- A frame descriptor out of range leaves no canvas (43_frame_animation.md R282). -/
theorem canvas_eq_none {a n i j : Nat} {wh : Nat × Nat} {s : State} (hj : j < n)
    (h : readFrame a (i + j) s = none) : canvas a n i wh s = none := by
  induction n generalizing i j wh with
  | zero => cases hj
  | succ n ih =>
    rw [canvas]
    cases hfd : readFrame a i s with
    | none => rfl
    | some fd =>
      cases j with
      | zero => cases hfd.symm.trans h
      | succ j => exact ih (Nat.lt_of_succ_lt_succ hj) (by rw [Nat.add_right_comm]; exact h)

theorem encodeAnimation_noCanvas {a nf loop : Nat} {s : State}
    (h : readHeader a s = some (nf, loop)) (hne : nf ≠ 0)
    (hc : canvas a nf 0 (0, 0) s = none) :
    encodeAnimation a s = .fail (.plain .imemRange) s := by
  simp only [encodeAnimation, h, hne, if_false, hc]

theorem encodeAnimation_tooLarge {a nf loop w h : Nat} {s : State}
    (hdr : readHeader a s = some (nf, loop)) (hne : nf ≠ 0)
    (hc : canvas a nf 0 (0, 0) s = some (w, h)) (hl : 65536 ≤ w ∨ 65536 ≤ h) :
    encodeAnimation a s = .fail (.plain .logicalSize) s := by
  simp only [encodeAnimation, hdr, hne, if_false, hc, hl, if_true]

/-- With the canvas in range, the first palette is loaded and the output begins
(43_frame_animation.md R283, R284). -/
theorem encodeAnimation_fits {a nf loop w h : Nat} {s : State}
    (hdr : readHeader a s = some (nf, loop)) (hne : nf ≠ 0)
    (hc : canvas a nf 0 (0, 0) s = some (w, h)) (hl : ¬(65536 ≤ w ∨ 65536 ≤ h)) :
    encodeAnimation a s = (loadGlobalPalette a s).andThen (emitAnimation a nf loop w h) := by
  simp only [encodeAnimation, hdr, hne, if_false, hc, hl]

/-- What ENC_ANIM can do: it fails before the first palette, with nothing changed; or the header
names at least one frame, the palette is loaded and the output begins. -/
theorem encodeAnimation_cases (a : Nat) (s : State) :
    (∃ f, encodeAnimation a s = .fail f s) ∨
      ∃ nf loop w h, readHeader a s = some (nf, loop) ∧ nf ≠ 0 ∧
        encodeAnimation a s = (loadGlobalPalette a s).andThen (emitAnimation a nf loop w h) := by
  cases hdr : readHeader a s with
  | none => exact .inl ⟨_, encodeAnimation_noHeader hdr⟩
  | some p =>
    obtain ⟨nf, loop⟩ := p
    by_cases hne : nf = 0
    · subst hne
      exact .inl ⟨_, encodeAnimation_zeroImages hdr⟩
    · cases hc : canvas a nf 0 (0, 0) s with
      | none => exact .inl ⟨_, encodeAnimation_noCanvas hdr hne hc⟩
      | some wh =>
        obtain ⟨w, h⟩ := wh
        by_cases hl : 65536 ≤ w ∨ 65536 ≤ h
        · exact .inl ⟨_, encodeAnimation_tooLarge hdr hne hc hl⟩
        · exact .inr ⟨nf, loop, w, h, rfl, hne, encodeAnimation_fits hdr hne hc hl⟩

/-- A bound that a running maximum reaches is reached by its start or by one of the values. -/
theorem le_foldl_max {α : Type} (f : α → Nat) (b : Nat) (l : List α) (m : Nat) :
    b ≤ l.foldl (fun m x => max m (f x)) m ↔ b ≤ m ∨ ∃ x ∈ l, b ≤ f x := by
  induction l generalizing m with
  | nil => simp
  | cons x l ih =>
    have hmax : b ≤ max m (f x) ↔ b ≤ m ∨ b ≤ f x := by omega
    simp only [List.foldl_cons, ih, hmax, or_assoc, List.mem_cons, or_and_right, exists_or,
      exists_eq_left]

/-- The canvas is too large exactly where a far corner of a frame is (43_frame_animation.md
R271). -/
theorem canvas_tooLarge_iff (frames : List FrameDesc) :
    (65536 ≤ frames.foldl (fun m fd => max m (fd.left + fd.width)) 0 ∨
      65536 ≤ frames.foldl (fun m fd => max m (fd.top + fd.height)) 0) ↔
      ∃ fd ∈ frames, 65536 ≤ fd.left + fd.width ∨ 65536 ≤ fd.top + fd.height := by
  rw [le_foldl_max (fun fd : FrameDesc => fd.left + fd.width),
    le_foldl_max (fun fd : FrameDesc => fd.top + fd.height)]
  simp only [Nat.le_zero_eq, Nat.reduceEqDiff, false_or, and_or_left, exists_or]

/-- A first palette that cannot be encoded clears the GCT (43_frame_animation.md R283). -/
theorem loadGlobalPalette_fail {a : Nat} {s : State} {fd : FrameDesc} {k : FailKind}
    (hread : readFrame a 0 s = some fd) (h : palEncode fd.palAddr s = .fail k) :
    loadGlobalPalette a s = .fail (.plain k) { s with gct := .cleared } := by
  simp only [loadGlobalPalette, hread, h, gctLoad]

/-- The state in which the steps of ENC_ANIM begin: both counts at 0 (43_frame_animation.md
R280). -/
def State.counting (s : State) : State := { s with seq.accepted := 0, seq.framesDone := 0 }

/-- ENC_ANIM is the completion of its steps (43_frame_animation.md R289). -/
theorem exec_encAnim_eq (s : State) : exec .encAnim s =
    .next ((encodeAnimation s.argA s.counting).state.complete
      (encodeAnimation s.argA s.counting).failure
      (countWord (encodeAnimation s.argA s.counting).state.seq.accepted)
      (countWord (encodeAnimation s.argA s.counting).state.seq.framesDone)) := rfl

/-- A failure of ENC_ANIM with nothing sent and no frame done: RES0 and RES1 are 0
(43_frame_animation.md R289). -/
theorem exec_encAnim_fail {s t : State} {f : Failure}
    (h : encodeAnimation s.argA s.counting = .fail f t.counting) :
    exec .encAnim s = .next (t.complete (some f) 0 0) := by
  rw [exec_encAnim_eq, h]
  rfl

/-- Settles O53: each failure is the first that the steps meet; what they leave is the state with
the counts at 0, but for the GCT. -/
theorem encAnimPreflight : Obligations.EncAnimPreflight := by
  intro s
  refine ⟨fun hdr => ?_, fun loop hdr => ?_, fun nf loop i hdr hi hread => ?_,
    fun frames loop hne hdr hread => ?_⟩
  · exact exec_encAnim_fail (encodeAnimation_noHeader (s := s.counting) hdr)
  · exact exec_encAnim_fail (encodeAnimation_zeroImages (s := s.counting) hdr)
  · exact exec_encAnim_fail (encodeAnimation_noCanvas (s := s.counting) hdr (Nat.ne_zero_of_lt hi)
      (canvas_eq_none hi (by rw [Nat.zero_add]; exact hread)))
  · have hn : frames.length ≠ 0 := fun h0 => hne (List.length_eq_zero_iff.1 h0)
    have hcanvas := canvas_eq (a := s.argA) (i := 0) (w := 0) (h := 0)
      (s := s.counting)
      fun j fd hfd => by rw [Nat.zero_add]; exact hread j fd hfd
    refine ⟨fun hlarge => ?_, fun hsmall fd k hfirst hpal => ?_⟩
    · exact exec_encAnim_fail (encodeAnimation_tooLarge (s := s.counting) hdr hn hcanvas
        ((canvas_tooLarge_iff frames).2 hlarge))
    · have hfits : ¬∃ fd ∈ frames, 65536 ≤ fd.left + fd.width ∨ 65536 ≤ fd.top + fd.height := by
        rintro ⟨g, hg, hl⟩
        have := hsmall g hg
        omega
      have hrun := encodeAnimation_fits (s := s.counting) hdr hn hcanvas
        (mt (canvas_tooLarge_iff frames).1 hfits)
      rw [loadGlobalPalette_fail (s := s.counting) (hread 0 fd hfirst) hpal] at hrun
      exact exec_encAnim_fail hrun

end Sys2Proof.Machine
end

section
/-!
SUPPORT. The lengths of the output items and of the whole stream (30_encoding.md R151–R159,
43_frame_animation.md R292).
-/

namespace Sys2Proof.Machine

@[simp] theorem u16le_length (v : Nat) : (u16le v).length = 2 := rfl
@[simp] theorem signatureItem_length : signatureItem.length = 6 := rfl
@[simp] theorem lsdItem_length (w h bits : Nat) : (lsdItem w h bits).length = 7 := rfl
@[simp] theorem loopExtItem_length (loop : Nat) : (loopExtItem loop).length = 19 := rfl
@[simp] theorem gceItem_length (delay : Nat) : (gceItem delay).length = 8 := rfl
@[simp] theorem imageItem_length (fd : FrameDesc) (lit : Nat) :
    (imageItem fd lit).length = 11 := rfl
@[simp] theorem trailerItem_length : trailerItem.length = 1 := rfl

/-- Sub-blocks add a length byte for each 255 data bytes or part of them, and the terminator
(30_encoding.md R158). -/
theorem subBlocksFuel_length {fuel : Nat} {bs : List Byte} (h : bs.length ≤ fuel) :
    (subBlocksFuel fuel bs).length = bs.length + (bs.length + 254) / 255 + 1 := by
  induction fuel generalizing bs with
  | zero =>
    obtain rfl := List.length_eq_zero_iff.1 (Nat.le_zero.1 h)
    rfl
  | succ fuel ih =>
    rw [subBlocksFuel]
    split
    · next hnil => subst hnil; rfl
    · next hne =>
      have hpos := List.length_pos_iff.2 hne
      rw [List.length_append, List.length_cons, List.length_take,
        ih (by rw [List.length_drop]; omega), List.length_drop]
      omega

theorem subBlocks_length (bs : List Byte) :
    (subBlocks bs).length = bs.length + (bs.length + 254) / 255 + 1 :=
  subBlocksFuel_length (Nat.le_refl _)

/-- The length of the block of one frame (43_frame_animation.md R292). -/
theorem frameBlock_length (lit : Nat) (fd : FrameDesc) (data : List Byte) :
    (frameBlock lit fd data).length = (if fd.delay = 0 then 0 else 8) + 11 + data.length +
      (data.length + 254) / 255 + 1 := by
  have hgce : (frameGce fd).length = if fd.delay = 0 then 0 else 8 := by
    unfold frameGce
    split <;> simp
  rw [frameBlock, List.length_append, List.length_append, subBlocks_length, hgce, imageItem_length]
  omega

theorem gifBlocks_length (bits : Nat) (frames : List FrameDesc) (datas : List (List Byte)) :
    (gifBlocks bits frames datas).length = (List.zipWith (fun (fd : FrameDesc) (d : List Byte) =>
      (if fd.delay = 0 then 0 else 8) + 11 + d.length + (d.length + 254) / 255 + 1)
      frames datas).sum := by
  rw [gifBlocks, List.length_flatten, List.map_zipWith]
  simp only [frameBlock_length]

theorem gifHead_length (frames : List FrameDesc) (loop w h bits : Nat) (bytes : List Byte) :
    (gifHead frames loop w h bits bytes).length =
      6 + 7 + bytes.length + if 1 < frames.length then 19 else 0 := by
  have hloop : (if 1 < frames.length then loopExtItem loop else []).length =
      if 1 < frames.length then 19 else 0 := by
    split <;> simp
  rw [gifHead, List.length_append, List.length_append, List.length_append, hloop,
    signatureItem_length, lsdItem_length]

/-- The first palette's table of an animation has 3 × 2^bits bytes (40_helpers.md R183). -/
theorem AnimationRead.table_length {s : State} {frames : List FrameDesc} {loop w h bits : Nat}
    {bytes : List Byte} (hv : AnimationRead s frames loop w h bits bytes) :
    bytes.length = 3 * 2 ^ bits := by
  obtain ⟨fd, fds, rfl⟩ := List.exists_cons_of_ne_nil hv.nonempty
  exact (palEncode_table (hv.first fd rfl)).2.2

/-- Settles O55: the stream grows by the items of the grammar, each of its length. -/
theorem encAnimLength : Obligations.EncAnimLength := by
  intro s frames loop w h bits bytes hv hacc
  obtain ⟨t, hrun, hstream, hok, -⟩ :=
    encAnimWritesStream s frames loop w h bits bytes _ hv hacc rfl
  refine ⟨t, hrun, hok, ?_⟩
  rw [hstream, List.length_append, gifStream, List.length_append, List.length_append,
    gifHead_length, hv.toAnimationRead.table_length, gifBlocks_length, trailerItem_length]

end Sys2Proof.Machine
end

section
/-!
SUPPORT. What the procedures of ENC_ANIM add to its two counts: every byte the sink takes is counted
in cmd_accepted (20_memory.md R90), and every frame encoded in frames_done
(43_frame_animation.md R287, R289).
-/

namespace Sys2Proof.Machine

/-! ### Counted results -/

/-- The sink and both counts of ENC_ANIM are as they were. -/
structure SameCounts (s t : State) : Prop where
  sink       : t.sink = s.sink
  accepted   : t.seq.accepted = s.seq.accepted
  framesDone : t.seq.framesDone = s.seq.framesDone

/-- The result of a procedure that encodes `n` frames from `s`: the bytes it added to the stream are
counted, at most `n` frames are, and on success all of them. -/
structure Counted (s : State) (n : Nat) (r : Ret) : Prop where
  bytes  : ∃ out, Sends s out r.state
  atMost : r.state.seq.framesDone ≤ s.seq.framesDone + n
  whole  : r.failure = none → r.state.seq.framesDone = s.seq.framesDone + n

/-- What touches neither the sink nor the counts encodes no frame. -/
theorem Counted.silent {s : State} {r : Ret} (h : SameCounts s r.state) : Counted s 0 r :=
  ⟨⟨[], .nothing h.sink h.accepted⟩, Nat.le_of_eq h.framesDone, fun _ => h.framesDone⟩

/-- The frames of a sequence are those of its parts. -/
theorem Counted.andThen {s : State} {m n k : Nat} {r : Ret} {next : State → Ret}
    (h : Counted s m r) (hn : ∀ t, Counted t n (next t)) (total : m + n = k) :
    Counted s k (r.andThen next) := by
  subst total
  cases r with
  | fail f t =>
    exact ⟨h.bytes, Nat.le_trans h.atMost (Nat.add_le_add_left (Nat.le_add_right m n) _), nofun⟩
  | ok t =>
    obtain ⟨first, sends⟩ := h.bytes
    obtain ⟨⟨second, sends'⟩, atMost, whole⟩ := hn t
    have done : t.seq.framesDone = s.seq.framesDone + m := h.whole rfl
    rw [done, Nat.add_assoc] at atMost whole
    exact ⟨⟨first ++ second, sends.trans sends'⟩, atMost, whole⟩

/-- A first part that encodes no frame. -/
theorem Counted.before {s : State} {n : Nat} {r : Ret} {next : State → Ret} (h : Counted s 0 r)
    (hn : ∀ t, Counted t n (next t)) : Counted s n (r.andThen next) :=
  h.andThen hn (Nat.zero_add n)

/-- A procedure that starts from a state changed in neither the sink nor the counts. -/
theorem Counted.after {s t : State} {n : Nat} {p : State → Ret} (h : SameCounts s t)
    (hp : ∀ t, Counted t n (p t)) : Counted s n (p t) :=
  (Counted.silent (r := .ok t) h).before hp

/-- Changes of what a procedure leaves, the sink and the counts excepted. -/
theorem Counted.leaving {s : State} {n : Nat} {r : Ret} {good : State → State}
    {bad : Failure → State → State} (h : Counted s n r) (hg : ∀ t, SameCounts t (good t))
    (hb : ∀ f t, SameCounts t (bad f t)) : Counted s n (r.leaving good bad) := by
  have adjust : ∀ {x y : State}, SameCounts x y → (∃ out, Sends s out x) →
      ∃ out, Sends s out y := fun hxy ⟨out, sends⟩ =>
    ⟨out ++ [], sends.trans (.nothing hxy.sink hxy.accepted)⟩
  obtain ⟨bytes, atMost, whole⟩ := h
  cases r with
  | ok t =>
    exact ⟨adjust (hg t) bytes, Nat.le_trans (Nat.le_of_eq (hg t).framesDone) atMost,
      fun _ => (hg t).framesDone.trans (whole rfl)⟩
  | fail f t =>
    exact ⟨adjust (hb f t) bytes, Nat.le_trans (Nat.le_of_eq (hb f t).framesDone) atMost, nofun⟩

/-! ### The writer and the LZW unit -/

/-- A transaction counts the bytes the sink takes, whatever the answer (20_memory.md R90). -/
theorem sinkWrite_counted (bs : List Byte) (s : State) : Counted s 0 (sinkWrite bs s) := by
  have sends : Sends s (bs.take (s.sink.answer bs.length).1) (sinkWrite bs s).state := by
    rw [sinkWrite_state]
    refine ⟨streamOf_record _ _ _, ?_⟩
    rw [List.length_take, Nat.min_eq_left (s.sink.answer_le _)]
  have done := (sinkWrite_frame bs s).framesDone
  exact ⟨⟨_, sends⟩, Nat.le_of_eq done, fun _ => done⟩

theorem sbwSinkWrite_counted (bs : List Byte) (s : State) : Counted s 0 (sbwSinkWrite bs s) := by
  rw [sbwSinkWrite_eq]
  exact (sinkWrite_counted bs s).leaving (fun _ => ⟨rfl, rfl, rfl⟩) fun _ _ => ⟨rfl, rfl, rfl⟩

theorem sbwFlushFull_counted (s : State) : Counted s 0 (sbwFlushFull s) :=
  (sbwSinkWrite_counted _ s).before fun _ => .silent ⟨rfl, rfl, rfl⟩

theorem sbwPut_counted (b : Byte) (s : State) : Counted s 0 (sbwPut b s) := by
  cases hc : sbwCheck s with
  | some f =>
    simp only [sbwPut, hc]
    exact .silent ⟨rfl, rfl, rfl⟩
  | none =>
    rw [sbwPut_writable (sbwCheck_none.1 hc)]
    split
    · exact .after ⟨rfl, rfl, rfl⟩ sbwFlushFull_counted
    · exact .silent ⟨rfl, rfl, rfl⟩

theorem sbwClose_counted (s : State) : Counted s 0 (sbwClose s) := by
  unfold sbwClose
  split
  · exact .silent ⟨rfl, rfl, rfl⟩
  · exact (sbwSinkWrite_counted _ s).before fun _ => .silent ⟨rfl, rfl, rfl⟩

theorem lzwPut_counted (b : Byte) (s : State) : Counted s 0 (lzwPut b s) := by
  rw [lzwPut_eq]
  exact (sbwPut_counted b s).leaving (fun _ => ⟨rfl, rfl, rfl⟩) fun _ _ => ⟨rfl, rfl, rfl⟩

/-- The unit reaches the sink by the bytes it puts alone (42_lzw.md R232). -/
theorem LzwProc.counted {p : State → Ret} (h : LzwProc p) (s : State) : Counted s 0 (p s) := by
  induction h generalizing s with
  | done => exact .silent ⟨rfl, rfl, rfl⟩
  | stop f g => exact .silent ⟨rfl, rfl, rfl⟩
  | put b => exact lzwPut_counted b s
  | update g _ ih => exact .after (t := { s with lzw := g s.lzw }) ⟨rfl, rfl, rfl⟩ ih
  | branch q _ same ih =>
    rw [same]
    exact ih s.lzw s
  | andThen _ _ ihp ihq => exact (ihp s).before ihq

/-! ### CTRL -/

theorem encodeRows_counted (fd : FrameDesc) (n r : Nat) (s : State) :
    Counted s 0 (encodeRows fd n r s) := by
  induction n generalizing r s with
  | zero => exact .silent ⟨rfl, rfl, rfl⟩
  | succ n ih =>
    rw [encodeRows]
    split
    · exact .silent ⟨rfl, rfl, rfl⟩
    · exact ((LzwProc.lzwWrite _).counted s).before (ih (r + 1))

theorem frameEncode_counted (fd : FrameDesc) (lit : Nat) (s : State) :
    Counted s 0 (frameEncode fd lit s) :=
  (sinkWrite_counted (imageItem fd lit) s).before fun s1 =>
    (Counted.after (s := s1) (t := lzwOpen lit (sbwOpen s1)) ⟨rfl, rfl, rfl⟩
      (encodeRows_counted fd fd.height 0)).before fun s2 =>
        (LzwProc.lzwClose.counted s2).before sbwClose_counted

theorem emitGce_counted (delay : Nat) (s : State) : Counted s 0 (emitGce delay s) := by
  unfold emitGce
  split
  · exact .silent ⟨rfl, rfl, rfl⟩
  · exact sinkWrite_counted _ s

theorem emitLoopExt_counted (nf loop : Nat) (s : State) :
    Counted s 0 (emitLoopExt nf loop s) := by
  unfold emitLoopExt
  split
  · exact sinkWrite_counted _ s
  · exact .silent ⟨rfl, rfl, rfl⟩

theorem checkPalette_counted (p : Nat) (s : State) : Counted s 0 (checkPalette p s) :=
  .silent (by rw [checkPalette_state]; exact ⟨rfl, rfl, rfl⟩)

/-- The end of a round counts the frame (43_frame_animation.md R287). -/
theorem frameDone_counted (s : State) :
    Counted s 1 (.ok { s with seq.framesDone := s.seq.framesDone + 1 }) :=
  ⟨⟨[], .nothing rfl rfl⟩, Nat.le_refl _, fun _ => rfl⟩

/-- A round that fails counts no frame, the others one (43_frame_animation.md R287). -/
theorem encodeFrame_counted (a i lit : Nat) (s : State) :
    Counted s 1 (encodeFrame a i lit s) := by
  unfold encodeFrame
  split
  · exact ⟨⟨[], .nothing rfl rfl⟩, Nat.le_succ _, nofun⟩
  · exact (emitGce_counted _ s).before fun s1 => (checkPalette_counted _ s1).before fun s2 =>
      (frameEncode_counted _ lit s2).before frameDone_counted

theorem encodeFrames_counted (a lit n i : Nat) (s : State) :
    Counted s n (encodeFrames a lit n i s) := by
  induction n generalizing i s with
  | zero => exact .silent ⟨rfl, rfl, rfl⟩
  | succ n ih => exact (encodeFrame_counted a i lit s).andThen (ih (i + 1)) (Nat.add_comm 1 n)

theorem emitAnimation_counted (a nf loop w h : Nat) (s : State) :
    Counted s nf (emitAnimation a nf loop w h s) :=
  (sinkWrite_counted signatureItem s).before fun s1 =>
    (sinkWrite_counted (lsdItem w h s.gct.bits) s1).before fun s2 =>
      (sinkWrite_counted s2.gctTable s2).before fun s3 =>
        (emitLoopExt_counted nf loop s3).before fun s4 =>
          (encodeFrames_counted a (literalWidth s.gct.bits) nf 0 s4).andThen
            (sinkWrite_counted trailerItem) (Nat.add_zero nf)

theorem loadGlobalPalette_counted (a : Nat) (s : State) :
    Counted s 0 (loadGlobalPalette a s) := by
  unfold loadGlobalPalette
  split
  · exact .silent ⟨rfl, rfl, rfl⟩
  · split <;> exact .silent ⟨rfl, rfl, rfl⟩

/-- The counts of ENC_ANIM: nothing where it fails before any output, else those of the frames the
header names. -/
theorem encodeAnimation_counted (a : Nat) (s : State) :
    (∃ f, encodeAnimation a s = .fail f s) ∨
      ∃ nf loop, readHeader a s = some (nf, loop) ∧ nf ≠ 0 ∧
        Counted s nf (encodeAnimation a s) := by
  rcases encodeAnimation_cases a s with early | ⟨nf, loop, w, h, hdr, hne, hrun⟩
  · exact .inl early
  · rw [hrun]
    exact .inr ⟨nf, loop, hdr, hne,
      (loadGlobalPalette_counted a s).before (emitAnimation_counted a nf loop w h)⟩

/-- Settles O57: the steps of ENC_ANIM count the bytes they add and the frames they encode, of which
there are at most NFRAMES. -/
theorem encAnimCounts : Obligations.EncAnimCounts := by
  intro s t ht
  cases (exec_encAnim_eq s).symm.trans ht
  rcases encodeAnimation_counted s.argA s.counting with
    ⟨f, early⟩ | ⟨nf, loop, hdr, hne, ⟨new, sends⟩, atMost, whole⟩
  · rw [early]
    refine ⟨[], 0, (List.append_nil _).symm, rfl, rfl, ?_, fun _ => rfl,
      fun _ _ _ => Nat.zero_le _, nofun⟩
    exact (congrArg (·.state.seq.framesDone) early).symm
  · have hdr : readHeader s.argA s = some (nf, loop) := hdr
    have atMost : (encodeAnimation s.argA s.counting).state.seq.framesDone ≤ nf :=
      Nat.le_trans atMost (Nat.le_of_eq (Nat.zero_add nf))
    refine ⟨new, (encodeAnimation s.argA s.counting).state.seq.framesDone, sends.stream, ?_, ?_,
      rfl, fun hnone => ?_, fun nf' loop' hdr' => ?_, fun hok => ⟨loop, ?_⟩⟩
    · rw [complete_csr_res0, sends.accepted]
      exact congrArg countWord (Nat.zero_add _)
    · exact countWord_of_lt (Nat.lt_of_le_of_lt atMost (readHeader_frames_lt hdr))
    · cases hnone.symm.trans hdr
    · cases hdr'.symm.trans hdr
      exact atMost
    · have done : (encodeAnimation s.argA s.counting).state.seq.framesDone = nf :=
        (whole (resultOf_eq_ok.1 hok)).trans (Nat.zero_add nf)
      rw [done]
      exact ⟨hdr, Nat.one_le_iff_ne_zero.2 hne⟩

end Sys2Proof.Machine
end

section
/-!
SUPPORT. Every command completes (60_exceptions.md R312, 70_reset_and_hazards.md R345).
-/

namespace Sys2Proof.Machine

/-- A completion always writes a result code: NONE is left by reset alone (30_encoding.md R126). -/
theorem resultOf_ne_noneYet (f : Option Failure) : resultOf f ≠ .noneYet := by
  cases f <;> nofun

/-- Settles O18: a command is the completion of its engine procedure, whatever that returned. -/
theorem everyCommandCompletes : Obligations.EveryCommandCompletes := by
  intro i s
  obtain ⟨a, b, hexec⟩ := exec_eq i s
  exact ⟨_, hexec, rfl, rfl, resultOf_ne_noneYet _⟩

end Sys2Proof.Machine
end

section
/-!
SUPPORT. The bytes handed to a fresh writer as its full units and the rest it buffers, and a run of
the LZW unit before any sink as the transactions of those units (41_subblock_writer.md R206,
42_lzw.md R237–R246).
-/

namespace Sys2Proof.Machine

/-! ### Full units and a rest -/

/-- Whole units and a rest too short for another are the units and the rest of their bytes. -/
theorem units_of_flatten {us : List (List Byte)} (hu : ∀ u ∈ us, u.length = 255)
    {rest bs : List Byte} (hr : rest.length ≤ 254) (hbs : us.flatten ++ rest = bs) :
    fullUnits bs = us.map (255 :: ·) ∧ unitRest bs = rest := by
  subst hbs
  have hlen := flatten_length_of_units hu
  have hcount : (us.flatten ++ rest).length / 255 = us.length := by
    rw [List.length_append, hlen]
    omega
  have hdata : unitData us.length (us.flatten ++ rest) = us := by
    refine List.eq_iff_flatten_eq.2 ⟨?_, ?_⟩
    · rw [unitData_flatten, ← hlen, List.take_left]
    · have hus : us.map List.length = List.replicate us.length 255 :=
        List.eq_replicate_iff.2 ⟨List.length_map .., by simpa using hu⟩
      rw [hus]
      refine List.eq_replicate_iff.2 ⟨by simp [unitData], ?_⟩
      simpa using unitData_length_eq (Nat.le_of_eq hcount.symm)
  refine ⟨?_, ?_⟩
  · have htake := fullUnits_take (Nat.le_refl ((us.flatten ++ rest).length / 255))
    rw [hcount, hdata] at htake
    have hall : (fullUnits (us.flatten ++ rest)).length = us.length := by
      rw [fullUnits, List.length_map, List.length_range, hcount]
    rw [← htake, List.take_of_length_le (Nat.le_of_eq hall)]
  · rw [unitRest, hcount, ← hlen, List.drop_left]

/-- What an empty writer was handed is in the sink as its full units, and the rest is buffered. -/
theorem Handed.units_rest {s t : State} {bs : List Byte} (h : Handed s bs t)
    (hs : s.sbw = { st := .writable, data := [] }) :
    t.sbw = { st := .writable, data := unitRest bs } ∧ Sends s (fullUnits bs).flatten t ∧
      ∃ new, t.sink.txs = s.sink.txs ++ new ∧ new.map Tx.offered = fullUnits bs := by
  obtain ⟨us, hlen, htxs, hdata, hacc⟩ := h.units
  have hlow : t.sbw.data.length ≤ 254 := h.low (by simp [hs])
  have hst : t.sbw.st = .writable := h.st.trans (congrArg Sbw.st hs)
  rw [hs, List.nil_append] at hdata
  obtain ⟨hunits, hrest⟩ := units_of_flatten hlen hlow hdata
  have hflat : (fullUnits bs).flatten = us.flatMap (255 :: ·) := by
    rw [hunits, List.flatMap_def]
  refine ⟨by rw [hrest, ← hst], ⟨?_, ?_⟩, us.map unitTx, htxs, ?_⟩
  · rw [State.stream, htxs, streamOf_append, streamOf_units hlen, hflat]
    rfl
  · rw [hacc, hflat]
  · rw [List.map_map, hunits]
    rfl

/-! ### Writes in turn -/

theorem LzwProc.lzwWriteEach (pieces : List (List Byte)) : LzwProc (lzwWriteEach pieces) := by
  induction pieces with
  | nil => exact .done
  | cons p ps ih => exact (LzwProc.lzwWrite p).andThen ih

theorem lzwWriteEach_frame (pieces : List (List Byte)) (s : State) :
    LzwFrame s (lzwWriteEach pieces s).state := by
  induction pieces generalizing s with
  | nil => exact .refl s
  | cons p ps ih =>
    exact Ret.andThen_rel (R := LzwFrame) LzwFrame.trans (lzwWrite_frame p s) fun s' _ => ih s'

/-- Whatever state the pieces are written from, a fresh unit hands over the data of `lzwPartData`
and is left as it is there (42_lzw.md R237). -/
theorem lzwPartData_yields {lit : Nat} {pieces : List (List Byte)}
    (hfit : ∀ p ∈ pieces, literalsFit lit p = true) (s : State) :
    Yields (lzwWriteEach pieces) (lzwOpen lit s).lzw (lzwPartData lit pieces s)
      (lzwWriteEach pieces (freshUnits lit s)).state.lzw := by
  obtain ⟨bs, v, hv⟩ := lzwWriteEach_determined pieces (lzwOpen lit s).lzw
  obtain ⟨t, ht, -, -⟩ := lzwWriteEach_ready (s := freshUnits lit s) ⟨rfl, rfl, rfl⟩ rfl hfit
  obtain ⟨hlzw, -, handed⟩ := hv (freshUnits lit s) t rfl ht
  have hdata : lzwPartData lit pieces s = bs := by
    rw [lzwPartData, ht]
    exact handed.payload
  rw [hdata, ht, Ret.state_ok, hlzw]
  exact hv

end Sys2Proof.Machine
end

section
/-!
SUPPORT. ENC_ANIM up to a frame with a failure of its own, before a sink that accepts everything: a
palette that is not the global one, and a row out of range or with a byte that is no literal
(43_frame_animation.md R274, R287, 60_exceptions.md R315 items 6, 7).
-/

namespace Sys2Proof.Machine

/-! ### Loops in two parts -/

theorem encodeRows_add (fd : FrameDesc) (m n r : Nat) (s : State) :
    encodeRows fd (m + n) r s = (encodeRows fd m r s).andThen (encodeRows fd n (r + m)) := by
  induction m generalizing r s with
  | zero => rw [Nat.zero_add]; rfl
  | succ m ih =>
    rw [Nat.succ_add, encodeRows, encodeRows]
    cases readRow fd r s with
    | none => rfl
    | some row =>
      dsimp only
      rw [Ret.andThen_assoc]
      exact congrArg _ (funext fun t => by rw [ih, Nat.add_right_comm, Nat.add_assoc])

theorem encodeFrames_add (a lit m n i : Nat) (s : State) :
    encodeFrames a lit (m + n) i s =
      (encodeFrames a lit m i s).andThen (encodeFrames a lit n (i + m)) := by
  induction m generalizing i s with
  | zero => rw [Nat.zero_add]; rfl
  | succ m ih =>
    rw [Nat.succ_add, encodeFrames, encodeFrames, Ret.andThen_assoc]
    exact congrArg _ (funext fun t => by rw [ih, Nat.add_right_comm, Nat.add_assoc])

/-! ### Up to the first frame, and up to a frame's palette check -/

/-- Steps 4 to 6 write what stands before the first frame (43_frame_animation.md R284–R286). -/
theorem emitAnimation_head {s₀ s : State} {bits : Nat} {bytes : List Byte}
    (hs : FrameReady s₀ bits bytes s) (a : Nat) (frames : List FrameDesc) (loop w h : Nat) :
    ∃ t, emitAnimation a frames.length loop w h s =
        (encodeFrames a (literalWidth bits) frames.length 0 t).andThen (emit trailerItem) ∧
      FrameReady s₀ bits bytes t ∧ t.seq.framesDone = s.seq.framesDone ∧
      Sends s (gifHead frames loop w h bits bytes) t := by
  obtain ⟨s1, h1, ready1, sends1, frame1, -⟩ := hs.emit signatureItem
  obtain ⟨s2, h2, ready2, sends2, frame2, -⟩ := ready1.emit (lsdItem w h bits)
  obtain ⟨s3, h3, ready3, sends3, frame3, -⟩ := ready2.emit bytes
  obtain ⟨s4, h4, ready4, sends4, frame4⟩ :=
    ready3.emitIf (1 < frames.length) (loopExtItem loop)
  refine ⟨s4, ?_, ready4, ?_, ((sends1.trans sends2).trans sends3).trans sends4⟩
  · unfold emitAnimation
    rw [hs.bits]
    dsimp only
    rw [h1, Ret.andThen_ok, h2, Ret.andThen_ok, ready2.table, h3, Ret.andThen_ok, emitLoopExt,
      h4, Ret.andThen_ok]
  · rw [frame4.framesDone, frame3.framesDone, frame2.framesDone, frame1.framesDone]

/-- The state in which the steps that write begin: both counts at 0, the global palette loaded
(43_frame_animation.md R280, R283). -/
theorem AnimationRead.loaded {s : State} {frames : List FrameDesc} {loop w h bits : Nat}
    {bytes : List Byte} (hv : AnimationRead s frames loop w h bits bytes)
    (hacc : s.sink.accepting) :
    FrameReady s bits bytes (gctLoad (.table bits bytes) s.counting) :=
  ⟨rfl, rfl, rfl, gctLoad_gctTable hv.table_length, rfl, hacc⟩

/-- A round of step 7 once the GCE is out (43_frame_animation.md R287). -/
theorem encodeFrame_gce {s₀ s : State} {bits : Nat} {bytes : List Byte}
    (h : FrameReady s₀ bits bytes s) {a i : Nat} {fd : FrameDesc}
    (hread : readFrame a i s₀ = some fd) (lit : Nat) :
    ∃ t, encodeFrame a i lit s = (checkPalette fd.palAddr t).andThen (fun u =>
        (frameEncode fd lit u).andThen fun v =>
          .ok { v with seq.framesDone := v.seq.framesDone + 1 }) ∧
      FrameReady s₀ bits bytes t ∧ Sends s (frameGce fd) t ∧ SbwFrame s t ∧ t.sbw = s.sbw := by
  rw [encodeFrame, readFrame_congr h.imem h.imemSize, hread]
  dsimp only
  unfold emitGce frameGce
  split
  · exact ⟨s, rfl, h, .nothing rfl rfl, .refl s, rfl⟩
  · obtain ⟨t, ht, ready, sends, frame, sbw⟩ := h.emit (gceItem fd.delay)
    exact ⟨t, by rw [ht, Ret.andThen_ok], ready, sends, frame, sbw⟩

/-! ### A row that stops the loop -/

/-- Row `r` of a frame stops the row loop with the failure `kind`, the LZW unit left in the state
`st`: it is out of range, or it has a byte that is no literal (43_frame_animation.md R274,
42_lzw.md R238). -/
def RowStops (s : State) (lit : Nat) (fd : FrameDesc) (r : Nat) (kind : FailKind) (st : LzwSt) :
    Prop :=
  readRow fd r s = none ∧ kind = .imemRange ∧ st = .opened ∨
    (∃ row, readRow fd r s = some row ∧ literalsFit lit row = false) ∧
      kind = .lzwLiteral ∧ st = .failed { kind := .lzwLiteral, code := 0 }

theorem RowStops.congr {s t : State} (hm : t.imem = s.imem) (hn : t.imemSize = s.imemSize)
    {lit r : Nat} {fd : FrameDesc} {kind : FailKind} {st : LzwSt}
    (h : RowStops s lit fd r kind st) : RowStops t lit fd r kind st := by
  simpa only [RowStops, readRow_congr hm hn] using h

/-- The row loop at such a row, with the unit OPEN (43_frame_animation.md R274). -/
theorem encodeRows_stops {s : State} {fd : FrameDesc} {r : Nat} {kind : FailKind} {st : LzwSt}
    (ho : s.lzw.st = .opened) (h : RowStops s s.lzw.lit fd r kind st) (n : Nat) :
    encodeRows fd (n + 1) r s = .fail (.plain kind) { s with lzw.st := st } := by
  rcases h with ⟨hrow, rfl, rfl⟩ | ⟨⟨row, hrow, hfit⟩, rfl, rfl⟩
  · rw [encodeRows, hrow, ← ho]
  · cases row with
    | nil => simp [literalsFit] at hfit
    | cons b rest =>
      rw [encodeRows, hrow]
      dsimp only
      rw [lzwWrite_unfit ho (by rw [hfit]; decide)]
      rfl

theorem RowsFit.rowsBefore_literals {s : State} {bits n : Nat} {fd : FrameDesc}
    (h : RowsFit s bits fd n) :
    ∀ p ∈ rowsBefore fd n s, literalsFit (literalWidth bits) p = true := by
  intro p hp
  obtain ⟨r, hr, rfl⟩ := List.mem_map.1 hp
  obtain ⟨row, hrow, hfit⟩ := h r (List.mem_range.1 hr)
  rw [hrow]
  exact hfit

/-- The row loop of fresh units up to such a row: the full units of the rows before it are out, the
other bytes of those rows are buffered (43_frame_animation.md R272, R274). -/
theorem encodeRows_fresh_stops {s₀ s : State} (hm : s.imem = s₀.imem)
    (hn : s.imemSize = s₀.imemSize) (ha : s.sink.accepting)
    (hw : s.sbw = { st := .writable, data := [] }) {bits r : Nat}
    (hl : s.lzw = (lzwOpen (literalWidth bits) s₀).lzw) {fd : FrameDesc} (hr : r < fd.height)
    (hrows : RowsFit s₀ bits fd r) {kind : FailKind} {st : LzwSt}
    (hstop : RowStops s₀ (literalWidth bits) fd r kind st) :
    ∃ t, encodeRows fd fd.height 0 s = .fail (.plain kind) t ∧
      Sends s (fullUnits (lzwPartData (literalWidth bits) (rowsBefore fd r s₀) s₀)).flatten t ∧
      t.sbw = { st := .writable,
                data := unitRest (lzwPartData (literalWidth bits) (rowsBefore fd r s₀) s₀) } ∧
      t.lzw = { (lzwWriteEach (rowsBefore fd r s₀)
        (freshUnits (literalWidth bits) s₀)).state.lzw with st := st } := by
  have same : ∀ q, readRow fd q s = readRow fd q s₀ := readRow_congr hm hn fd
  have hlit : s.lzw.lit = literalWidth bits := congrArg Lzw.lit hl
  obtain ⟨t, ht, -, opened, lit⟩ := encodeRows_ready fd r 0 (s := s)
    ⟨congrArg Sbw.st hw, ha⟩ (congrArg Lzw.st hl) fun q _ hq => by
      rw [same, hlit]
      exact hrows q (by omega)
  have hwrite := encodeRows_eq fd r 0 s fun q _ hq => by
    obtain ⟨row, hrow, -⟩ := hrows q (by omega)
    exact ⟨row, by rw [same, hrow]⟩
  simp only [same, ← List.range_eq_range'] at hwrite
  have hframe := encodeRows_frame fd r 0 s
  rw [ht] at hframe
  obtain ⟨lzwT, -, handed⟩ := lzwPartData_yields hrows.rowsBefore_literals s₀ s t hl
    (hwrite.symm.trans ht)
  obtain ⟨writer, sends, -⟩ := handed.units_rest hw
  obtain ⟨rest, hrest⟩ := Nat.exists_eq_add_of_lt hr
  have hstop : RowStops t t.lzw.lit fd r kind st := by
    rw [lit, hlit]
    exact hstop.congr (hframe.imem.trans hm) (hframe.imemSize.trans hn)
  refine ⟨{ t with lzw.st := st }, ?_, ⟨sends.stream, sends.accepted⟩, writer, by rw [← lzwT]⟩
  rw [hrest, Nat.add_assoc, encodeRows_add, ht, Ret.andThen_ok, Nat.zero_add]
  exact encodeRows_stops opened hstop rest

/-- FrameEncode up to such a row, after the image descriptor (43_frame_animation.md R272). -/
theorem FrameReady.frameEncode_stops {s₀ s : State} {bits : Nat} {bytes : List Byte}
    (h : FrameReady s₀ bits bytes s) {r : Nat} {fd : FrameDesc} (hr : r < fd.height)
    (hrows : RowsFit s₀ bits fd r) {kind : FailKind} {st : LzwSt}
    (hstop : RowStops s₀ (literalWidth bits) fd r kind st) :
    ∃ t, frameEncode fd (literalWidth bits) s = .fail (.plain kind) t ∧
      Sends s (imageItem fd (literalWidth bits) ++
        (fullUnits (lzwPartData (literalWidth bits) (rowsBefore fd r s₀) s₀)).flatten) t ∧
      t.sbw = { st := .writable,
                data := unitRest (lzwPartData (literalWidth bits) (rowsBefore fd r s₀) s₀) } ∧
      t.lzw = { (lzwWriteEach (rowsBefore fd r s₀)
        (freshUnits (literalWidth bits) s₀)).state.lzw with st := st } := by
  obtain ⟨s1, h1, ready1, sends1, -, -⟩ := h.emit (imageItem fd (literalWidth bits))
  obtain ⟨t, ht, sends, writer, unit⟩ := encodeRows_fresh_stops
    (s := lzwOpen (literalWidth bits) (sbwOpen s1)) ready1.imem ready1.imemSize ready1.accepting rfl
    rfl hr hrows hstop
  refine ⟨t, ?_, sends1.trans ⟨sends.stream, sends.accepted⟩, writer, unit⟩
  rw [frameEncode, h1, Ret.andThen_ok, ht]
  rfl

/-! ### The completions -/

/-- ENC_ANIM that stops with a failure: RES0 counts the bytes sent, RES1 the frames completed
(43_frame_animation.md R289). -/
theorem exec_encAnim_stopped {s t : State} {f : Failure} {out : List Byte} {i : Nat}
    (h : encodeAnimation s.argA s.counting = .fail f t) (sends : Sends s.counting out t)
    (done : t.seq.framesDone = i) (hi : i < 2 ^ 32) :
    exec .encAnim s =
      .next (t.complete (some f) (countWord out.length) (BitVec.ofNat 32 i)) := by
  have hacc : t.seq.accepted = out.length := sends.accepted.trans (Nat.zero_add _)
  rw [exec_encAnim_eq, h, ← countWord_of_lt hi, ← hacc, ← done]
  rfl

/-- The palette check of a palette that has not the global table (40_helpers.md R188,
43_frame_animation.md R287). -/
theorem FrameReady.checkPalette_differs {s₀ s : State} {bits : Nat} {bytes : List Byte}
    (h : FrameReady s₀ bits bytes s) {p : Nat}
    (hp : palEncode p s₀ ≠ .table bits bytes) :
    Machine.checkPalette p s = .fail (.plain (if palEncode p s₀ = .fail .imemRange then .imemRange
      else .differentPalettes)) s := by
  have same : palEncode p s = palEncode p s₀ := palEncode_congr h.imem h.imemSize p
  cases hpal : palEncode p s₀ with
  | fail k =>
    rw [checkPalette_fail (same.trans hpal)]
    simp only [PalResult.fail.injEq]
  | table b tab =>
    rw [checkPalette_table (same.trans hpal), if_neg, if_neg nofun]
    rintro ⟨htab, rfl⟩
    rw [h.bits] at htab
    refine hp ?_
    have hb : b = bits := by
      obtain ⟨-, -, hb⟩ := palEncode_table hpal
      exact (Nat.pow_right_inj (by decide : 1 < 2)).1 (by omega)
    rw [hpal, hb, h.table]

section
variable {s : State} {frames : List FrameDesc} {loop w h bits : Nat}
    {bytes : List Byte} (hv : AnimationRead s frames loop w h bits bytes)
    (hacc : s.sink.accepting) {i : Nat} {fd : FrameDesc} (hi : frames[i]? = some fd)
    (hvalid : ∀ g ∈ frames.take i, FrameValid s bits bytes g) {out : List Byte}
    (hout : out = gifHead frames loop w h bits bytes ++
      gifBlocks bits (frames.take i) (animationDatas (frames.take i) bits s) ++ frameGce fd)
include hv hacc hi hvalid hout

/-- ENC_ANIM has written the frames before number `i` and the GCE of that frame, whose palette
check comes next (43_frame_animation.md R284–R287). -/
theorem encodeAnimation_reachesFrame :
    ∃ t next, encodeAnimation s.argA s.counting = (checkPalette fd.palAddr t).andThen (fun u =>
        (frameEncode fd (literalWidth bits) u).andThen next) ∧
      FrameReady s bits bytes t ∧ (i ≠ 0 → UnitsClosed t) ∧ t.seq.framesDone = i ∧
      Sends s.counting out t := by
  subst hout
  obtain ⟨hlt, -⟩ := List.getElem?_eq_some_iff.1 hi
  have htake : (frames.take i).length = i := List.length_take_of_le (Nat.le_of_lt hlt)
  obtain ⟨s1, h1, ready1, done1, sends1⟩ :=
    emitAnimation_head (hv.loaded hacc) s.argA frames loop w h
  obtain ⟨s2, h2, ready2, closed2, done2, sends2⟩ := encodeFrames_sends ready1
    (a := s.argA) (i := 0) (frames := frames.take i) (fun j g hg => by
      obtain ⟨hj, -⟩ := List.getElem?_eq_some_iff.1 hg
      rw [List.getElem?_take_of_lt (by omega)] at hg
      rw [Nat.zero_add]
      exact hv.read j g hg) hvalid
  obtain ⟨t, h3, ready3, sends3, frame3, sbw3⟩ :=
    encodeFrame_gce ready2 (hv.read i fd hi) (literalWidth bits)
  obtain ⟨rest, hrest⟩ := Nat.exists_eq_add_of_lt hlt
  have sends := (sends1.trans sends2).trans sends3
  have hrun : encodeAnimation s.argA s.counting = _ :=
    (encodeAnimation_valid (s := s.counting) (hv.setSeq _)).trans h1
  rw [htake] at h2
  rw [hrest, Nat.add_assoc, encodeFrames_add, h2, Ret.andThen_ok, Nat.zero_add, encodeFrames,
    h3] at hrun
  simp only [Ret.andThen_assoc] at hrun
  refine ⟨t, _, hrun, ready3, fun hne => ?_, ?_, ⟨sends.stream, sends.accepted⟩⟩
  · have closed := closed2 (.inl (List.ne_nil_of_length_pos (by omega)))
    exact ⟨sbw3.trans closed.sbw, frame3.lzw ▸ closed.lzw⟩
  · rw [frame3.framesDone, done2, done1, htake]
    exact Nat.zero_add i

/-- The palette of frame `i` is not the global one: ENC_ANIM stops after the frame's GCE
(60_exceptions.md R315 item 6). -/
theorem encAnim_otherPalette (hp : palEncode fd.palAddr s ≠ .table bits bytes) :
    ∃ t, exec .encAnim s = .next t ∧ t.csr.result = (
        if palEncode fd.palAddr s = .fail .imemRange then .failed .imemRange
        else .failed .differentPalettes) ∧
      t.csr.sinkCode = 0 ∧ t.stream = s.stream ++ out ∧
      t.csr.res0 = countWord out.length ∧ t.csr.res1 = BitVec.ofNat 32 i ∧
      t.sbw = { st := .closed, data := [] } ∧ t.lzw.st = .closed ∧
      t.gct.valid = true ∧ t.gct.bits = bits ∧ t.gctTable = bytes := by
  obtain ⟨t, next, hrun, ready, closed, done, sends⟩ :=
    encodeAnimation_reachesFrame hv hacc hi hvalid hout
  rw [ready.checkPalette_differs hp, Ret.andThen_fail] at hrun
  obtain ⟨hlt, -⟩ := List.getElem?_eq_some_iff.1 hi
  have closed := closed fun h0 => hp (hv.first fd (h0 ▸ hi))
  refine ⟨_, exec_encAnim_stopped hrun sends done
    (Nat.lt_trans hlt (readHeader_frames_lt hv.header)), ?_, rfl, sends.stream, rfl, rfl,
    closed.sbw, closed.lzw, ready.valid, ready.bits, ready.table⟩
  exact apply_ite Result.failed _ _ _

/-- A row of frame `i` stops its row loop: ENC_ANIM stops after the image descriptor and the full
units of the rows before it (60_exceptions.md R315 item 7). -/
theorem encAnim_badRow {r : Nat} {part : List Byte} {done : Lzw} {kind : FailKind} {st : LzwSt}
    (hp : palEncode fd.palAddr s = .table bits bytes) (hr : r < fd.height)
    (hrows : RowsFit s bits fd r)
    (hpart : part = lzwPartData (literalWidth bits) (rowsBefore fd r s) s)
    (hdone : done = (lzwWriteEach (rowsBefore fd r s)
      (freshUnits (literalWidth bits) s)).state.lzw)
    (hstop : RowStops s (literalWidth bits) fd r kind st) :
    ∃ t new, exec .encAnim s = .next t ∧ t.csr.result = .failed kind ∧
      t.csr.sinkCode = 0 ∧ t.stream = s.stream ++ new ∧
      new = out ++ imageItem fd (literalWidth bits) ++ (fullUnits part).flatten ∧
      t.csr.res0 = countWord new.length ∧ t.csr.res1 = BitVec.ofNat 32 i ∧
      t.sbw = { st := .writable, data := unitRest part } ∧
      t.lzw = { done with st := st } ∧
      t.gct.valid = true ∧ t.gct.bits = bits ∧ t.gctTable = bytes := by
  subst hpart hdone
  obtain ⟨t, next, hrun, ready, -, count, sends⟩ :=
    encodeAnimation_reachesFrame hv hacc hi hvalid hout
  obtain ⟨u, hu, sends', writer, unit⟩ := ready.frameEncode_stops hr hrows hstop
  have frame := frameEncode_frame fd (literalWidth bits) t
  rw [ready.checkPalette hp, Ret.andThen_ok, hu, Ret.andThen_fail] at hrun
  rw [hu, Ret.state_fail] at frame
  have total := sends.trans sends'
  rw [← List.append_assoc] at total
  obtain ⟨hlt, -⟩ := List.getElem?_eq_some_iff.1 hi
  refine ⟨_, _, exec_encAnim_stopped hrun total (frame.framesDone.trans count)
    (Nat.lt_trans hlt (readHeader_frames_lt hv.header)), rfl, rfl, total.stream, rfl, rfl, rfl,
    writer, unit, ?_, ?_, ?_⟩
  · rw [complete_gct, frame.gct, ready.valid]
  · rw [complete_gct, frame.gct, ready.bits]
  · rw [State.gctTable, complete_gct, frame.gct]
    exact ready.table

end

end Sys2Proof.Machine
end

section
/-!
SUPPORT. The steps of ENC_ANIM as the transactions they issue, before any sink: all are taken and
the state goes on, or one of them is the last, and its place says what the units are left with
(43_frame_animation.md R276, R287, 41_subblock_writer.md R201, 42_lzw.md R246,
60_exceptions.md R315 item 8).
-/

namespace Sys2Proof.Machine

/-! ### Where ENC_ANIM is -/

/-- What a valid animation's ENC_ANIM keeps while `i` frames are complete: the IMEM of the start
`s₀`, the global palette and the count. -/
structure Encoding (s₀ : State) (bits : Nat) (bytes : List Byte) (i : Nat) (t : State) : Prop where
  imem     : t.imem = s₀.imem
  imemSize : t.imemSize = s₀.imemSize
  gct      : t.gct = (gctLoad (.table bits bytes) s₀).gct
  done     : t.seq.framesDone = i

/-- The units between frames, `i` of them complete: as they were before the first one, CLOSED after
any (43_frame_animation.md R275). -/
def UnitsBetween (s₀ : State) (i : Nat) (t : State) : Prop :=
  if i = 0 then t.sbw = s₀.sbw ∧ t.lzw = s₀.lzw
  else t.sbw = { st := .closed, data := [] } ∧ t.lzw.st = .closed

/-- Between frames, and up to the image descriptor of the next. -/
structure BetweenFrames (s₀ : State) (bits : Nat) (bytes : List Byte) (i : Nat) (t : State) :
    Prop extends Encoding s₀ bits bytes i t where
  units : UnitsBetween s₀ i t

/-- What the failure `f` of the transaction `x` leaves: a direct write leaves the units alone, a
full unit leaves both FAILED with its bytes buffered, a close leaves the writer FAILED alone
(60_exceptions.md R315 item 8). -/
structure StoppedAt (s₀ : State) (bits : Nat) (bytes : List Byte) (x : SinkItem) (f : Failure)
    (t : State) : Prop extends Encoding s₀ bits bytes x.done t where
  direct : x.part = .direct → UnitsBetween s₀ x.done t
  writer : x.part ≠ .direct → t.sbw.st = .failed f ∧
    if x.part = .fullUnit then t.sbw.data = x.bytes.drop 1 ∧ t.lzw.st = .failed f
    else t.lzw.st = .closed

theorem Encoding.step {s₀ s t : State} {bits i : Nat} {bytes : List Byte}
    (h : Encoding s₀ bits bytes i s) (frame : LzwFrame s t) : Encoding s₀ bits bytes i t :=
  ⟨frame.imem.trans h.imem, frame.imemSize.trans h.imemSize, frame.gct.trans h.gct,
    frame.framesDone.trans h.done⟩

/-- The GCT stays loaded (43_frame_animation.md R283). -/
theorem Encoding.table {s₀ s : State} {bits i : Nat} {bytes : List Byte}
    (h : Encoding s₀ bits bytes i s) (hlen : bytes.length = 3 * 2 ^ bits) :
    s.gct.valid = true ∧ s.gct.bits = bits ∧ s.gctTable = bytes := by
  rw [State.gctTable, h.gct]
  exact ⟨rfl, rfl, gctLoad_gctTable hlen⟩

/-- The palette of a valid frame is the global one (43_frame_animation.md R287). -/
theorem Encoding.checkPalette {s₀ s : State} {bits i : Nat} {bytes : List Byte}
    (h : Encoding s₀ bits bytes i s) {p : Nat} (hp : palEncode p s₀ = .table bits bytes) :
    checkPalette p s = .ok s := by
  obtain ⟨-, -, hlen⟩ := palEncode_table hp
  obtain ⟨-, hbits, htable⟩ := h.table hlen
  rw [checkPalette_table ((palEncode_congr h.imem h.imemSize p).trans hp), hbits, htable,
    if_pos ⟨hlen, rfl⟩]

/-! ### Issued transactions -/

/-- How a procedure ends that issues the transactions `items` to the sink `start`: they are taken
whole, and it leaves a state with `after`; or one of them fails, which is the last, and it leaves
one with `stop`. -/
inductive Issues (stop : SinkItem → Failure → State → Prop) (start : Sink)
    (items : List SinkItem) (after : State → Prop) : Ret → Prop
  | whole {t : State} (takes : start.takes (items.map SinkItem.bytes) = some t.sink)
      (left : after t) : Issues stop start items after (.ok t)
  | broken {j n : Nat} {x : SinkItem} {k : Sink} {e : Option Byte} {t : State}
      (item : items[j]? = some x)
      (fails : SinkFailsAt start (items.map SinkItem.bytes) j x.bytes k n e)
      (last : t.sink = k.record x.bytes (n, e)) (left : stop x (answerFailure e) t) :
      Issues stop start items after (.fail (answerFailure e) t)

theorem Issues.nothing {stop : SinkItem → Failure → State → Prop} {start : Sink} {t : State}
    {after : State → Prop} (hx : t.sink = start) (left : after t) :
    Issues stop start [] after (.ok t) :=
  .whole (congrArg some hx.symm) left

/-- The transactions of a sequence are those of its parts in turn. -/
theorem Issues.andThen {stop : SinkItem → Failure → State → Prop} {start : Sink}
    {xs ys : List SinkItem} {mid after : State → Prop} {r : Ret} {next : State → Ret}
    (h : Issues stop start xs mid r) (hn : ∀ t, mid t → Issues stop t.sink ys after (next t)) :
    Issues stop start (xs ++ ys) after (r.andThen next) := by
  cases h with
  | @whole t takes left =>
    have second := hn t left
    rw [Ret.andThen_ok]
    generalize next t = r at second
    cases second with
    | whole takes' left' =>
      refine .whole ?_ left'
      rw [List.map_append, Sink.takes_append_of takes, takes']
    | @broken j _ _ _ _ _ item fails last left' =>
      refine .broken (j := xs.length + j) ?_ ?_ last left'
      · rw [List.getElem?_append_right (Nat.le_add_right _ _), Nat.add_sub_cancel_left, item]
      · rw [List.map_append, ← List.length_map (f := SinkItem.bytes)]
        exact fails.prepend takes
  | @broken j _ _ _ _ _ item fails last left =>
    have hj := (List.getElem?_eq_some_iff.1 item).1
    refine .broken (j := j) ?_ ?_ last left
    · rw [List.getElem?_append_left hj, item]
    · rw [List.map_append]
      exact fails.append _

/-- What issues no transaction may follow. -/
theorem Issues.andThen_nothing {stop : SinkItem → Failure → State → Prop} {start : Sink}
    {items : List SinkItem} {mid after : State → Prop} {r : Ret} {next : State → Ret}
    (h : Issues stop start items mid r) (hn : ∀ t, mid t → Issues stop t.sink [] after (next t)) :
    Issues stop start items after (r.andThen next) :=
  List.append_nil items ▸ h.andThen hn

/-- Where one of the transactions fails, that failure is the result. -/
theorem Issues.stopped {stop : SinkItem → Failure → State → Prop} {start : Sink}
    {items : List SinkItem} {after : State → Prop} {r : Ret} (h : Issues stop start items after r)
    {j n : Nat} {x : SinkItem} {k : Sink} {e : Option Byte} (hx : items[j]? = some x)
    (hf : SinkFailsAt start (items.map SinkItem.bytes) j x.bytes k n e) :
    ∃ t, r = .fail (answerFailure e) t ∧ t.sink = k.record x.bytes (n, e) ∧
      stop x (answerFailure e) t := by
  cases h with
  | whole takes left =>
    have hj := (List.getElem?_eq_some_iff.1 hf.offer).1
    have := hf.takes_le (by rw [List.take_length]; exact takes) (Nat.le_refl _)
    omega
  | broken item fails last left =>
    obtain ⟨rfl, -, rfl, rfl, rfl⟩ := hf.unique fails
    cases hx.symm.trans item
    exact ⟨_, rfl, last, left⟩

/-- The sink takes a transaction whole, or fails it (20_memory.md R90). -/
theorem Sink.answer_cases (k : Sink) (n : Nat) :
    k.answer n = (n, none) ∨ ∃ m e, k.answer n = (m, e) ∧ (e ≠ none ∨ m < n) := by
  obtain ⟨⟨m, e⟩, ha⟩ : ∃ x, k.answer n = x := ⟨_, rfl⟩
  have hle : m ≤ n := by simpa [ha] using k.answer_le n
  cases e with
  | some c => exact .inr ⟨m, some c, ha, .inl nofun⟩
  | none =>
    rcases Nat.lt_or_eq_of_le hle with hlt | rfl
    · exact .inr ⟨m, none, ha, .inr hlt⟩
    · exact .inl ha

/-- A transaction that fails at once. -/
theorem SinkFailsAt.single {k : Sink} {bs : List Byte} {n : Nat} {e : Option Byte}
    (ha : k.answer bs.length = (n, e)) (hf : e ≠ none ∨ n < bs.length) :
    SinkFailsAt k [bs] 0 bs k n e := ⟨rfl, rfl, ha, hf⟩

/-! ### The transactions of a frame -/

section
variable {s₀ s : State} {bits i : Nat} {bytes : List Byte}

/-- A direct write of CTRL (43_frame_animation.md R276, 90_conflicts.md C7). -/
theorem BetweenFrames.emit_issues (h : BetweenFrames s₀ bits bytes i s) (bs : List Byte) :
    Issues (StoppedAt s₀ bits bytes) s.sink [{ bytes := bs, part := .direct, done := i }]
      (BetweenFrames s₀ bits bytes i) (emit bs s) := by
  have keeps : ∀ k n, BetweenFrames s₀ bits bytes i (s.sent k n) := fun k n =>
    ⟨⟨h.imem, h.imemSize, h.gct, h.done⟩, h.units⟩
  rcases s.sink.answer_cases bs.length with ha | ⟨n, e, ha, hf⟩
  · rw [emit, sinkWrite_whole ha]
    exact .whole (Sink.takes_cons.2 ⟨ha, rfl⟩) (keeps _ _)
  · rw [emit, sinkWrite_fails ha hf]
    have left := keeps (s.sink.record bs (n, e)) n
    exact .broken rfl (.single ha hf) rfl
      ⟨left.toEncoding, fun _ => left.units, fun hd => absurd rfl hd⟩

/-- A direct write that is there only where `c` holds. -/
theorem BetweenFrames.emitIf_issues (h : BetweenFrames s₀ bits bytes i s) (c : Prop) [Decidable c]
    (bs : List Byte) :
    Issues (StoppedAt s₀ bits bytes) s.sink
      (if c then [{ bytes := bs, part := .direct, done := i }] else [])
      (BetweenFrames s₀ bits bytes i) (if c then emit bs s else .ok s) := by
  by_cases hc : c
  · simp only [if_pos hc]
    exact h.emit_issues bs
  · simp only [if_neg hc]
    exact .nothing rfl h

/-- The units ready for SbwClose: the LZW unit CLOSED, these bytes buffered. -/
structure Closable (s₀ : State) (bits : Nat) (bytes : List Byte) (i : Nat) (rest : List Byte)
    (t : State) : Prop extends Encoding s₀ bits bytes i t where
  writer : t.sbw = { st := .writable, data := rest }
  unit   : t.lzw.st = .closed

/-- How the sink answers the transactions recorded before an accepting one (20_memory.md R92). -/
theorem Mirrored.answered {s : State} {r a : Ret} (h : Mirrored s r a) {new : List Tx}
    (hnew : a.state.sink.txs = s.sink.txs ++ new) :
    Answered s.sink (new.map Tx.offered) r a := by
  obtain ⟨offers, hall, answered⟩ := h
  obtain ⟨htxs, -, -⟩ := Sink.takes_sink hall
  obtain rfl := List.append_cancel_left (hnew.symm.trans htxs)
  rw [List.map_map, show Tx.offered ∘ (fun bs => (⟨bs, bs.length, none⟩ : Tx)) = id from rfl,
    List.map_id]
  exact answered

/-- Rows and LzwClose of fresh units issue the full units of the frame's data
(42_lzw.md R237, R239, R246). -/
theorem Encoding.lzw_issues (h : Encoding s₀ bits bytes i s)
    (hw : s.sbw = { st := .writable, data := [] }) {lit : Nat}
    (hl : s.lzw = (lzwOpen lit s₀).lzw) {pieces : List (List Byte)}
    (hfit : ∀ p ∈ pieces, literalsFit lit p = true) :
    Issues (StoppedAt s₀ bits bytes) s.sink
      ((fullUnits (lzwData lit pieces s₀)).map fun u =>
        { bytes := u, part := .fullUnit, done := i })
      (Closable s₀ bits bytes i (unitRest (lzwData lit pieces s₀)))
      ((lzwWriteEach pieces s).andThen lzwClose) := by
  have proc := (LzwProc.lzwWriteEach pieces).andThen LzwProc.lzwClose
  have kept : LzwFrame s ((lzwWriteEach pieces s).andThen lzwClose).state :=
    Ret.andThen_rel (R := LzwFrame) LzwFrame.trans (lzwWriteEach_frame pieces s)
      fun t _ => lzwClose_frame t
  have ended := proc.ended (s := s) (congrArg Sbw.st hw) (by rw [hw]; exact Nat.zero_le _)
  have hwrite : ∀ p ∈ pieces, literalsFit s.lzw.lit p = true := by rw [hl]; exact hfit
  obtain ⟨v, hv⟩ := lzwData_yields hfit s₀
  obtain ⟨u, hu, -, closed⟩ := lzwWriteEach_close_ready (s := s.withAcceptAll)
    ⟨congrArg Sbw.st hw, rfl, rfl⟩ (congrArg Lzw.st hl) hwrite
  obtain ⟨hlu, -, handed⟩ := hv s.withAcceptAll u hl hu
  obtain ⟨-, -, new, htxs, hoffers⟩ := handed.units_rest hw
  have answered := (proc.mirrors s).answered (new := new) (by rw [hu]; exact htxs)
  rw [hu, hoffers] at answered
  have hitems : ((fullUnits (lzwData lit pieces s₀)).map fun u =>
      (⟨u, .fullUnit, i⟩ : SinkItem)).map SinkItem.bytes = fullUnits (lzwData lit pieces s₀) := by
    rw [List.map_map]
    exact List.map_id _
  have hrun : ∀ t, (lzwWriteEach pieces s).andThen lzwClose = .ok t →
      t.lzw = v ∧ _ ∧ Handed s (lzwData lit pieces s₀) t := fun t => hv s t hl
  generalize (lzwWriteEach pieces s).andThen lzwClose = r at kept ended answered hrun
  cases answered with
  | whole takes same =>
    cases r with
    | fail f t => cases same
    | ok t =>
      obtain ⟨hlt, -, handed'⟩ := hrun t rfl
      refine .whole (by rw [hitems, takes]; rfl)
        ⟨h.step kept, (handed'.units_rest hw).1, ?_⟩
      rw [hlt, ← hlu, closed]
  | @broken j n unit k e t fails result last =>
    subst result
    obtain ⟨failed, writer, -⟩ := ended.counted fails last
    refine .broken (j := j) (x := ⟨unit, .fullUnit, i⟩)
      (by rw [List.getElem?_map, fails.offer]; rfl) (by rw [hitems]; exact fails) last ⟨h.step kept, nofun, fun _ => ⟨?_, ?_⟩⟩
    · rw [writer]
    · rw [if_pos rfl, writer]
      exact ⟨rfl, failed⟩

/-- A close whose transaction the sink takes whole (41_subblock_writer.md R207). -/
theorem sbwClose_whole {s : State} (hw : s.sbw.st = .writable)
    (ha : s.sink.answer (closeBytes s).length = ((closeBytes s).length, none)) :
    sbwClose s = .ok { s.sent (s.sink.record (closeBytes s) ((closeBytes s).length, none))
      (closeBytes s).length with sbw := { st := .closed, data := [] } } := by
  simp only [sbwClose, sbwCheck_none.2 hw, sbwSinkWrite_whole ha, Ret.andThen_ok]

/-- SbwClose issues the closing transaction (41_subblock_writer.md R201, R207). -/
theorem Closable.close_issues {rest : List Byte} (h : Closable s₀ bits bytes i rest s) :
    Issues (StoppedAt s₀ bits bytes) s.sink
      [{ bytes := closingBlock rest, part := .closing, done := i }]
      (fun t => Encoding s₀ bits bytes i t ∧ UnitsClosed t) (sbwClose s) := by
  have hbytes : closeBytes s = closingBlock rest := by rw [closeBytes_eq, h.writer]
  have hst : s.sbw.st = .writable := congrArg Sbw.st h.writer
  have kept := h.toEncoding.step (sbwClose_frame s).toLzw
  have unit : (sbwClose s).state.lzw.st = .closed := by rw [(sbwClose_frame s).lzw, h.unit]
  rcases s.sink.answer_cases (closeBytes s).length with ha | ⟨n, e, ha, hf⟩
  · rw [sbwClose_whole hst ha] at kept unit ⊢
    rw [← hbytes]
    exact .whole (Sink.takes_cons.2 ⟨ha, rfl⟩) ⟨kept, rfl, unit⟩
  · rw [sbwClose_fails hst ha hf] at kept unit ⊢
    rw [← hbytes]
    exact .broken rfl (.single ha hf) rfl ⟨kept, nofun, fun _ => ⟨rfl, unit⟩⟩

/-- FrameEncode issues the image descriptor, the full units of the frame's data and the closing
transaction (43_frame_animation.md R272, R275). -/
theorem BetweenFrames.frameEncode_issues (h : BetweenFrames s₀ bits bytes i s) {fd : FrameDesc}
    (hrows : RowsFit s₀ bits fd fd.height) {data : List Byte}
    (hdata : data = lzwData (literalWidth bits) (frameRows fd s₀) s₀) :
    Issues (StoppedAt s₀ bits bytes) s.sink
      ([{ bytes := imageItem fd (literalWidth bits), part := .direct, done := i }] ++
        ((fullUnits data).map (fun u => { bytes := u, part := .fullUnit, done := i }) ++
          [{ bytes := closingBlock (unitRest data), part := .closing, done := i }]))
      (fun t => Encoding s₀ bits bytes i t ∧ UnitsClosed t)
      (frameEncode fd (literalWidth bits) s) := by
  subst hdata
  refine (h.emit_issues _).andThen fun s1 h1 => ?_
  have same : ∀ q, readRow fd q (lzwOpen (literalWidth bits) (sbwOpen s1)) = readRow fd q s₀ :=
    readRow_congr h1.imem h1.imemSize fd
  have hwrite := encodeRows_eq fd fd.height 0 (lzwOpen (literalWidth bits) (sbwOpen s1))
    fun q _ hq => by
      obtain ⟨row, hrow, -⟩ := hrows q (by omega)
      exact ⟨row, by rw [same, hrow]⟩
  simp only [same, ← List.range_eq_range'] at hwrite
  have opened : Encoding s₀ bits bytes i (lzwOpen (literalWidth bits) (sbwOpen s1)) :=
    h1.toEncoding.step ((sbwOpen_frame s1).toLzw.trans (lzwOpen_frame _ _))
  have hrun := (opened.lzw_issues rfl rfl hrows.literals).andThen fun s2 h2 => h2.close_issues
  rw [frameRows, rowsBefore, ← hwrite, Ret.andThen_assoc] at hrun
  exact hrun

/-- One round of step 7 issues the transactions of the frame (43_frame_animation.md R287). -/
theorem BetweenFrames.encodeFrame_issues (h : BetweenFrames s₀ bits bytes i s) {a : Nat}
    {fd : FrameDesc} (hread : readFrame a i s₀ = some fd) (hvalid : FrameValid s₀ bits bytes fd) :
    Issues (StoppedAt s₀ bits bytes) s.sink
      (frameItems (literalWidth bits) i fd
        (lzwData (literalWidth bits) (frameRows fd s₀) s₀))
      (BetweenFrames s₀ bits bytes (i + 1)) (encodeFrame a i (literalWidth bits) s) := by
  have hgce := h.emitIf_issues (¬fd.delay = 0) (gceItem fd.delay)
  rw [ite_not, ite_not] at hgce
  rw [encodeFrame, readFrame_congr h.imem h.imemSize, hread, frameItems, List.append_assoc,
    List.append_assoc]
  refine hgce.andThen fun s1 h1 => ?_
  rw [h1.checkPalette hvalid.palette, Ret.andThen_ok]
  refine (h1.frameEncode_issues hvalid.rows rfl).andThen_nothing fun s2 h2 => ?_
  obtain ⟨encoding, closed⟩ := h2
  exact .nothing rfl ⟨⟨encoding.imem, encoding.imemSize, encoding.gct,
    congrArg (· + 1) encoding.done⟩, (if_neg (Nat.succ_ne_zero i)).mpr ⟨closed.sbw, closed.lzw⟩⟩

/-- Step 7 issues the transactions of the frames in turn (43_frame_animation.md R287). -/
theorem BetweenFrames.encodeFrames_issues {a : Nat} {frames : List FrameDesc}
    (h : BetweenFrames s₀ bits bytes i s)
    (hread : ∀ j fd, frames[j]? = some fd → readFrame a (i + j) s₀ = some fd)
    (hvalid : ∀ fd ∈ frames, FrameValid s₀ bits bytes fd) :
    Issues (StoppedAt s₀ bits bytes) s.sink
      (framesItems (literalWidth bits) i frames (animationDatas frames bits s₀))
      (BetweenFrames s₀ bits bytes (i + frames.length))
      (encodeFrames a (literalWidth bits) frames.length i s) := by
  induction frames generalizing i s with
  | nil => exact .nothing rfl h
  | cons fd fds ih =>
    rw [List.length_cons, ← Nat.add_assoc, Nat.add_right_comm]
    refine (h.encodeFrame_issues (hread 0 fd rfl) (hvalid fd (by simp))).andThen fun t ht =>
      ih ht (fun j g hg => ?_) fun g hg => hvalid g (by simp [hg])
    rw [Nat.add_right_comm, Nat.add_assoc]
    exact hread (j + 1) g hg

/-- Steps 4 to 8 issue the transactions of the animation (43_frame_animation.md R284–R288). -/
theorem BetweenFrames.emitAnimation_issues {frames : List FrameDesc} {loop w h : Nat}
    (hs : BetweenFrames s₀ bits bytes 0 s) (hv : AnimationValid s₀ frames loop w h bits bytes) :
    Issues (StoppedAt s₀ bits bytes) s.sink
      (animationItems frames loop w h bits bytes (animationDatas frames bits s₀))
      (BetweenFrames s₀ bits bytes frames.length)
      (emitAnimation s₀.argA frames.length loop w h s) := by
  have htable := fun {t : State} (ht : BetweenFrames s₀ bits bytes 0 t) =>
    ht.toEncoding.table hv.toAnimationRead.table_length
  obtain ⟨-, hbits, -⟩ := htable hs
  simp only [animationItems, List.append_assoc, emitAnimation, hbits]
  refine (hs.emit_issues signatureItem).andThen fun s1 h1 => ?_
  refine (h1.emit_issues (lsdItem w h bits)).andThen fun s2 h2 => ?_
  obtain ⟨-, -, htab⟩ := htable h2
  rw [htab]
  refine (h2.emit_issues bytes).andThen fun s3 h3 => ?_
  refine (h3.emitIf_issues (1 < frames.length) (loopExtItem loop)).andThen fun s4 h4 => ?_
  refine (h4.encodeFrames_issues (fun j fd hfd => ?_) hv.valid).andThen fun s5 h5 => ?_
  · rw [Nat.zero_add]
    exact hv.read j fd hfd
  · rw [Nat.zero_add] at h5
    exact h5.emit_issues trailerItem

end

/-! ### The statement -/

/-- The sink fails one of the transactions of a valid animation (60_exceptions.md R315 item 8). -/
theorem encAnim_sinkFails {s : State} {frames : List FrameDesc} {loop w h bits : Nat}
    {bytes : List Byte} (hv : AnimationValid s frames loop w h bits bytes) {items : List SinkItem}
    (hitems : items = animationItems frames loop w h bits bytes (animationDatas frames bits s))
    {x : SinkItem} {j n : Nat} {k : Sink} {e : Option Byte} (hx : items[j]? = some x)
    (hf : SinkFailsAt s.sink (items.map SinkItem.bytes) j x.bytes k n e) :
    ∃ t new, exec .encAnim s = .next t ∧
      t.csr.result = .failed (answerFailure e).kind ∧
      t.csr.sinkCode = (answerFailure e).code ∧ t.sink = k.record x.bytes (n, e) ∧
      t.stream = s.stream ++ new ∧
      new = ((items.take j).map SinkItem.bytes).flatten ++ x.bytes.take n ∧
      t.csr.res0 = countWord new.length ∧ t.csr.res1 = BitVec.ofNat 32 x.done ∧
      t.gct.valid = true ∧ t.gct.bits = bits ∧ t.gctTable = bytes ∧
      (x.part = .direct → UnitsBetween s x.done t) ∧
      (x.part ≠ .direct → t.sbw.st = .failed (answerFailure e) ∧
        if x.part = .fullUnit then
          t.sbw.data = x.bytes.drop 1 ∧ t.lzw.st = .failed (answerFailure e)
        else t.lzw.st = .closed) := by
  have start : BetweenFrames s bits bytes 0 (gctLoad (.table bits bytes) s.counting) :=
    ⟨⟨rfl, rfl, rfl, rfl⟩, rfl, rfl⟩
  have hissues := start.emitAnimation_issues hv
  rw [← hitems] at hissues
  obtain ⟨t, ht, last, left⟩ := hissues.stopped hx hf
  have hrun : encodeAnimation s.argA s.counting = .fail (answerFailure e) t :=
    (encodeAnimation_valid (hv.toAnimationRead.setSeq _)).trans ht
  have hstream : t.stream = s.stream ++
      (((items.take j).map SinkItem.bytes).flatten ++ x.bytes.take n) := by
    rw [State.stream, last, hf.stream, List.append_assoc, List.map_take]
    rfl
  have hexec := exec_encAnim_eq s
  rw [hrun] at hexec
  obtain ⟨new, done, hnew, hres0, hres1, hdone, -⟩ := encAnimCounts s _ hexec
  obtain rfl : new = _ := List.append_cancel_left (hnew.symm.trans hstream)
  obtain rfl : done = x.done := by
    rw [hdone, ← left.done]
    exact congrArg (·.state.seq.framesDone) hrun
  obtain ⟨valid, hbits, table⟩ := left.table hv.toAnimationRead.table_length
  exact ⟨_, _, hexec, rfl, rfl, last, hstream, rfl, hres0, hres1, valid, hbits, table, left.direct,
    left.writer⟩

/-- Settles O60: before an accepting sink ENC_ANIM reaches the frame that has a failure of its own,
and before any sink it stops at the transaction that fails. -/
theorem encAnimStepFailures : Obligations.EncAnimStepFailures := by
  intro s frames loop w h bits bytes hread
  refine ⟨fun hacc i fd out hi hvalid hout => ⟨encAnim_otherPalette hread hacc hi hvalid hout, ?_⟩,
    fun hv items x j n k e hitems hx hf => encAnim_sinkFails hv hitems hx hf⟩
  intro r part done kind st hp hr hrows hpart hdone hstop
  exact encAnim_badRow hread hacc hi hvalid hout hp hr hrows hpart hdone hstop

end Sys2Proof.Machine
end

section
/-!
SUPPORT. Reset and hazards: a CSR write while a command runs, a reset that abandons one, LZW_CLOSE
behind a closed writer, and the units a successful ENC_ANIM leaves (70_reset_and_hazards.md
R341, R351, R352, R354).
-/

namespace Sys2Proof.Machine

/-! ### Busy writes and reset -/

/-- Settles O7: a write of a busy block is dropped. -/
theorem busyWritesDropped : Obligations.BusyWritesDropped := fun _ off v hr hb =>
  hostMove_csrWrite_busy hr hb off v

/-- Reset asserted over a running command abandons it (70_reset_and_hazards.md R341). -/
theorem assertReset_busy {s : State} {w : Word} (hr : s.inReset = false)
    (hw : s.seq.cmd = some w) : assertReset s = { abandonCommand s with inReset := true } := by
  have hb : s.busy = true := by rw [State.busy, hw]; rfl
  simp only [assertReset, hr, hb, if_true, Bool.false_eq_true, if_false]

/-- The sink stream an abandoned command leaves: of the transactions still to come the first are
there whole, then a prefix of the next (70_reset_and_hazards.md R341). -/
theorem abandonCommand_stream (s : State) :
    ∃ n pre, (abandonCommand s).stream = s.stream ++ streamOf ((pendingTxs s).take n) ++ pre ∧
      (pre = [] ∨ ∃ x, (pendingTxs s)[n]? = some x ∧ pre <+: x.offered) := by
  obtain ⟨pre, hstream, hpre⟩ := abandonTxs_stream (Config.abandonPoint s.draws) (pendingTxs s)
  refine ⟨_, pre, ?_, hpre⟩
  rw [List.append_assoc, ← hstream]
  exact streamOf_append _ _

/-- Settles O15: the assertion leaves the abandoned command, the release the reset values. -/
theorem resetDuringCommand : Obligations.ResetDuringCommand := by
  intro s w hr hw
  exact ⟨{ abandonCommand s with inReset := true }, _,
    congrArg _ (assertReset_busy hr hw), rfl, rfl, abandonCommand_stream s,
    rfl, rfl, rfl, rfl, rfl, rfl, rfl, rfl, rfl⟩

/-! ### Finish before close -/

/-- LzwClose of a sound OPEN unit always puts a byte: the end-of-information code leaves bits
pending (42_lzw.md R239, 70_reset_and_hazards.md R351). -/
theorem exec_lzwClose_puts {s : State} (hl : LzwSound s.lzw) (ho : s.lzw.st = .opened) :
    ∃ u, exec .lzwClose s.reopened = .next u ∧ sbwPayload s.reopened u ≠ [] := by
  obtain ⟨u, n, -, hu, -, -, -, -, hpos, hlen, -⟩ :=
    lzwCloseResult s.reopened hl ho rfl ⟨rfl, rfl⟩
  refine ⟨u, hu, List.length_pos_iff.1 ?_⟩
  omega

/-- Settles O51: the first byte LZW_CLOSE puts is the closed writer's E_ALREADY_CLOSED. -/
theorem finishBeforeClose : Obligations.FinishBeforeClose := by
  intro s hl ho hw
  obtain ⟨u, hu, hne⟩ := exec_lzwClose_puts hl ho
  exact exec_blocked (.inr rfl) (sbwCheck_closed hw) hu hne

/-! ### The units after ENC_ANIM -/

/-- Both units CLOSED, with nothing buffered, saved or pending (70_reset_and_hazards.md R354). -/
structure UnitsEmpty (s : State) : Prop extends UnitsClosed s where
  saved  : s.lzw.saved = none
  nbits  : s.lzw.nbits = 0
  bitbuf : s.lzw.bitbuf = 0

/-- Whether the units are empty is told from the units alone. -/
theorem UnitsEmpty.congr {s t : State} (h : UnitsEmpty s) (hs : t.sbw = s.sbw)
    (hl : t.lzw = s.lzw) : UnitsEmpty t :=
  ⟨⟨hs.trans h.sbw, hl ▸ h.lzw⟩, hl ▸ h.saved, hl ▸ h.nbits, hl ▸ h.bitbuf⟩

/-- A direct write touches no unit (43_frame_animation.md R276). -/
theorem UnitsEmpty.emit {s t : State} {bs : List Byte} (h : UnitsEmpty s)
    (ht : emit bs s = .ok t) : UnitsEmpty t := by
  have hl := (emit_frame bs s).lzw
  have hs : (Machine.emit bs s).state.sbw = s.sbw := sinkWrite_sbw bs s
  rw [ht] at hs hl
  exact h.congr hs hl

/-- A row loop that succeeds leaves an OPEN unit OPEN (43_frame_animation.md R272). -/
theorem encodeRows_ok_opened {fd : FrameDesc} {n r : Nat} {s t : State}
    (ho : s.lzw.st = .opened) (h : encodeRows fd n r s = .ok t) : t.lzw.st = .opened := by
  induction n generalizing r s with
  | zero => cases h; exact ho
  | succ n ih =>
    rw [encodeRows] at h
    cases hrow : readRow fd r s with
    | none => rw [hrow] at h; cases h
    | some row =>
      rw [hrow] at h
      obtain ⟨m, hm, h⟩ := Ret.andThen_eq_ok.1 h
      exact ih (lzwWrite_ok_opened hm).1 h

/-- An LzwClose of an OPEN unit that succeeds ends with the unit shut (42_lzw.md R239). -/
theorem lzwClose_ok_shut {s t : State} (ho : s.lzw.st = .opened) (h : lzwClose s = .ok t) :
    ∃ m, t = lzwShut m := by
  rw [lzwClose_opened ho] at h
  obtain ⟨_, -, h⟩ := Ret.andThen_eq_ok.1 h
  obtain ⟨_, -, h⟩ := Ret.andThen_eq_ok.1 h
  obtain ⟨m, -, h⟩ := Ret.andThen_eq_ok.1 h
  cases h
  exact ⟨m, rfl⟩

/-- A FrameEncode that succeeds ends with both closes (43_frame_animation.md R272, R275). -/
theorem frameEncode_ok_empty {fd : FrameDesc} {lit : Nat} {s t : State}
    (h : frameEncode fd lit s = .ok t) : UnitsEmpty t := by
  obtain ⟨s1, -, h⟩ := Ret.andThen_eq_ok.1 h
  obtain ⟨s2, hrows, h⟩ := Ret.andThen_eq_ok.1 h
  obtain ⟨s3, hclose, h⟩ := Ret.andThen_eq_ok.1 h
  have opened : s2.lzw.st = .opened := encodeRows_ok_opened (lzwOpen_lzw_st lit _) hrows
  obtain ⟨m, rfl⟩ := lzwClose_ok_shut opened hclose
  rw [sbwClose_ok h]
  exact ⟨⟨rfl, rfl⟩, rfl, rfl, rfl⟩

/-- A round of step 7 that succeeds ends with its FrameEncode (43_frame_animation.md R287). -/
theorem encodeFrame_ok_empty {a i lit : Nat} {s t : State}
    (h : encodeFrame a i lit s = .ok t) : UnitsEmpty t := by
  unfold encodeFrame at h
  split at h
  · cases h
  · obtain ⟨s1, -, h⟩ := Ret.andThen_eq_ok.1 h
    obtain ⟨s2, -, h⟩ := Ret.andThen_eq_ok.1 h
    obtain ⟨s3, hframe, h⟩ := Ret.andThen_eq_ok.1 h
    cases h
    exact (frameEncode_ok_empty hframe).congr rfl rfl

/-- Step 7 ends with its last round; with no frame left the units are as they were
(43_frame_animation.md R287). -/
theorem encodeFrames_ok_empty {a lit n i : Nat} {s t : State} (hn : n ≠ 0 ∨ UnitsEmpty s)
    (h : encodeFrames a lit n i s = .ok t) : UnitsEmpty t := by
  induction n generalizing i s with
  | zero => cases h; exact hn.resolve_left (· rfl)
  | succ n ih =>
    obtain ⟨m, hm, h⟩ := Ret.andThen_eq_ok.1 h
    exact ih (.inr (encodeFrame_ok_empty hm)) h

/-- A sequence of procedures that leave the GCT leaves it. -/
theorem Ret.andThen_gct {s : State} {r : Ret} {k : State → Ret} (hr : r.state.gct = s.gct)
    (hk : ∀ t, (k t).state.gct = t.gct) : (r.andThen k).state.gct = s.gct :=
  Ret.andThen_rel (R := fun x y : State => y.gct = x.gct) (fun h k => k.trans h) hr
    fun t _ => hk t

theorem encodeFrames_gct (a lit n i : Nat) (s : State) :
    (encodeFrames a lit n i s).state.gct = s.gct := by
  induction n generalizing i s with
  | zero => rfl
  | succ n ih => exact Ret.andThen_gct (encodeFrame_gct a i lit s) (ih (i + 1))

/-- Steps 4 to 8 leave the GCT as step 3 loaded it (43_frame_animation.md R284–R288). -/
theorem emitAnimation_gct (a nf loop w h : Nat) (s : State) :
    (emitAnimation a nf loop w h s).state.gct = s.gct :=
  Ret.andThen_gct (emit_frame signatureItem s).gct fun s1 =>
    Ret.andThen_gct (emit_frame (lsdItem w h s.gct.bits) s1).gct fun s2 =>
      Ret.andThen_gct (emit_frame s2.gctTable s2).gct fun s3 =>
        Ret.andThen_gct (emitLoopExt_frame nf loop s3).gct fun s4 =>
          Ret.andThen_gct (encodeFrames_gct a (literalWidth s.gct.bits) nf 0 s4) fun s5 =>
            (emit_frame trailerItem s5).gct

/-- Steps 4 to 8 that succeed leave the units as step 7 does (43_frame_animation.md R284–R288). -/
theorem emitAnimation_ok_empty {a nf loop w h : Nat} {s t : State} (hn : nf ≠ 0)
    (ht : emitAnimation a nf loop w h s = .ok t) : UnitsEmpty t := by
  obtain ⟨s1, -, ht⟩ := Ret.andThen_eq_ok.1 ht
  obtain ⟨s2, -, ht⟩ := Ret.andThen_eq_ok.1 ht
  obtain ⟨s3, -, ht⟩ := Ret.andThen_eq_ok.1 ht
  obtain ⟨s4, -, ht⟩ := Ret.andThen_eq_ok.1 ht
  obtain ⟨s5, frames, trailer⟩ := Ret.andThen_eq_ok.1 ht
  exact (encodeFrames_ok_empty (.inl hn) frames).emit trailer

/-- Step 3 that succeeds leaves a loaded GCT (43_frame_animation.md R283). -/
theorem loadGlobalPalette_ok_valid {a : Nat} {s t : State} (h : loadGlobalPalette a s = .ok t) :
    t.gct.valid = true := by
  unfold loadGlobalPalette at h
  split at h
  · cases h
  · split at h
    · cases h
    · cases h
      rfl

/-- ENC_ANIM that succeeds has encoded a frame, and loaded the GCT before it
(43_frame_animation.md R281–R288). -/
theorem encodeAnimation_ok_empty {a : Nat} {s t : State} (h : encodeAnimation a s = .ok t) :
    UnitsEmpty t ∧ t.gct.valid = true := by
  rcases encodeAnimation_cases a s with ⟨f, early⟩ | ⟨nf, loop, w, h', -, hn, hrun⟩
  · cases early.symm.trans h
  · rw [hrun] at h
    obtain ⟨m, hload, h⟩ := Ret.andThen_eq_ok.1 h
    have gct := emitAnimation_gct a nf loop w h' m
    rw [h, Ret.state_ok] at gct
    exact ⟨emitAnimation_ok_empty hn h, gct ▸ loadGlobalPalette_ok_valid hload⟩

/-- Settles O58: RESULT is OK where the steps of ENC_ANIM succeed, and completion touches no
unit. -/
theorem encAnimClosesUnits : Obligations.EncAnimClosesUnits := by
  intro s t ht hok
  cases (exec_encAnim_eq s).symm.trans ht
  have hok := resultOf_eq_ok.1 hok
  cases hrun : encodeAnimation s.argA s.counting with
  | fail f u => rw [hrun] at hok; cases hok
  | ok u =>
    obtain ⟨empty, valid⟩ := encodeAnimation_ok_empty hrun
    exact ⟨empty.sbw, empty.lzw, empty.saved, empty.nbits, empty.bitbuf, valid⟩

end Sys2Proof.Machine
end

section
/-!
SUPPORT. A step as one turn: the engine's, the host's, or nobody's; and the moves of the host that
are refused, or that write IMEM (10_state.md R30, 20_memory.md R81, 70_reset_and_hazards.md R340,
R350, R358).
-/

namespace Sys2Proof.Machine

/-! ### Whose turn it is -/

/-- A block with no command accepted, or held in reset, has nothing for the engine to run
(70_reset_and_hazards.md R340). -/
theorem runnable_eq_none {s : State} (h : s.inReset = true ∨ s.seq.cmd = none) :
    s.runnable = none := by
  rw [State.runnable]
  rcases h with h | h <;> simp [h]

/-- With nothing to run and no move left the state is held. -/
theorem step_idle {s : State} (ha : s.host.agenda = []) (hr : s.runnable = none) :
    step s = .next s := by
  simp only [step, turn, ha, hr]

/-- A move that is not a WAIT for a command to run is the step. -/
theorem step_host {s : State} {m : HostMove} {rest : List HostMove}
    (ha : s.host.agenda = m :: rest) (hm : m ≠ .wait ∨ s.runnable = none) :
    step s = hostMove m { s with host.agenda := rest } := by
  cases m with
  | wait =>
    have hr := hm.resolve_left (absurd rfl)
    simp only [step, turn, ha, hr]
  | _ => simp only [step, turn, ha]

/-- Settles O4: the step runs the word, and the word is that of the command. -/
theorem stepRunsDecoded : Obligations.StepRunsDecoded := by
  intro s w i hr hw hd _ ha
  rw [step_engine hr hw ha, runWord, hd]

/-- While reset is asserted an access is refused, whatever it is (log entry 9). -/
theorem outsideReset_asserted {s : State} (h : s.inReset = true)
    (o : Host.Outcome State Fault Refusal) : outsideReset s o = .refused .accessInReset :=
  if_pos h

/-- Settles O5: the turn is the host's, or nobody's. -/
theorem stepTakesHostMove : Obligations.StepTakesHostMove :=
  ⟨fun _ _ _ ha hm => step_host ha (hm.imp_right fun hc => runnable_eq_none (.inr hc)),
    fun _ ha hc => step_idle ha (runnable_eq_none (.inr hc)),
    fun _ hr => outsideReset_released hr _⟩

/-- Settles O16: every access is refused before it touches the block, and the engine has no
turn. -/
theorem accessInResetRefused : Obligations.AccessInResetRefused := fun _ hr =>
  ⟨fun _ _ => outsideReset_asserted hr _, fun _ _ _ => outsideReset_asserted hr _,
    fun _ _ => outsideReset_asserted hr _, outsideReset_asserted hr _,
    fun ha => step_idle ha (runnable_eq_none (.inl hr))⟩

/-! ### Writes of IMEM -/

/-- Settles O17: BUSY is looked at first, then the address; a byte that exists is written in the
canonical form. -/
theorem hostImemWrite_cases : Obligations.HostImemWrite := by
  intro s a v hr
  rw [hostMove_imemWrite hr, hostImemWrite]
  refine ⟨fun hb => if_pos hb, fun hb hlarge => ?_, fun hb hsmall hwf => ?_⟩
  · rw [if_neg (by simp [hb]), if_neg (Nat.not_lt.2 hlarge)]
  · rw [if_neg (by simp [hb]), if_pos hsmall]
    exact ⟨_, rfl, Memory.write_wf hwf a.toNat v, Memory.read_write hwf a.toNat v⟩

end Sys2Proof.Machine
end

section
/-!
SUPPORT. IncHi below and at the full table (42_lzw.md R234, R236), and LZW_CLOSE with nothing
written since LZW_OPEN: one byte, or two for lit 8 (R239, R245; log entry 15).
-/

namespace Sys2Proof.Machine

/-! ### The next code -/

/-- IncHi below 4095 is the next code number alone (42_lzw.md R234). -/
theorem incHi_next {s : State} (h : (s.lzw.hi + 1).toNat ≠ 4095) :
    incHi s = .ok { s with lzw := s.lzw.nextCode } :=
  if_neg h

/-- IncHi at 4095 is the clear code and a fresh code space (42_lzw.md R234, R236). -/
theorem incHi_full {s t : State} (h : (s.lzw.hi + 1).toNat = 4095)
    (ht : emitCode (clearCode s.lzw.lit) { s with lzw := s.lzw.nextCode } = .ok t) :
    incHi s = .outOfCodes { t with lzw := t.lzw.freshCodes } := by
  have hinc : incHi s = tableFull { s with lzw := s.lzw.nextCode } := if_pos h
  have hlit : s.lzw.nextCode.lit = s.lzw.lit := rfl
  simp only [hinc, tableFull, hlit, ht, Lzw.freshCodes]

/-- Settles O48: below 4094 the advanced unit is in a round again, and at 4094 the clear code is
what EmitCode appends. -/
theorem nextCodeRule : Obligations.NextCodeRule := by
  intro s hl ho
  have hopen := hl.whileOpen ho
  have hsucc := toNat_succ hopen.hiHigh
  refine ⟨fun hlow => ?_, fun hfull hwr hacc => ?_⟩
  · have hround := (hl.round ho (Nat.le_refl _)).advance (c := s.lzw.hi) (by omega)
      (Nat.le_succ _)
    exact ⟨_, incHi_next (by omega), rfl, hsucc, hround.open.widthLow, hround.open.widthHolds,
      hround.sound.widthHigh, hround.open.widthLeast⟩
  · have hlit := hl.litHigh
    have hwidth : s.lzw.nextCode.width = 12 := nextCode_width_full hfull (hl.fullWidth ho hfull)
    have hclear := clearCode_toNat hlit
    have hsmall := pow_lit_le hlit
    obtain ⟨t, ht, -, unit⟩ := emitCode_ready (clearCode s.lzw.lit)
      (s := { s with lzw := s.lzw.nextCode }) ⟨hwr, hacc⟩
    obtain ⟨-, -, string⟩ := emitCodeAppendsBits _ { s with lzw := s.lzw.nextCode } t
      hopen.fewBits hl.noStray (Nat.le_of_eq hwidth) (by simp only [hclear, hwidth]; omega) ht
    have hsame : t.lzw.lit = s.lzw.lit := by rw [unit]; rfl
    simp only [hwidth, hclear] at string
    refine ⟨_, incHi_full (by omega) ht, ?_, ?_, rfl, string⟩
    · rw [← hsame]; rfl
    · rw [← hsame]
      exact eoiCode_toNat (hsame ▸ hlit)

/-! ### LZW_CLOSE with nothing written -/

/-- The state with `n` more bytes delivered, these bytes buffered in the writer (42_lzw.md R232). -/
def State.delivering (s : State) (bs : List Byte) : State :=
  { s with sbw.data := s.sbw.data ++ bs, seq.delivered := s.seq.delivered + bs.length }

/-- A byte that does not fill the working area is buffered and counted (42_lzw.md R232). -/
theorem lzwPut_buffers {s : State} (hw : s.sbw.st = .writable) (hl : s.sbw.data.length < 254)
    (b : Byte) : lzwPut b s = .ok (s.delivering [b]) := by
  rw [lzwPut, sbwPut_writable hw, if_neg (Nat.ne_of_lt hl)]
  rfl

/-- Fewer than 8 pending bits stay pending (42_lzw.md R233). -/
theorem drainBits_few {s : State} (h : s.lzw.nbits < 8) (fuel : Nat) :
    drainBits fuel s = .ok s := by
  cases fuel with
  | zero => rfl
  | succ fuel => rw [drainBits, if_neg (Nat.not_le.2 h)]

/-- Of 8 or more pending bits the low byte goes out first (42_lzw.md R233). -/
theorem drainBits_byte {s : State} (hw : s.sbw.st = .writable) (hl : s.sbw.data.length < 254)
    (h : 8 ≤ s.lzw.nbits) (fuel : Nat) : drainBits (fuel + 1) s =
      drainBits fuel { s.delivering [s.lzw.bitbuf.setWidth 8] with lzw := s.lzw.dropByte } := by
  rw [drainBits, if_pos h, lzwPut_buffers hw hl]
  rfl

/-- The end of LzwClose once its last code is among the pending bits: the loop of EmitCode with
this fuel, the last partial byte, and shutting the unit (42_lzw.md R233, R239). -/
def lzwFinish (fuel : Nat) (s : State) : Ret :=
  (drainBits fuel s).andThen fun t => (lzwFlushBits t).andThen fun u => .ok (lzwShut u)

/-- LzwClose of a fresh unit puts the end-of-information code alone among the pending bits
(42_lzw.md R239). -/
theorem lzwClose_fresh {s : State} {lit : Nat} (h : s.lzw = (lzwOpen lit s).lzw) :
    lzwClose s =
      lzwFinish (lit + 1) { s with lzw := s.lzw.withCode (eoiCode lit) } := by
  have ho : s.lzw.st = .opened := by rw [h]; rfl
  have hs : s.lzw.saved = none := by rw [h]; rfl
  have hlit : s.lzw.lit = lit := by rw [h]; rfl
  have hbits : s.lzw.nbits + s.lzw.width = lit + 1 := by rw [h]; exact Nat.zero_add _
  rw [lzwClose_opened ho, lzwFlushSaved_none hs, Ret.andThen_ok, hlit, emitCode, ← hbits]
  rfl

/-- Up to a byte of pending bits goes out as one byte, whether the loop of EmitCode delivers it or
the flush of the last byte does (42_lzw.md R233, R239). -/
theorem lzwFinish_one {s : State} (hw : s.sbw.st = .writable) (hl : s.sbw.data.length < 254)
    (hpos : 0 < s.lzw.nbits) (hn : s.lzw.nbits ≤ 8) (fuel : Nat) : lzwFinish (fuel + 1) s =
      .ok (lzwShut (s.delivering [s.lzw.bitbuf.setWidth 8])) := by
  rcases Nat.lt_or_eq_of_le hn with h | h
  · rw [lzwFinish, drainBits_few h, Ret.andThen_ok, lzwFlushBits, if_pos hpos,
      lzwPut_buffers hw hl, Ret.andThen_ok]
  · have hempty : s.lzw.dropByte.nbits = 0 := by rw [Lzw.dropByte, h]
    rw [lzwFinish, drainBits_byte hw hl (Nat.le_of_eq h.symm),
      drainBits_few (by simp only [hempty]; decide), Ret.andThen_ok, lzwFlushBits,
      if_neg (by simp only [hempty]; decide), Ret.andThen_ok]
    rfl

/-- 9 to 16 pending bits go out as two bytes (42_lzw.md R233, R239). -/
theorem lzwFinish_two {s : State} (hw : s.sbw.st = .writable) (hl : s.sbw.data.length < 253)
    (hlo : 8 < s.lzw.nbits) (hn : s.lzw.nbits ≤ 16) (fuel : Nat) : lzwFinish (fuel + 2) s =
      .ok (lzwShut (s.delivering
        [s.lzw.bitbuf.setWidth 8, (s.lzw.bitbuf >>> 8).setWidth 8])) := by
  have hrest : s.lzw.dropByte.nbits = s.lzw.nbits - 8 := rfl
  have hroom : (s.sbw.data ++ [s.lzw.bitbuf.setWidth 8]).length < 254 := by
    rw [List.length_append, List.length_singleton]
    omega
  have last := lzwFinish_one
    (s := { s.delivering [s.lzw.bitbuf.setWidth 8] with lzw := s.lzw.dropByte }) hw hroom
    (hrest ▸ by omega) (hrest ▸ by omega) fuel
  have both : (s.delivering [s.lzw.bitbuf.setWidth 8]).delivering
      [(s.lzw.bitbuf >>> 8).setWidth 8] =
        s.delivering [s.lzw.bitbuf.setWidth 8, (s.lzw.bitbuf >>> 8).setWidth 8] := by
    simp only [State.delivering, List.append_assoc]
    rfl
  rw [← both, lzwFinish, drainBits_byte hw (by omega) (Nat.le_of_lt hlo)]
  exact last

/-- The bytes of the end-of-information code alone: `lit + 1` bits are one byte, and two for
lit 8 (42_lzw.md R239; log entry 15). -/
def eoiBytes (lit : Nat) : List Byte :=
  if lit = 8 then [1, 1] else [BitVec.ofNat 8 (2 ^ lit + 1)]

/-- LzwClose of a fresh unit delivers those bytes (42_lzw.md R239). -/
theorem lzwClose_fresh_delivers {s : State} {lit : Nat} (hhi : lit ≤ 8)
    (hw : s.sbw.st = .writable) (hl : s.sbw.data.length ≤ 252)
    (h : s.lzw = (lzwOpen lit s).lzw) :
    lzwClose s = .ok (lzwShut (s.delivering (eoiBytes lit))) := by
  have hbits : (s.lzw.withCode (eoiCode lit)).nbits = lit + 1 := by
    rw [h]
    exact Nat.zero_add _
  have hbuf : (s.lzw.withCode (eoiCode lit)).bitbuf.toNat = 2 ^ lit + 1 := by
    rw [h, withCode_bitbuf (u := (lzwOpen lit s).lzw) ⟨Nat.zero_le 7, Nat.one_pos⟩,
      eoiCode_toNat hhi]
    simp
  rw [lzwClose_fresh h, eoiBytes]
  rcases Nat.lt_or_eq_of_le hhi with hlt | rfl
  · rw [if_neg (Nat.ne_of_lt hlt), ← hbuf, BitVec.ofNat_toNat]
    exact lzwFinish_one (s := { s with lzw := s.lzw.withCode (eoiCode lit) }) hw
      (Nat.lt_of_le_of_lt hl (by decide)) (hbits ▸ Nat.succ_pos lit) (hbits ▸ hlt) lit
  · have hvalue : (s.lzw.withCode (eoiCode 8)).bitbuf = 257 := BitVec.eq_of_toNat_eq hbuf
    have two := lzwFinish_two (s := { s with lzw := s.lzw.withCode (eoiCode 8) }) hw
      (Nat.lt_succ_of_le hl) (hbits ▸ by decide) (hbits ▸ by decide) 7
    simp only [hvalue] at two
    exact two

/-- Settles O45: the code's bytes are buffered, counted in RES0, and the unit is shut. -/
theorem lzwCloseFresh : Obligations.LzwCloseFresh := by
  intro s lit _ hhi hw hl h
  have hclose := lzwClose_fresh_delivers (s := { s with seq.delivered := 0 }) hhi hw hl h
  have hcount : countWord (0 + (eoiBytes lit).length) = if lit = 8 then 2 else 1 := by
    rw [eoiBytes]
    split <;> rfl
  have hshut : ({ s.lzw with bitbuf := 0, nbits := 0, saved := none, st := .closed } : Lzw) =
      { s.lzw with st := .closed } := by rw [h]
  rw [exec_lzwClose_ok hclose, ← hshut, ← hcount]
  rfl

end Sys2Proof.Machine
end

section
/-!
SUPPORT. The data of each frame of ENC_ANIM, decoded (42_lzw.md R247, 43_frame_animation.md R272).
-/

namespace Sys2Proof.Machine

/-- The data of literals decodes to them (42_lzw.md R247). -/
theorem lzwData_decodes {lit : Nat} (hlo : 2 ≤ lit) (hhi : lit ≤ 8) {pieces : List (List Byte)}
    (hfit : ∀ p ∈ pieces, literalsFit lit p = true) (s : State) :
    gifDecode lit (lzwData lit pieces s) = some pieces.flatten := by
  obtain ⟨u, hu, -, -⟩ :=
    lzwWriteEach_close_ready (s := freshUnits lit s) ⟨rfl, rfl, rfl⟩ rfl hfit
  obtain ⟨t, hwrite, hclose⟩ := Ret.andThen_eq_ok.1 hu
  rw [lzwData, hu]
  exact lzwRoundTrip lit pieces (sbwOpen s.withAcceptAll) t u hlo hhi rfl rfl hwrite hclose

/-- The literal width of a table's bits is in the range of LZW_OPEN (40_helpers.md R189). -/
theorem literalWidth_range {bits : Nat} (h : bits ≤ 8) :
    2 ≤ literalWidth bits ∧ literalWidth bits ≤ 8 :=
  ⟨Nat.le_max_left _ _, Nat.max_le.2 ⟨by decide, h⟩⟩

/-- Settles O56: the stream is that of O54, and each frame's data decodes to its rows, which are
literals. -/
theorem encAnimRoundTrip : Obligations.EncAnimRoundTrip := by
  intro s frames loop w h bits bytes hv hacc
  obtain ⟨t, ht, stream, -⟩ := encAnimWritesStream s frames loop w h bits bytes _ hv hacc rfl
  refine ⟨t, _, ht, rfl, stream, fun i fd hfd => ?_⟩
  have valid := hv.valid fd (List.mem_of_getElem? hfd)
  obtain ⟨-, hbits, -⟩ := palEncode_table valid.palette
  obtain ⟨hlo, hhi⟩ := literalWidth_range hbits
  refine ⟨lzwData (literalWidth bits) (frameRows fd s) s, ?_,
    lzwData_decodes hlo hhi valid.rows.literals s⟩
  rw [animationDatas, List.getElem?_map, hfd]
  rfl

end Sys2Proof.Machine
end
